-- ==== Sys2Proof/Word.lean ====
section
/-! DEFINITION. The words of the block: bytes, the 14-bit running timestamp and the failure counters
(spec rules R9, R10, R31, R38). Everything that assembles or splits a word is in `Decode` and `Machine.Operands`. -/

namespace Sys2Proof

/-- A byte: the unit of every memory of the block (R60) and of every byte string (R10). -/
abbrev Byte := BitVec 8

/-- The running timestamp, 14 bits (R31). -/
abbrev Timestamp := BitVec 14

/-- A transfer-failure counter: ERRCNT_BITS = 32 (R6), so that it wraps to 0 after 2^32 - 1 (R244). -/
abbrev Counter := BitVec 32

end Sys2Proof
end

