-- ==== Sys2Proof/Config.lean ====
section
/-! DEFINITION. What the integrating application fixes at construction (R6, R253), the constants of R6 and R8,
and the one value the spec leaves open (a length wider than its wire field, log 14). -/

namespace Sys2Proof

/-- `HDR_BYTES` of R6: the size of a record header. -/
abbrev hdrBytes : Nat := 2

/-- `MSG_BYTES` of R6: the size of one Message. -/
abbrev msgBytes : Nat := 4

/-- `TS_HI_SHIFT` of R6 ranges over {7, 8}. -/
inductive TsShift where
  | seven
  | eight
deriving DecidableEq, Repr

/-- The OPEN parameters of R6, "fixed for the whole life of one instance".
They are data of the state that no operation writes (log 1). -/
structure Params where
  /-- `RB_CAP`: ring capacity in bytes, even, 2 to 65536 -/
  rbCap : Nat
  /-- `RB_SPLIT_EMPTY_HEAD` (R125), default true -/
  rbSplitEmptyHead : Bool
  /-- `PKT_BYTES`: size of one transmit or receive slot, a positive multiple of `MSG_BYTES` -/
  pktBytes : Nat
  /-- `RX_NSLOTS`: number of receive slots, at least 2 -/
  rxNslots : Nat
  /-- `BLE_PKT_MAX`: largest BLE packet, at least 2 -/
  blePktMax : Nat
  /-- `TS_HI_SHIFT` (R100), default 8 -/
  tsHiShift : TsShift
  /-- `TX_SEND_EMPTY` (R183), default false -/
  txSendEmpty : Bool
  /-- `T_FLUSH`: duration of the flush timeout, read by no rule (R272) -/
  tFlush : Nat
  /-- not of R6: the reading of dec_len after a malformed packet that fits the store, |pkt| (true, the pseudocode of R141) or 0
  (false, the row of R221). The spec's files differ and no ruling says which it follows (log 12). -/
  malformedKeepsLen : Bool
deriving DecidableEq, Repr

/-- The parameters of `State.reset`. The three defaults are R6's; the other values are DESIGN CHOICE (log 2, log 12): the spec
leaves them open. PKT_BYTES 64 is a value the source names (R6) and BLE_PKT_MAX 20 is the one of the test vectors. -/
def Params.default : Params where
  rbCap := 64
  rbSplitEmptyHead := true
  pktBytes := 64
  rxNslots := 2
  blePktMax := 20
  tsHiShift := .eight
  txSendEmpty := false
  tFlush := 0
  malformedKeepsLen := true

/-- The byte of index `i` of a number `n` sent in a field of `width` bytes that cannot hold it. The spec states no value
(R107, R110 give the field's width only): a free value, used for nothing but such numbers (log 14, DESIGN CHOICE). -/
opaque Config.overwideByte : (width n i : Nat) → Byte

end Sys2Proof
end

