-- ==== Sys2Proof/Syntax.lean ====
section
/-! DEFINITION. The nineteen operations of `spec/opcode_table.json` (R105), and the names of the outside world that
operations are addressed by: ports (R103), agents (R230), calling contexts (R109). -/

namespace Sys2Proof

/-- One Message: `MSG_BYTES` = 4 opaque bytes in index order (R64 (d), R101). -/
structure Message where
  b0 : Byte
  b1 : Byte
  b2 : Byte
  b3 : Byte
deriving DecidableEq, Repr

/-- The eight ports of R103. -/
inductive Port where
  | rbp | rbc | cod | txf | txb | rxf | rxb | rst
deriving DecidableEq, Repr

/-- The agents of R230, and whoever constructs the block and issues RESET. -/
inductive Agent where
  | ringProducer
  | ringConsumer
  | codecUser
  | txForeground
  | flushTimer
  | txCompletion
  | rxForeground
  | rxCompletion
  | integrator
deriving DecidableEq, Repr

/-- The calling context of R109: ordinary is context (a), timer and interrupt are context (b). -/
inductive Ctx where
  | ordinary
  | timer
  | interrupt
deriving DecidableEq, Repr

/-- The two transmit slots ("exactly two exist", R33). -/
inductive TxIx where
  | zero
  | one
deriving DecidableEq, Repr

/-- The operations of R105, one constructor per row of the opcode table. -/
inductive Instr where
  /-- 0x01, format V (R122) -/
  | rbPush (view : List Byte)
  /-- 0x02, format N (R127) -/
  | rbPop
  /-- 0x10, format V (R141) -/
  | decLoad (pkt : List Byte)
  /-- 0x11, format N (R145) -/
  | decNext
  /-- 0x12, format N (R150) -/
  | decTs
  /-- 0x13, format N (R152) -/
  | rsmFetch
  /-- 0x18, format E (R160) -/
  | bleEnc (ts : Timestamp) (bytes : List Byte)
  /-- 0x20, format M (R176) -/
  | txWrite (msgs : List Message)
  /-- 0x21, format M (R180) -/
  | txWriteNb (msgs : List Message)
  /-- 0x22, format N (R183) -/
  | txSendNow
  /-- 0x23, format N (R185) -/
  | txIsDone
  /-- 0x24, format N (R192) -/
  | txErrcnt
  /-- 0x28, format N (R186) -/
  | txTimeout
  /-- 0x29, format C (R188) -/
  | txComplete (ok : Bool)
  /-- 0x30, format N (R201) -/
  | rxBegin
  /-- 0x31, format N (R205) -/
  | rxRead
  /-- 0x32, format N (R212) -/
  | rxErrcnt
  /-- 0x39, format R (R208): `n` is the number of bytes of `data` -/
  | rxComplete (ok : Bool) (data : List Byte)
  /-- 0xFF, format N (R250) -/
  | reset
deriving DecidableEq, Repr

end Sys2Proof
end

