-- ==== Sys2Proof/WellFormed.lean ====
section
/-! DEFINITION. Which operations have a command word: those whose length or count field, 16 bits wide (R104, R106),
holds their operand's length. -/

namespace Sys2Proof

/-- The legal operand ranges of R106 that do not depend on a parameter. A receive longer than `PKT_BYTES` is well-formed
and refused when it is executed (R210). The timestamp is 14 bits by its type, so that bits 15:14 of its field are 0. -/
def Instr.wf : Instr → Bool
  | .rbPush view => decide (view.length < 65536)
  | .rbPop => true
  | .decLoad pkt => decide (pkt.length < 65536)
  | .decNext => true
  | .decTs => true
  | .rsmFetch => true
  | .bleEnc _ bytes => decide (bytes.length < 65536)
  | .txWrite msgs => decide (msgs.length < 65536)
  | .txWriteNb msgs => decide (msgs.length < 65536)
  | .txSendNow => true
  | .txIsDone => true
  | .txErrcnt => true
  | .txTimeout => true
  | .txComplete _ => true
  | .rxBegin => true
  | .rxRead => true
  | .rxErrcnt => true
  | .rxComplete _ data => decide (data.length < 65536)
  | .reset => true

end Sys2Proof
end

