-- ==== Sys2Proof/Decode.lean ====
section
/-! DEFINITION. The command word: byte 0 is the opcode, then the operand fields of its format (R104, R105, R106).
The decoder is total and rejects by name; the encoder is written from the same table; `tableWord` lays out an
instruction word numbered as the opcode table numbers it. -/

namespace Sys2Proof

/-- Two bytes, the least significant first, as a number (R104). -/
def le16 (lo hi : Byte) : Nat := lo.toNat + 256 * hi.toNat

/-- A number in a field of two bytes, the least significant first (R104). -/
def toLe16 (n : Nat) : List Byte := [BitVec.ofNat 8 n, BitVec.ofNat 8 (n / 256)]

/-- The bytes of a Message in index order (R64 (d)). -/
def Message.bytes (m : Message) : List Byte := [m.b0, m.b1, m.b2, m.b3]

/-- The Messages of a byte string of whole Messages; none where the last one is partial. -/
def messagesOf : List Byte → Option (List Message)
  | [] => some []
  | a :: b :: c :: d :: rest =>
    match messagesOf rest with
    | some ms => some (⟨a, b, c, d⟩ :: ms)
    | none => none
  | _ => none

/-- Why a word is no command (R111 (a)): each is answered 0xEE. -/
inductive Reject where
  /-- there is no opcode byte (log 27) -/
  | emptyWord
  /-- the opcode byte is not listed in R105 -/
  | unknownOpcode (op : Byte)
  /-- the word ends inside its fixed operand fields (log 27) -/
  | truncated
  /-- the byte count does not match the length or count field, or a word of format N or C goes on after its last field (log 27) -/
  | lengthMismatch
  /-- a "must be 0" bit is set -/
  | reservedBits
deriving DecidableEq, Repr

/-- Format N: nothing after the opcode byte (R104). R106 does not name the word that goes on all the same: it is refused
(DESIGN CHOICE, log 27). -/
def parseN (i : Instr) : List Byte → Except Reject Instr
  | [] => .ok i
  | _ => .error .lengthMismatch

/-- Format V: `len`:16, then `len` data bytes. -/
def parseV (f : List Byte → Instr) : List Byte → Except Reject Instr
  | l0 :: l1 :: data => if data.length = le16 l0 l1 then .ok (f data) else .error .lengthMismatch
  | _ => .error .truncated

/-- Format E: `ts`:16 with bits 15:14 zero, `len`:16, then `len` data bytes. -/
def parseE (f : Timestamp → List Byte → Instr) : List Byte → Except Reject Instr
  | t0 :: t1 :: l0 :: l1 :: data =>
    if 16384 ≤ le16 t0 t1 then .error .reservedBits
    else if data.length = le16 l0 l1 then .ok (f (BitVec.ofNat 14 (le16 t0 t1)) data)
    else .error .lengthMismatch
  | _ => .error .truncated

/-- Format M: `n`:16, then `n * MSG_BYTES` data bytes. -/
def parseM (f : List Message → Instr) : List Byte → Except Reject Instr
  | n0 :: n1 :: data =>
    if data.length = le16 n0 n1 * msgBytes then
      match messagesOf data with
      | some ms => .ok (f ms)
      | none => .error .lengthMismatch
    else .error .lengthMismatch
  | _ => .error .truncated

/-- The flags byte of formats C and R: bit 0 is `ok`, bits 7:1 must be 0. -/
def parseFlags (flags : Byte) : Except Reject Bool :=
  if flags = 0#8 then .ok false else if flags = 1#8 then .ok true else .error .reservedBits

/-- Format C: the flags byte, and nothing after it (R104). A word that goes on, or has no flags byte, is refused (DESIGN CHOICE,
log 27). -/
def parseC (f : Bool → Instr) : List Byte → Except Reject Instr
  | [] => .error .truncated
  | flags :: rest =>
    match parseFlags flags with
    | .error e => .error e
    | .ok ok => parseN (f ok) rest

/-- Format R: the flags byte, `n`:16, then `n` data bytes. -/
def parseR (f : Bool → List Byte → Instr) : List Byte → Except Reject Instr
  | flags :: rest =>
    match parseFlags flags with
    | .error e => .error e
    | .ok ok => parseV (f ok) rest
  | [] => .error .truncated

/-- The operands of the operation whose opcode byte is `op`: the table of R105. -/
def decodeBody (op : Byte) (body : List Byte) : Except Reject Instr :=
  match op.toNat with
  | 0x01 => parseV .rbPush body
  | 0x02 => parseN .rbPop body
  | 0x10 => parseV .decLoad body
  | 0x11 => parseN .decNext body
  | 0x12 => parseN .decTs body
  | 0x13 => parseN .rsmFetch body
  | 0x18 => parseE .bleEnc body
  | 0x20 => parseM .txWrite body
  | 0x21 => parseM .txWriteNb body
  | 0x22 => parseN .txSendNow body
  | 0x23 => parseN .txIsDone body
  | 0x24 => parseN .txErrcnt body
  | 0x28 => parseN .txTimeout body
  | 0x29 => parseC .txComplete body
  | 0x30 => parseN .rxBegin body
  | 0x31 => parseN .rxRead body
  | 0x32 => parseN .rxErrcnt body
  | 0x39 => parseR .rxComplete body
  | 0xFF => parseN .reset body
  | _ => .error (.unknownOpcode op)

/-- The operation a command word stands for, or why it is none (R105, R106, R111). -/
def decode : List Byte → Except Reject Instr
  | [] => .error .emptyWord
  | op :: body => decodeBody op body

/-- The opcode byte of R105. -/
def Instr.opcode : Instr → Byte
  | .rbPush _ => 0x01#8
  | .rbPop => 0x02#8
  | .decLoad _ => 0x10#8
  | .decNext => 0x11#8
  | .decTs => 0x12#8
  | .rsmFetch => 0x13#8
  | .bleEnc _ _ => 0x18#8
  | .txWrite _ => 0x20#8
  | .txWriteNb _ => 0x21#8
  | .txSendNow => 0x22#8
  | .txIsDone => 0x23#8
  | .txErrcnt => 0x24#8
  | .txTimeout => 0x28#8
  | .txComplete _ => 0x29#8
  | .rxBegin => 0x30#8
  | .rxRead => 0x31#8
  | .rxErrcnt => 0x32#8
  | .rxComplete _ _ => 0x39#8
  | .reset => 0xFF#8

/-- The flags byte of formats C and R. -/
def flagsByte (ok : Bool) : Byte := if ok then 1#8 else 0#8

/-- The operand fields that follow the opcode byte (R104). -/
def Instr.operandBytes : Instr → List Byte
  | .rbPush view => toLe16 view.length ++ view
  | .rbPop => []
  | .decLoad pkt => toLe16 pkt.length ++ pkt
  | .decNext => []
  | .decTs => []
  | .rsmFetch => []
  | .bleEnc ts bytes => toLe16 ts.toNat ++ (toLe16 bytes.length ++ bytes)
  | .txWrite msgs => toLe16 msgs.length ++ msgs.flatMap Message.bytes
  | .txWriteNb msgs => toLe16 msgs.length ++ msgs.flatMap Message.bytes
  | .txSendNow => []
  | .txIsDone => []
  | .txErrcnt => []
  | .txTimeout => []
  | .txComplete ok => [flagsByte ok]
  | .rxBegin => []
  | .rxRead => []
  | .rxErrcnt => []
  | .rxComplete ok data => flagsByte ok :: (toLe16 data.length ++ data)
  | .reset => []

/-- The command word of a well-formed operation. -/
def encode (i : Instr) : List Byte := i.opcode :: i.operandBytes

/-- How many bytes the word that begins with these bytes has: the fixed part of its format and the data its `len` or `n`
field announces (R113); bytes not given count as 0. One byte where the opcode is not listed. -/
def wordLength (w : List Byte) : Nat :=
  let byte := fun i => w.getD i 0#8
  match (byte 0).toNat with
  | 0x01 => 3 + le16 (byte 1) (byte 2)
  | 0x10 => 3 + le16 (byte 1) (byte 2)
  | 0x18 => 5 + le16 (byte 3) (byte 4)
  | 0x20 => 3 + le16 (byte 1) (byte 2) * msgBytes
  | 0x21 => 3 + le16 (byte 1) (byte 2) * msgBytes
  | 0x29 => 2
  | 0x39 => 4 + le16 (byte 2) (byte 3)
  | _ => 1

/-- The `n` low bytes of a number, the least significant first. -/
def leBytes : (n w : Nat) → List Byte
  | 0, _ => []
  | n + 1, w => BitVec.ofNat 8 w :: leBytes n (w / 256)

/-- The command word whose bits are `w`, bit 0 the least significant bit of byte 0 (the numbering of the opcode table):
`nbits` bits in whole bytes, then zeros up to the length the word itself announces. -/
def tableWord (nbits w : Nat) : List Byte :=
  let given := leBytes (nbits / 8) w
  given ++ List.replicate (wordLength given - given.length) 0#8

/-- The instruction the decoder reads from the word whose bits are `w`. -/
def decodeTableWord (nbits w : Nat) : Option Instr :=
  match decode (tableWord nbits w) with
  | .ok i => some i
  | .error _ => none

/-- The port an agent owns (R230). -/
def Agent.port : Agent → Port
  | .ringProducer => .rbp
  | .ringConsumer => .rbc
  | .codecUser => .cod
  | .txForeground => .txf
  | .flushTimer => .txb
  | .txCompletion => .txb
  | .rxForeground => .rxf
  | .rxCompletion => .rxb
  | .integrator => .rst

/-- The agent that issues an operation (R103, R230). -/
def Instr.agent : Instr → Agent
  | .rbPush _ => .ringProducer
  | .rbPop => .ringConsumer
  | .decLoad _ => .codecUser
  | .decNext => .codecUser
  | .decTs => .codecUser
  | .rsmFetch => .ringConsumer
  | .bleEnc _ _ => .codecUser
  | .txWrite _ => .txForeground
  | .txWriteNb _ => .txForeground
  | .txSendNow => .txForeground
  | .txIsDone => .txForeground
  | .txErrcnt => .txForeground
  | .txTimeout => .flushTimer
  | .txComplete _ => .txCompletion
  | .rxBegin => .rxForeground
  | .rxRead => .rxForeground
  | .rxErrcnt => .rxForeground
  | .rxComplete _ _ => .rxCompletion
  | .reset => .integrator

/-- The port an operation is issued and answered on (R103, R107). -/
def Instr.port (i : Instr) : Port := i.agent.port

/-- The context an agent runs in (R230); the ring producer and, but for TX_WRITE, the transmit foreground may be called
from the other one too (R194). -/
def Agent.ctx : Agent → Ctx
  | .flushTimer => .timer
  | .txCompletion => .interrupt
  | .rxCompletion => .interrupt
  | .ringProducer => .ordinary
  | .ringConsumer => .ordinary
  | .codecUser => .ordinary
  | .txForeground => .ordinary
  | .rxForeground => .ordinary
  | .integrator => .ordinary

end Sys2Proof
end

