-- ==== Sys2Proof/Machine/State.lean ====
section
/-! DEFINITION. The state of the block as plain data (10_state.md), the reasons a step can stop, and the state right after
RESET (R49). -/

namespace Sys2Proof.Machine

/-- The five memories of R60. -/
inductive Space where
  | rb
  | tx (s : TxIx)
  | rx (s : Nat)
  | dec
  | rsm
deriving DecidableEq, Repr

/-- Why the machine stops with a fault. All are SAFE: the model stops where the block would go on. In a sound state
(`Safety`) none can be raised. -/
inductive Fault where
  /-- a byte that nothing has written is read (R49, U3: "a model should fault if it does"); raised by every operation that
  reads a memory. Safe. -/
  | unwritten (space : Space) (addr : Nat)
  /-- an offset outside a slot memory would be written, which R63 says is never formed; raised by TX_WRITE and TX_WRITE_NB.
  Safe. -/
  | outsideSlot (space : Space) (addr : Nat)
  /-- a receive slot index that names no slot, which R44 says is never formed; raised by RX_READ and RX_COMPLETE. Safe. -/
  | noSlot (index : Nat)
deriving DecidableEq, Repr

/-- Why an operation has no meaning. All but the first and the last are R243's: an input the contract forbids, which the
command interface answers with 0xEE and no state change (log 5). All are SAFE. -/
inductive Refusal where
  /-- an operation the model gives no meaning: none is left. Safe. -/
  | notModelled (mnemonic : String)
  /-- an unknown opcode or an ill-formed word (R111 (a)), by the command interface. Safe. -/
  | badWord (why : Reject)
  /-- an operation on a port that is not its own (R103), by the command interface. Safe. -/
  | wrongPort
  /-- an operation but RESET before the first RESET (R250, U4), by the command interface. Safe. -/
  | notConstructed
  /-- TX_COMPLETE while no slot is InFlight (R189 (b), U6). Safe. -/
  | strayTxCompletion
  /-- RX_COMPLETE while no receive is outstanding (R210, U6). Safe. -/
  | strayRxCompletion
  /-- RX_COMPLETE with more than PKT_BYTES bytes (R210, U7). Safe. -/
  | receiveTooLong
  /-- RSM_FETCH whose first pop answers Continuation (R153 (b), U12). Safe. -/
  | mixedConsumer
  /-- TX_WRITE issued from context (b) (R194, U11). Safe. -/
  | writeInCompletionContext
  /-- an operation of the transmit foreground while another is in progress (R194, U10). Safe. -/
  | overlappingForeground
  /-- an operation of the ring consumer while a RSM_FETCH is in progress (R134, U10). Safe. -/
  | overlappingConsumer
  /-- RESET while an operation is in progress, a transfer outstanding or the timer armed (R251, U5). Safe. -/
  | resetNotIdle
  /-- RESET of a block whose parameters R6 forbids (U27). Safe. -/
  | badParameters
  /-- a continuation is pending and the record at rb_tail does not straddle: the state is outside R26 (R133), by RB_POP and
  RSM_FETCH. `step` stops with it. Safe. -/
  | notStraddling
deriving DecidableEq, Repr

/-- A memory: its written bytes with their addresses, in the canonical form `Memory.wf`. An unlisted address has no value. -/
abbrev Memory := List Host.Cell

/-- The Chunked Ring Buffer, R21 to R25. -/
structure Ring where
  /-- `rb_head` (R21) -/
  head : Nat
  /-- `rb_tail` (R22) -/
  tail : Nat
  /-- `rb_occ` (R23) -/
  occ : Nat
  /-- `rb_cont` (R24) -/
  cont : Bool
  /-- `rb_mem` (R25) -/
  mem : Memory
deriving DecidableEq, Repr

/-- The decoder of the BLE Frame Codec, R27 to R31. -/
structure Decoder where
  /-- `dec_buf` (R27) -/
  buf : Memory
  /-- `dec_len` (R27) -/
  len : Nat
  /-- `dec_pos` (R28) -/
  pos : Nat
  /-- `dec_ok` (R29) -/
  ok : Bool
  /-- `dec_prev_ts` (R30) -/
  prevTs : Bool
  /-- `dec_ts` (R31) -/
  ts : Timestamp
deriving DecidableEq, Repr

/-- The four states of a transmit slot (R35, R170). -/
inductive SlotStatus where
  | free
  | filling
  | pending
  | inFlight
deriving DecidableEq, Repr

/-- One transmit slot, R33 to R35. -/
structure TxSlot where
  /-- `tx_buf[s]` (R33) -/
  buf : Memory
  /-- `tx_size[s]` (R34) -/
  size : Nat
  /-- `tx_st[s]` (R35) -/
  st : SlotStatus
deriving DecidableEq, Repr

/-- The USB Bulk Transmit Engine, R33 to R38. -/
structure Transmit where
  slot0 : TxSlot
  slot1 : TxSlot
  /-- `tx_active` (R37) -/
  active : TxIx
  /-- `tx_timer` (R36) -/
  timer : Bool
  /-- `tx_err` (R38) -/
  err : Counter
deriving DecidableEq, Repr

/-- One receive slot, R40 to R42. -/
structure RxSlot where
  /-- `rx_buf[s]` (R40) -/
  buf : Memory
  /-- `rx_size[s]` (R41) -/
  size : Nat
  /-- `rx_off[s]` (R42) -/
  off : Nat
deriving DecidableEq, Repr

/-- The USB Bulk Receive Engine, R40 to R46. -/
structure Receive where
  /-- the RX_NSLOTS slots -/
  slots : List RxSlot
  /-- `rx_widx` (R44) -/
  widx : Nat
  /-- `rx_ridx` (R44) -/
  ridx : Nat
  /-- `rx_avail` (R43) -/
  avail : Nat
  /-- `rx_busy` (R45) -/
  busy : Bool
  /-- `rx_err` (R46) -/
  err : Counter
deriving DecidableEq, Repr

/-- The result tag of RB_POP (R108, R126). -/
inductive Tag where
  | none
  | packet
  | continuation
deriving DecidableEq, Repr

/-- What an operation answers on its port (R107). -/
inductive Response where
  | pushed (ok : Bool)
  | popped (tag : Tag) (more : Bool) (out : List Byte)
  | loaded (ok : Bool)
  | nextByte (b : Option Byte)
  | timestamp (ts : Timestamp)
  | fetched (got ok : Bool)
  | encoded (pkt : Option (List Byte))
  | accepted (count : Nat)
  | done (done : Bool)
  | errorCount (count : Counter)
  | message (m : Option Message)
  /-- the one byte 0xEE (R111, R243) -/
  | refused
deriving DecidableEq, Repr

/-- What the block tells the backend (R110). -/
inductive Event where
  | txStart (ctx : Ctx) (s : TxIx) (size : Nat) (data : List Byte)
  | timerArm
  | timerCancel
  | rxStart (ctx : Ctx) (s : Nat)
deriving DecidableEq, Repr

/-- One thing the block has sent: a response on a port, or an outward event. -/
inductive Output where
  | response (p : Port) (r : Response)
  | event (e : Event)
deriving DecidableEq, Repr

/-- A command word an agent has yet to issue, and the context it will issue it from. -/
structure Command where
  agent : Agent
  ctx : Ctx
  word : List Byte
deriving DecidableEq, Repr

/-- A TX_WRITE (`blocking`) or TX_WRITE_NB in progress: the Messages not yet accepted and how many have been
(R48, R176, R180; log 9). -/
structure WriteProgress where
  blocking : Bool
  rest : List Message
  accepted : Nat
deriving DecidableEq, Repr

/-- A RSM_FETCH in progress: the joined length so far and whether the Continuation is still to be popped
(R152, R153; log 9). -/
structure FetchProgress where
  len : Nat
  more : Bool
deriving DecidableEq, Repr

/-- The environment of the block as plain data, and the progress of operations that span several steps (R48). -/
structure Interface where
  /-- the first RESET has been issued (R250; log 7) -/
  live : Bool
  /-- the calling context of the operation being executed (log 8) -/
  caller : Ctx
  /-- the ring consumer is inside a RSM_FETCH -/
  fetch : Option FetchProgress
  /-- the transmit foreground is inside a TX_WRITE or TX_WRITE_NB -/
  write : Option WriteProgress
  /-- which agents take the next steps (log 3) -/
  turns : List Agent
  /-- what the agents issue, each its own commands in order (log 3) -/
  inbox : List Command
  /-- everything the block has sent, oldest first (log 4) -/
  outbox : List Output
  /-- the refusals recorded at the command interface, oldest first (log 5) -/
  refusals : List Refusal
deriving DecidableEq, Repr

/-- The whole machine. -/
structure State where
  /-- the parameters of R6 and the reading of log 12, which no operation writes (log 1) -/
  params : Params
  rb : Ring
  dec : Decoder
  /-- `rsm_buf` (R32) -/
  rsmBuf : Memory
  tx : Transmit
  rx : Receive
  io : Interface
deriving DecidableEq, Repr

/-- The ring after RESET (R49). -/
def Ring.initial : Ring where
  head := 0
  tail := 0
  occ := 0
  cont := false
  mem := []

/-- The decoder after RESET (R49). -/
def Decoder.initial : Decoder where
  buf := []
  len := 0
  pos := 0
  ok := false
  prevTs := false
  ts := 0

/-- A transmit slot after RESET (R49). -/
def TxSlot.initial : TxSlot where
  buf := []
  size := 0
  st := .free

/-- The transmit engine after RESET (R49). -/
def Transmit.initial : Transmit where
  slot0 := .initial
  slot1 := .initial
  active := .zero
  timer := false
  err := 0

/-- A receive slot after RESET (R49). -/
def RxSlot.initial : RxSlot where
  buf := []
  size := 0
  off := 0

/-- The receive engine of `n` slots after RESET (R49). -/
def Receive.initial (n : Nat) : Receive where
  slots := List.replicate n .initial
  widx := 0
  ridx := 0
  avail := 0
  busy := false
  err := 0

/-- Nothing to issue and nothing sent (log 21). -/
def Interface.initial : Interface where
  live := true
  caller := .ordinary
  fetch := none
  write := none
  turns := []
  inbox := []
  outbox := []
  refusals := []

/-- The block of parameters `p` right after RESET (R49): every cursor, count, flag and counter 0, every slot Free, every
memory unspecified. -/
def State.resetWith (p : Params) : State where
  params := p
  rb := .initial
  dec := .initial
  rsmBuf := []
  tx := .initial
  rx := .initial p.rxNslots
  io := .initial

/-- The machine right after RESET, with the parameters of log 2. -/
def State.reset : State := State.resetWith Params.default

end Sys2Proof.Machine
end

