-- ==== Sys2Proof/Machine/Operands.lean ====
section
/-! DEFINITION. Operand assembly (R115): record sizes and the place of a record in the ring, timestamps, the bytes the encoder
builds, the whole Messages of a received packet; and the bytes of responses and outward events (R107, R110). -/

namespace Sys2Proof

/-- `TS_HI_SHIFT` as a number. -/
def TsShift.bits : TsShift → Nat
  | .seven => 7
  | .eight => 8

/-- The other transmit slot: `1 - s` (R172, R281). -/
def TxIx.other : TxIx → TxIx
  | .zero => .one
  | .one => .zero

/-- The number of a transmit slot. -/
def TxIx.code : TxIx → Nat
  | .zero => 0
  | .one => 1

/-- The code of a calling context (R109). -/
def Ctx.code : Ctx → Nat
  | .ordinary => 0
  | .timer => 1
  | .interrupt => 2

/-- The parameter ranges of R6; RESET of a block that breaks one is refused (U27). -/
def Params.wf (p : Params) : Bool :=
  decide (p.rbCap % 2 = 0 ∧ 2 ≤ p.rbCap ∧ p.rbCap ≤ 65536 ∧
    p.pktBytes % msgBytes = 0 ∧ 0 < p.pktBytes ∧ 2 ≤ p.rxNslots ∧ 2 ≤ p.blePktMax)

/-- `RB_MAX_PAYLOAD` of R8: the longest payload a record can carry. -/
def Params.rbMaxPayload (p : Params) : Nat := p.rbCap - hdrBytes

/-- dec_len after a malformed packet of `n` bytes that fits the store: R141 and R221 differ (log 12). -/
def Params.malformedLength (p : Params) (n : Nat) : Nat := if p.malformedKeepsLen then n else 0

/-- `MSGS_PER_PKT` of R8. -/
def Params.msgsPerPkt (p : Params) : Nat := p.pktBytes / msgBytes

end Sys2Proof

namespace Sys2Proof.Machine

/-- `psize(len)` of R92 and R283. -/
def psize (len : Nat) : Nat := hdrBytes + len + len % 2

/-- The addresses of an `n`-byte access at `a` in a slot memory or `DEC`: no wrap (R63). -/
def slotAddrs (a n : Nat) : List Nat := List.range' a n

/-- The addresses of an `n`-byte access at `a` in `RB`: "each byte reduced separately" (R62). -/
def ringAddrs (cap a n : Nat) : List Nat := (List.range' a n).map (· % cap)

/-- `q` of R125: where the payload of the record at `t` begins, not reduced, but for the one case that
RB_SPLIT_EMPTY_HEAD decides. -/
def payloadStart (p : Params) (t : Nat) : Nat :=
  if t + hdrBytes = p.rbCap ∧ p.rbSplitEmptyHead = false then 0 else t + hdrBytes

/-- The bytes of a record header: the length, least significant byte first (R91, R64 (a)). -/
def headerBytes (len : Nat) : List Byte := toLe16 len

/-- `b[5:0]`, the timestamp bits of a header byte (R96). -/
def tsHigh (b : Byte) : Timestamp := (b.extractLsb' 0 6).setWidth 14

/-- `b[6:0]`, the timestamp bits of a timestamp byte (R97, R98). -/
def tsLow (b : Byte) : Timestamp := (b.extractLsb' 0 7).setWidth 14

/-- `TSH << TS_HI_SHIFT` (R100). -/
def tsFromHeader (sh : TsShift) (header : Byte) : Timestamp := tsHigh header <<< sh.bits

/-- `dec_ts[6:0] <- b[6:0]`: no carry into the higher bits (R149, R284). -/
def tsReplaceLow (ts : Timestamp) (b : Byte) : Timestamp := (ts &&& 0x3F80#14) ||| tsLow b

/-- `0x80 | ts[TS_HI_SHIFT+5 : TS_HI_SHIFT]`, bit 6 zero (R160). -/
def headerByte (sh : TsShift) (ts : Timestamp) : Byte := 0x80#8 ||| (ts.extractLsb' sh.bits 6).setWidth 8

/-- `0x80 | ts[6:0]` (R160). -/
def timestampByte (ts : Timestamp) : Byte := 0x80#8 ||| (ts.extractLsb' 0 7).setWidth 8

/-- The bytes of a received packet that are kept: `n - (n mod MSG_BYTES)` (R102, R209). -/
def wholeMessageBytes (n : Nat) : Nat := n - n % msgBytes

/-- The code of a slot state (R109). -/
def SlotStatus.code : SlotStatus → Nat
  | .free => 0
  | .filling => 1
  | .pending => 2
  | .inFlight => 3

/-- The code of a result tag (R108). -/
def Tag.code : Tag → Nat
  | .none => 0
  | .packet => 1
  | .continuation => 2

/-- A number in a field of `width` bytes, least significant first (R104). A number that the field cannot hold has no stated
encoding: its bytes are free values (log 14). -/
def fieldBytes (width n : Nat) : List Byte :=
  if n < 256 ^ width then leBytes width n else (List.range width).map (Config.overwideByte width n)

/-- A Boolean in a byte: 1 or 0 (R107). -/
def boolByte (b : Bool) : Byte := if b then 1#8 else 0#8

/-- The bytes of a response (R107). -/
def Response.bytes : Response → List Byte
  | .pushed ok => [boolByte ok]
  | .popped tag more out =>
    BitVec.ofNat 8 (tag.code + 4 * more.toNat) :: (fieldBytes 2 out.length ++ out)
  | .loaded ok => [boolByte ok]
  | .nextByte none => [0#8, 0#8]
  | .nextByte (some b) => [1#8, b]
  | .timestamp ts => fieldBytes 2 ts.toNat
  | .fetched got ok => [boolByte got, boolByte ok]
  | .encoded none => 0#8 :: fieldBytes 2 0
  | .encoded (some pkt) => 1#8 :: (fieldBytes 2 pkt.length ++ pkt)
  | .accepted count => fieldBytes 2 count
  | .done d => [boolByte d]
  | .errorCount count => fieldBytes 4 count.toNat
  | .message none => [0#8, 0#8, 0#8, 0#8, 0#8]
  | .message (some m) => 1#8 :: m.bytes
  | .refused => [0xEE#8]

/-- The bytes of an outward event: its code and its fields (R110). -/
def Event.bytes : Event → List Byte
  | .txStart ctx s size data =>
    0x80#8 :: (fieldBytes 1 ctx.code ++ (fieldBytes 1 s.code ++ (fieldBytes 2 size ++ data)))
  | .timerArm => [0x81#8]
  | .timerCancel => [0x82#8]
  | .rxStart ctx s => 0x88#8 :: (fieldBytes 1 ctx.code ++ fieldBytes 1 s)

/-- The port an output leaves on: a response on the operation's own port, an event on its engine's backend port
(R107, R110). -/
def Output.port : Output → Port
  | .response p _ => p
  | .event (.txStart _ _ _ _) => .txb
  | .event .timerArm => .txb
  | .event .timerCancel => .txb
  | .event (.rxStart _ _) => .rxb

/-- The bytes of an output. -/
def Output.bytes : Output → List Byte
  | .response _ r => r.bytes
  | .event e => e.bytes

end Sys2Proof.Machine
end

