-- ==== Sys2Proof/Machine/Flags.lean ====
section
/-! DEFINITION. The block's one-bit conditions: the high bit of a byte, whether a record straddles, the alternation flag of a BLE
packet and the role it gives each byte (R99), which slot states hold a Message back (R174, R185), when the block is idle
(R251). -/

namespace Sys2Proof.Machine

/-- `b[7]`, "the high bit" (R9, R284). -/
def hiBit (b : Byte) : Bool := b.getLsbD 7

/-- The record at `t` with `len` payload bytes straddles the physical end (R125). -/
def straddles (p : Params) (t len : Nat) : Bool := decide (p.rbCap < payloadStart p t + len)

/-- The role of a byte of a BLE packet (R95, R99). -/
inductive Role where
  | header
  | timestampLow
  | timestamp
  | status
  | data
deriving DecidableEq, Repr

/-- The roles of bytes 2 and later, from the flag `f`, "the previous byte with bit 7 set was a timestamp" (R98, R99). -/
def rolesFrom : Bool → List Byte → List Role
  | _, [] => []
  | f, b :: rest =>
    if hiBit b = false then .data :: rolesFrom f rest
    else if f then .status :: rolesFrom false rest
    else .timestamp :: rolesFrom true rest

/-- The role of every byte of a well-formed packet (R99); none for a malformed one (R142). -/
def roles : List Byte → List Role
  | b0 :: b1 :: rest =>
    if hiBit b0 = false then []
    else if hiBit b1 then .header :: .timestampLow :: rolesFrom true rest
    else .header :: rolesFrom false (b1 :: rest)
  | _ => []

/-- Status and data bytes are emitted; header and timestamp bytes are not (R96 to R98). -/
def Role.emitted : Role → Bool
  | .header => false
  | .timestampLow => false
  | .timestamp => false
  | .status => true
  | .data => true

/-- A packet's MIDI bytes by R99's roles: the reference the decoder is held against. -/
def midiBytes (pkt : List Byte) : List Byte :=
  ((pkt.zip (roles pkt)).filter (fun br => br.2.emitted)).map (·.1)

/-- A slot that can take no Message (R174): Pending or InFlight. -/
def SlotStatus.busy : SlotStatus → Bool
  | .free => false
  | .filling => false
  | .pending => true
  | .inFlight => true

/-- "No slot is Pending or InFlight" (R185). -/
def Transmit.isDone (t : Transmit) : Bool := !t.slot0.st.busy && !t.slot1.st.busy

/-- When RESET may be issued: no agent is inside an operation, no slot is InFlight, no receive is outstanding and the flush
timer is not armed (R251). -/
def State.idle (s : State) : Bool :=
  s.io.fetch.isNone && s.io.write.isNone && decide (s.tx.slot0.st ≠ .inFlight) && decide (s.tx.slot1.st ≠ .inFlight) &&
    !s.rx.busy && !s.tx.timer

/-- The refusals that are answered 0xEE at the command interface (R111, R243): all that the environment can bring about. -/
def Refusal.answered : Refusal → Bool
  | .badWord _ => true
  | .wrongPort => true
  | .notConstructed => true
  | .strayTxCompletion => true
  | .strayRxCompletion => true
  | .receiveTooLong => true
  | .mixedConsumer => true
  | .writeInCompletionContext => true
  | .overlappingForeground => true
  | .overlappingConsumer => true
  | .resetNotIdle => true
  | .badParameters => true
  | .notStraddling => false
  | _ => false

end Sys2Proof.Machine
end

