-- ==== Sys2Proof/Machine/Ops.lean ====
section
/-! DEFINITION. The named operations the meanings share: memory access, what an operation sends, the refusal at the command
interface (there is no exception to take, R220), and the sub-steps of each unit: the pop of the ring, the load of
the decoder, tx_flush and tx_append (R172, R174), the start of a transfer. -/

namespace Sys2Proof.Machine

/-- An outcome with any answer: a shared operation's. -/
abbrev Answer (α : Type) := Host.Outcome α Fault Refusal

/-- Do `f` with what `o` answers; a fault or refusal of `o` stays. -/
def andThen {α β : Type} (o : Answer α) (f : α → Answer β) : Answer β :=
  match o with
  | .next a => f a
  | .fault r => .fault r
  | .refused r => .refused r

/-- What an outcome answers, if it is a next state. -/
def answerOf {α : Type} (o : Answer α) : Option α :=
  match o with
  | .next a => some a
  | .fault _ => none
  | .refused _ => none

/-- The canonical form of a memory: addresses strictly rising. An unlisted address has no value, so there is no value to
leave out. -/
abbrev Memory.wf (m : Memory) : Prop := m.Pairwise (fun x y => x.1 < y.1)

/-- The byte at an address, if it has been written. -/
def Memory.read : Memory → Nat → Option Byte
  | [], _ => none
  | (a, b) :: m, x => if x = a then some b else Memory.read m x

/-- Write one byte, keeping the canonical form. -/
def Memory.write : Memory → Nat → Byte → Memory
  | [], x, v => [(x, v)]
  | (a, b) :: m, x, v =>
    if x < a then (x, v) :: (a, b) :: m
    else if x = a then (x, v) :: m
    else (a, b) :: Memory.write m x v

/-- `MemRead(space, ..)` of R11: the bytes at the addresses, in order; a byte that nothing has written faults. -/
def readAll (sp : Space) (m : Memory) : List Nat → Answer (List Byte)
  | [] => .next []
  | a :: rest =>
    match m.read a with
    | none => .fault (.unwritten sp a)
    | some b => andThen (readAll sp m rest) (fun bs => .next (b :: bs))

/-- `MemWrite(space, ..)` of R11: each byte at its address, in order. -/
def writeAll (m : Memory) : List Nat → List Byte → Memory
  | a :: addrs, b :: bs => writeAll (m.write a b) addrs bs
  | _, _ => m

/-- One byte of a memory, or the fault. -/
def readByte (sp : Space) (m : Memory) (a : Nat) : Answer Byte :=
  match m.read a with
  | none => .fault (.unwritten sp a)
  | some b => .next b

/-- The Message at an offset of a slot: MSG_BYTES bytes (R63, R64 (d)). -/
def readMessage (sp : Space) (m : Memory) (a : Nat) : Answer Message :=
  andThen (readByte sp m a) fun b0 =>
  andThen (readByte sp m (a + 1)) fun b1 =>
  andThen (readByte sp m (a + 2)) fun b2 =>
  andThen (readByte sp m (a + 3)) fun b3 => .next ⟨b0, b1, b2, b3⟩

/-- The block sends these events, in order (R110). -/
def State.emit (s : State) (es : List Event) : State :=
  { s with io := { s.io with outbox := s.io.outbox ++ es.map Output.event } }

/-- The operation answers on its port (R107). -/
def State.respond (s : State) (p : Port) (r : Response) : State :=
  { s with io := { s.io with outbox := s.io.outbox ++ [.response p r] } }

/-- A refused input at the command interface: "no state changes, nothing is answered but a one-byte response 0xEE, and the
model records a refusal" (R111 (a), R243; log 5). -/
def State.refuse (s : State) (p : Port) (r : Refusal) : State :=
  { s with io := { s.io with outbox := s.io.outbox ++ [.response p .refused], refusals := s.io.refusals ++ [r] } }

/-- The state with a new ring. -/
def State.withRb (s : State) (r : Ring) : State := { s with rb := r }

/-- The state with a new decoder. -/
def State.withDec (s : State) (d : Decoder) : State := { s with dec := d }

/-- The state with a new transmit engine, and the events its step has sent. -/
def State.withTx (s : State) (r : Transmit × List Event) : State := { s with tx := r.1 }.emit r.2

/-- The state with a new receive engine, and the events its step has sent. -/
def State.withRx (s : State) (r : Receive × List Event) : State := { s with rx := r.1 }.emit r.2

/-- The state with other progress of the ring consumer (R152). -/
def State.withFetch (s : State) (f : Option FetchProgress) : State := { s with io := { s.io with fetch := f } }

/-- The state with other progress of the transmit foreground (R176, R180). -/
def State.withWrite (s : State) (w : Option WriteProgress) : State := { s with io := { s.io with write := w } }

/-- An operation of the ring consumer, refused while a RSM_FETCH is in progress (R134, R261). -/
def asConsumer (s : State) (k : Answer State) : Answer State :=
  if s.io.fetch.isSome then .refused .overlappingConsumer else k

/-- An operation of the transmit foreground, refused while a TX_WRITE or TX_WRITE_NB is in progress (R194). -/
def asForeground (s : State) (k : Answer State) : Answer State :=
  if s.io.write.isSome then .refused .overlappingForeground else k

/-! ### The ring -/

/-- The ring after a push of a view that fits (R122): header, payload byte by byte modulo RB_CAP, no pad; then the cursor and
the occupied count. -/
def Ring.pushed (p : Params) (view : List Byte) (r : Ring) : Ring :=
  { r with
    mem := writeAll (writeAll r.mem (ringAddrs p.rbCap r.head hdrBytes) (headerBytes view.length))
      (ringAddrs p.rbCap (r.head + hdrBytes) view.length) view
    head := (r.head + psize view.length) % p.rbCap
    occ := r.occ + psize view.length }

/-- RB_PUSH on the ring (R122, R123): none where the padded record does not fit in the free space. -/
def Ring.push (p : Params) (view : List Byte) (r : Ring) : Option Ring :=
  if p.rbCap - r.occ < psize view.length then none else some (r.pushed p view)

/-- The payload length in the header at rb_tail (R91, R94). -/
def Ring.headLength (p : Params) (r : Ring) : Answer Nat :=
  andThen (readAll .rb r.mem (ringAddrs p.rbCap r.tail hdrBytes)) fun hb =>
    .next (le16 (hb.getD 0 0) (hb.getD 1 0))

/-- The oldest record has been returned whole: its space is released (R128). -/
def Ring.released (p : Params) (len : Nat) (r : Ring) : Ring :=
  { r with tail := (r.tail + psize len) % p.rbCap, occ := r.occ - psize len, cont := false }

/-- What a pop answers, and the ring after it. -/
structure Popped where
  tag : Tag
  more : Bool
  out : List Byte
  ring : Ring
deriving DecidableEq, Repr

/-- RB_POP on the ring (R127). A continuation that is due on a record that does not straddle is refused (R133). -/
def Ring.pop (p : Params) (r : Ring) : Answer Popped :=
  if r.occ = 0 then .next ⟨.none, false, [], r⟩
  else
    andThen (r.headLength p) fun len =>
      let q := payloadStart p r.tail
      let k := p.rbCap - q
      if r.cont then
        if straddles p r.tail len then
          andThen (readAll .rb r.mem (ringAddrs p.rbCap 0 (len - k))) fun out =>
            .next ⟨.continuation, false, out, r.released p len⟩
        else .refused .notStraddling
      else if straddles p r.tail len then
        andThen (readAll .rb r.mem (ringAddrs p.rbCap q k)) fun out =>
          .next ⟨.packet, true, out, { r with cont := true }⟩
      else
        andThen (readAll .rb r.mem (ringAddrs p.rbCap q len)) fun out =>
          .next ⟨.packet, false, out, r.released p len⟩

/-! ### The decoder -/

/-- The decoder after a packet that cannot be held: as a malformed one, nothing stored (R141, R143). -/
def Decoder.tooLong (d : Decoder) : Decoder := { d with len := 0, pos := 0, ok := false, prevTs := false, ts := 0 }

/-- The decoder after a packet that fits its store (R141, R142, R144). A malformed one leaves the cursor at the end, whichever
length it leaves (R29, R221; log 12). -/
def Decoder.loaded (p : Params) (pkt : List Byte) (d : Decoder) : Decoder :=
  let stored := writeAll d.buf (slotAddrs 0 pkt.length) pkt
  let malformed : Decoder :=
    { buf := stored, len := p.malformedLength pkt.length, pos := p.malformedLength pkt.length, ok := false, prevTs := false,
      ts := 0 }
  match pkt with
  | b0 :: b1 :: _ =>
    if hiBit b0 = false then malformed
    else if hiBit b1 then
      { buf := stored, len := pkt.length, pos := 2, ok := true, prevTs := true,
        ts := tsFromHeader p.tsHiShift b0 ||| tsLow b1 }
    else
      { buf := stored, len := pkt.length, pos := 1, ok := true, prevTs := false,
        ts := tsFromHeader p.tsHiShift b0 }
  | _ => malformed

/-- DEC_LOAD on the decoder (R141). -/
def Decoder.load (p : Params) (pkt : List Byte) (d : Decoder) : Decoder :=
  if p.blePktMax < pkt.length then d.tooLong else d.loaded p pkt

/-- The loop of DEC_NEXT (R145): skip timestamp bytes, answer the next data or status byte. -/
def Decoder.nextWithin : Nat → Decoder → Answer (Option Byte × Decoder)
  | 0, d => .next (none, d)
  | n + 1, d =>
    if d.len ≤ d.pos then .next (none, d)
    else
      match d.buf.read d.pos with
      | none => .fault (.unwritten .dec d.pos)
      | some b =>
        if hiBit b = false then .next (some b, { d with pos := d.pos + 1 })
        else if d.prevTs then .next (some b, { d with pos := d.pos + 1, prevTs := false })
        else Decoder.nextWithin n { d with pos := d.pos + 1, prevTs := true, ts := tsReplaceLow d.ts b }

/-- DEC_NEXT on the decoder (R145): it looks at no more bytes than are left. -/
def Decoder.next (d : Decoder) : Answer (Option Byte × Decoder) := d.nextWithin (d.len - d.pos)

/-! ### The transmit engine -/

/-- Slot `s` of the engine. -/
def Transmit.slot (t : Transmit) : TxIx → TxSlot
  | .zero => t.slot0
  | .one => t.slot1

/-- The engine with another slot `s`. -/
def Transmit.setSlot (t : Transmit) (s : TxIx) (sl : TxSlot) : Transmit :=
  match s with
  | .zero => { t with slot0 := sl }
  | .one => { t with slot1 := sl }

/-- The engine with slot `s` in another state. -/
def Transmit.setStatus (t : Transmit) (s : TxIx) (st : SlotStatus) : Transmit :=
  t.setSlot s { t.slot s with st := st }

/-- Slot `s` becomes InFlight and its bytes are lent to the backend with the start event (R70, R110). -/
def Transmit.start (ctx : Ctx) (s : TxIx) (t : Transmit) : Answer (Transmit × List Event) :=
  andThen (readAll (.tx s) (t.slot s).buf (slotAddrs 0 (t.slot s).size)) fun data =>
    .next (t.setStatus s .inFlight, [.txStart ctx s (t.slot s).size data])

/-- The `timer_cancel` of R172: only while the timer is armed. -/
def Transmit.cancelEvents (t : Transmit) : List Event := if t.timer then [.timerCancel] else []

/-- `tx_flush(s, ctx)` of R172: slot `s` leaves Filling. -/
def Transmit.flush (ctx : Ctx) (s : TxIx) (t : Transmit) : Answer (Transmit × List Event) :=
  let t1 : Transmit := { t with timer := false, active := s.other }
  if (t.slot s.other).st = .inFlight then .next (t1.setStatus s .pending, t.cancelEvents)
  else andThen (t1.start ctx s) fun r => .next (r.1, t.cancelEvents ++ r.2)

/-- The offset of the next Message in the slot that takes it: a Free slot enters Filling at size 0 (R174, R34). -/
def TxSlot.fillSize (sl : TxSlot) : Nat := if sl.st = .free then 0 else sl.size

/-- The slot with one more Message (R174). -/
def TxSlot.appended (sl : TxSlot) (m : Message) : TxSlot where
  buf := writeAll sl.buf (slotAddrs sl.fillSize msgBytes) m.bytes
  size := sl.fillSize + msgBytes
  st := .filling

/-- `tx_append(msg)` of R174: none where it answers blocked, which changes nothing. -/
def Transmit.append (p : Params) (m : Message) (t : Transmit) : Answer (Option (Transmit × List Event)) :=
  let sl := t.slot t.active
  if sl.st.busy then .next none
  else if p.pktBytes < sl.fillSize + msgBytes then .fault (.outsideSlot (.tx t.active) sl.fillSize)
  else
    let t1 := t.setSlot t.active (sl.appended m)
    if sl.fillSize + msgBytes = p.pktBytes then
      andThen (t1.flush .ordinary t.active) fun r => .next (some r)
    else if sl.fillSize = 0 then .next (some ({ t1 with timer := true }, [.timerArm]))
    else .next (some (t1, []))

/-- TX_SEND_NOW on the engine (R183). -/
def Transmit.sendNow (p : Params) (t : Transmit) : Answer (Transmit × List Event) :=
  let s := t.active
  if (t.slot s).st = .filling then t.flush .ordinary s
  else if (t.slot s).st = .free ∧ p.txSendEmpty = true then
    (t.setSlot s { t.slot s with st := .filling, size := 0 }).flush .ordinary s
  else .next (t, [])

/-- TX_TIMEOUT on the engine (R186). -/
def Transmit.timeout (t : Transmit) : Answer (Transmit × List Event) :=
  if t.timer = false then .next (t, [])
  else Transmit.flush .timer t.active { t with timer := false }

/-- The slot that is InFlight, if there is one (R39 (a): there is at most one). -/
def Transmit.inFlightSlot (t : Transmit) : Option TxIx :=
  if t.slot0.st = .inFlight then some .zero else if t.slot1.st = .inFlight then some .one else none

/-- The engine once the transfer of slot `s` is over (R188): the failure is counted, the slot is freed. -/
def Transmit.freed (ok : Bool) (s : TxIx) (t : Transmit) : Transmit :=
  { t.setSlot s { t.slot s with st := .free, size := 0 } with err := if ok then t.err else t.err + 1 }

/-- TX_COMPLETE on the engine (R188, R189). -/
def Transmit.complete (ok : Bool) (t : Transmit) : Answer (Transmit × List Event) :=
  match t.inFlightSlot with
  | none => .refused .strayTxCompletion
  | some s =>
    let t1 := t.freed ok s
    if (t1.slot s.other).st = .pending then t1.start .interrupt s.other else .next (t1, [])

/-! ### The receive engine -/

/-- `RXB.start(ctx, s)`: slot `s` is lent to the backend; its bytes have no value while it is (R70; log 11). -/
def Receive.start (ctx : Ctx) (s : Nat) (r : Receive) : Receive × List Event :=
  ({ r with slots := r.slots.modify s (fun sl => { sl with buf := [] }) }, [.rxStart ctx s])

/-- RX_BEGIN on the engine (R201). -/
def Receive.begin (p : Params) (r : Receive) : Receive × List Event :=
  if r.busy = true ∨ r.avail = p.rxNslots then (r, [])
  else Receive.start .ordinary r.widx { r with busy := true }

/-- Slot `s` has been fully drained (R205, R207): it is free, and reception restarts if the engine was idle. -/
def Receive.drained (p : Params) (s : Nat) (sl : RxSlot) (r : Receive) : Receive × List Event :=
  let r1 : Receive :=
    { r with slots := r.slots.set s { sl with off := 0, size := 0 }, ridx := (s + 1) % p.rxNslots, avail := r.avail - 1 }
  if r.busy then (r1, []) else Receive.start .ordinary r1.widx { r1 with busy := true }

/-- RX_READ on the engine (R205, R206). -/
def Receive.read (p : Params) (r : Receive) : Answer (Option Message × (Receive × List Event)) :=
  if r.avail = 0 then .next (none, (r, []))
  else
    match r.slots[r.ridx]? with
    | none => .fault (.noSlot r.ridx)
    | some sl =>
      andThen (readMessage (.rx r.ridx) sl.buf sl.off) fun m =>
        if sl.off + msgBytes = sl.size then .next (some m, r.drained p r.ridx sl)
        else .next (some m, ({ r with slots := r.slots.set r.ridx { sl with off := sl.off + msgBytes } }, []))

/-- A slot that holds a completed packet (R208). -/
def RxSlot.filled (sl : RxSlot) (data : List Byte) : RxSlot where
  buf := writeAll sl.buf (slotAddrs 0 data.length) data
  size := wholeMessageBytes data.length
  off := 0

/-- The slots, indices and count once a packet has been stored in `sl`, slot rx_widx (R208). -/
def Receive.stored (p : Params) (data : List Byte) (sl : RxSlot) (r : Receive) : Receive :=
  { r with slots := r.slots.set r.widx (sl.filled data), widx := (r.widx + 1) % p.rxNslots, avail := r.avail + 1 }

/-- RX_COMPLETE on the engine (R208 to R211, R213). -/
def Receive.complete (p : Params) (ok : Bool) (data : List Byte) (r : Receive) : Answer (Receive × List Event) :=
  if r.busy = false then .refused .strayRxCompletion
  else if p.pktBytes < data.length then .refused .receiveTooLong
  else if ok = false then .next (Receive.start .interrupt r.widx { r with err := r.err + 1 })
  else if wholeMessageBytes data.length = 0 then .next (r.start .interrupt r.widx)
  else
    match r.slots[r.widx]? with
    | none => .fault (.noSlot r.widx)
    | some sl =>
      let r1 := r.stored p data sl
      if r1.avail < p.rxNslots then .next (r1.start .interrupt r1.widx) else .next ({ r1 with busy := false }, [])

end Sys2Proof.Machine
end

