-- ==== Sys2Proof/Machine/Codec.lean ====
section
/-! DEFINITION. The meanings of the BLE Frame Codec's and the reassembler's operations, 41_ble_codec.md. -/

namespace Sys2Proof.Machine

/-- DEC_LOAD (R141 to R144). -/
def execDecLoad (pkt : List Byte) (s : State) : Answer State :=
  let d := s.dec.load s.params pkt
  .next ((s.withDec d).respond .cod (.loaded d.ok))

/-- DEC_NEXT (R145 to R147). -/
def execDecNext (s : State) : Answer State :=
  andThen s.dec.next fun x => .next ((s.withDec x.2).respond .cod (.nextByte x.1))

/-- DEC_TS (R150): a pure read. -/
def execDecTs (s : State) : Answer State := .next (s.respond .cod (.timestamp s.dec.ts))

/-- The bytes of a fragment that `rsm_buf` still has room for behind `len` joined ones (R153 (a)). -/
def roomFor (p : Params) (len : Nat) (fragment : List Byte) : List Byte := fragment.take (p.blePktMax - len)

/-- `rsm_buf` with a fragment joined at `len` (R152): what does not fit is not stored (R153 (a)). -/
def joinFragment (p : Params) (len : Nat) (fragment : List Byte) (m : Memory) : Memory :=
  let stored := roomFor p len fragment
  writeAll m (slotAddrs len stored.length) stored

/-- The first pop of RSM_FETCH has answered a Packet: it is staged, and the fetch goes on (R152, step 1). -/
def stagePacket (x : Popped) (s : State) : State :=
  { (s.withRb x.ring).withFetch (some ⟨x.out.length, x.more⟩) with
    rsmBuf := joinFragment s.params 0 x.out [] }

/-- RSM_FETCH, step 1 (R152): an empty ring ends it at once with no state change; a Continuation is refused (R153 (b)); a
Packet is staged and steps 2 and 3 are the consumer's next turns. -/
def execRsmFetch (s : State) : Answer State :=
  asConsumer s <|
    andThen (s.rb.pop s.params) fun x =>
      match x.tag with
      | .none => .next (s.respond .rbc (.fetched false false))
      | .continuation => .refused .mixedConsumer
      | .packet => .next (stagePacket x s)

/-- RSM_FETCH, step 2 (R152): the Continuation is popped and joined. Another tag is outside R131. -/
def fetchContinuation (f : FetchProgress) (s : State) : Answer State :=
  andThen (s.rb.pop s.params) fun x =>
    match x.tag with
    | .continuation =>
      .next { (s.withRb x.ring).withFetch (some ⟨f.len + x.out.length, false⟩) with
        rsmBuf := joinFragment s.params f.len x.out s.rsmBuf }
    | .packet => .refused .notStraddling
    | .none => .refused .notStraddling

/-- The decoder once the joined record is loaded: a joined length above BLE_PKT_MAX is too long (R143, R153 (a)). -/
def loadJoined (f : FetchProgress) (s : State) : Answer Decoder :=
  if s.params.blePktMax < f.len then .next s.dec.tooLong
  else andThen (readAll .rsm s.rsmBuf (slotAddrs 0 f.len)) fun pkt => .next (s.dec.load s.params pkt)

/-- RSM_FETCH, step 3 (R152): DEC_LOAD of the joined record, and the answer; `rsm_buf` is unspecified again (R32, log 13). -/
def fetchLoad (f : FetchProgress) (s : State) : Answer State :=
  andThen (loadJoined f s) fun d =>
    .next ({ (s.withDec d).withFetch none with rsmBuf := [] }.respond .rbc (.fetched true d.ok))

/-- The ring consumer's next step inside a RSM_FETCH. -/
def continueFetch (f : FetchProgress) (s : State) : Answer State :=
  if f.more then fetchContinuation f s else fetchLoad f s

/-- The body of an encoded packet (R160): a timestamp byte before every status byte that does not follow one. -/
def encodeBody (tl : Byte) : Bool → List Byte → List Byte
  | _, [] => []
  | f, b :: rest =>
    if hiBit b = false then b :: encodeBody tl f rest
    else if f then b :: encodeBody tl false rest
    else tl :: b :: encodeBody tl false rest

/-- The packet of R160 for a byte string that is not empty. -/
def encodePacket (sh : TsShift) (ts : Timestamp) (bytes : List Byte) : List Byte :=
  let tl := timestampByte ts
  match bytes with
  | [] => []
  | b :: _ =>
    if hiBit b then headerByte sh ts :: tl :: encodeBody tl true bytes
    else headerByte sh ts :: encodeBody tl false bytes

/-- What BLE_ENC answers (R160, R162): none where it declines. -/
def encodeAnswer (p : Params) (ts : Timestamp) (bytes : List Byte) : Option (List Byte) :=
  if bytes = [] then none
  else if p.blePktMax < (encodePacket p.tsHiShift ts bytes).length then none
  else some (encodePacket p.tsHiShift ts bytes)

/-- BLE_ENC (R160 to R162): it has no state. -/
def execBleEnc (ts : Timestamp) (bytes : List Byte) (s : State) : Answer State :=
  .next (s.respond .cod (.encoded (encodeAnswer s.params ts bytes)))

end Sys2Proof.Machine
end

