-- ==== Sys2Proof/Machine/Receive.lean ====
section
/-! DEFINITION. The meanings of the USB Bulk Receive Engine's operations, 43_usb_rx.md. -/

namespace Sys2Proof.Machine

/-- RX_BEGIN (R201). -/
def execRxBegin (s : State) : Answer State := .next (s.withRx (s.rx.begin s.params))

/-- RX_READ (R205 to R207). -/
def execRxRead (s : State) : Answer State :=
  andThen (s.rx.read s.params) fun x => .next ((s.withRx x.2).respond .rxf (.message x.1))

/-- RX_ERRCNT (R212): a pure read. -/
def execRxErrcnt (s : State) : Answer State := .next (s.respond .rxf (.errorCount s.rx.err))

/-- RX_COMPLETE (R208 to R211, R213). -/
def execRxComplete (ok : Bool) (data : List Byte) (s : State) : Answer State :=
  andThen (s.rx.complete s.params ok data) fun x => .next (s.withRx x)

end Sys2Proof.Machine
end

