-- ==== Sys2Proof/Machine/Ring.lean ====
section
/-! DEFINITION. The meanings of the Chunked Ring Buffer's operations, 40_ring_buffer.md. -/

namespace Sys2Proof.Machine

/-- RB_PUSH (R122 to R124): a view that does not fit is declined with no side effect. -/
def execRbPush (view : List Byte) (s : State) : Answer State :=
  match s.rb.push s.params view with
  | none => .next (s.respond .rbp (.pushed false))
  | some r => .next ((s.withRb r).respond .rbp (.pushed true))

/-- RB_POP (R125 to R129). -/
def execRbPop (s : State) : Answer State :=
  asConsumer s <|
    andThen (s.rb.pop s.params) fun x =>
      .next ((s.withRb x.ring).respond .rbc (.popped x.tag x.more x.out))

end Sys2Proof.Machine
end

