-- ==== Sys2Proof/Machine/System.lean ====
section
/-! DEFINITION. The meaning of RESET, 70_reset_and_hazards.md. -/

namespace Sys2Proof.Machine

/-- Every state variable at its reset value, the five memories unspecified, no outward event; the parameters and the
environment stay (R250, R49). -/
def State.constructed (s : State) : State :=
  { State.resetWith s.params with io := { s.io with live := true, fetch := none, write := none } }

/-- RESET (R250, R251): legal at power-on, and afterwards only while the block is idle; a block whose parameters R6 forbids
is refused (log 7, log 24). -/
def execReset (s : State) : Answer State :=
  if s.params.wf = false then .refused .badParameters
  else if s.io.live = true ∧ s.idle = false then .refused .resetNotIdle
  else .next s.constructed

end Sys2Proof.Machine
end

