-- ==== Sys2Proof/Machine/Transmit.lean ====
section
/-! DEFINITION. The meanings of the USB Bulk Transmit Engine's operations, 42_usb_tx.md. -/

namespace Sys2Proof.Machine

/-- A TX_WRITE or TX_WRITE_NB ends; the latter answers the count accepted (R107, R180). -/
def finishWrite (w : WriteProgress) (s : State) : State :=
  if w.blocking then s.withWrite none
  else (s.withWrite none).respond .txf (.accepted w.accepted)

/-- One more Message has been accepted: the operation goes on, or ends with its last Message (R176, R180). -/
def acceptedOne (w : WriteProgress) (s : State) : State :=
  match w.rest with
  | [] => finishWrite w s
  | _ :: _ => s.withWrite (some w)

/-- One step of a TX_WRITE or TX_WRITE_NB (R75): `tx_append` of its next Message. A TX_WRITE that finds no slot holds, with
nothing changed but that it is in progress (R177, R178); a TX_WRITE_NB ends with the count so far (R180). -/
def writeStep (w : WriteProgress) (s : State) : Answer State :=
  match w.rest with
  | [] => .next (finishWrite w s)
  | m :: ms =>
    andThen (s.tx.append s.params m) fun r =>
      match r with
      | some x => .next (acceptedOne { w with rest := ms, accepted := w.accepted + 1 } (s.withTx x))
      | none => if w.blocking then .next (s.withWrite (some w)) else .next (finishWrite w s)

/-- TX_WRITE, its first step (R176): one issued from context (b) is refused (R194). -/
def execTxWrite (msgs : List Message) (s : State) : Answer State :=
  asForeground s <|
    if s.io.caller = .ordinary then writeStep ⟨true, msgs, 0⟩ s else .refused .writeInCompletionContext

/-- TX_WRITE_NB, its first step (R180). -/
def execTxWriteNb (msgs : List Message) (s : State) : Answer State :=
  asForeground s <| writeStep ⟨false, msgs, 0⟩ s

/-- TX_SEND_NOW (R183). -/
def execTxSendNow (s : State) : Answer State :=
  asForeground s <| andThen (s.tx.sendNow s.params) fun x => .next (s.withTx x)

/-- TX_IS_DONE (R185): a pure read. -/
def execTxIsDone (s : State) : Answer State :=
  asForeground s <| .next (s.respond .txf (.done s.tx.isDone))

/-- TX_ERRCNT (R192): a pure read. -/
def execTxErrcnt (s : State) : Answer State :=
  asForeground s <| .next (s.respond .txf (.errorCount s.tx.err))

/-- TX_TIMEOUT (R186). -/
def execTxTimeout (s : State) : Answer State := andThen s.tx.timeout fun x => .next (s.withTx x)

/-- TX_COMPLETE (R188, R189). -/
def execTxComplete (ok : Bool) (s : State) : Answer State := andThen (s.tx.complete ok) fun x => .next (s.withTx x)

end Sys2Proof.Machine
end

