-- ==== Sys2Proof/Machine/Dispatch.lean ====
section
/-! DEFINITION. One arm per operation. -/

namespace Sys2Proof.Machine

def exec (i : Instr) (s : State) : Host.Outcome State Fault Refusal :=
  match i with
  | .rbPush view => Sys2Proof.Machine.execRbPush view s
  | .rbPop => Sys2Proof.Machine.execRbPop s
  | .decLoad pkt => Sys2Proof.Machine.execDecLoad pkt s
  | .decNext => Sys2Proof.Machine.execDecNext s
  | .decTs => Sys2Proof.Machine.execDecTs s
  | .rsmFetch => Sys2Proof.Machine.execRsmFetch s
  | .bleEnc ts bytes => Sys2Proof.Machine.execBleEnc ts bytes s
  | .txWrite msgs => Sys2Proof.Machine.execTxWrite msgs s
  | .txWriteNb msgs => Sys2Proof.Machine.execTxWriteNb msgs s
  | .txSendNow => Sys2Proof.Machine.execTxSendNow s
  | .txIsDone => Sys2Proof.Machine.execTxIsDone s
  | .txErrcnt => Sys2Proof.Machine.execTxErrcnt s
  | .txTimeout => Sys2Proof.Machine.execTxTimeout s
  | .txComplete ok => Sys2Proof.Machine.execTxComplete ok s
  | .rxBegin => Sys2Proof.Machine.execRxBegin s
  | .rxRead => Sys2Proof.Machine.execRxRead s
  | .rxErrcnt => Sys2Proof.Machine.execRxErrcnt s
  | .rxComplete ok data => Sys2Proof.Machine.execRxComplete ok data s
  | .reset => Sys2Proof.Machine.execReset s

end Sys2Proof.Machine
end

