-- ==== Sys2Proof/Machine/Agents.lean ====
section
/-! DEFINITION. One step of the block: the agent whose turn it is continues the operation it is inside, or issues its next
command word (R75, R230, R232; log 3, log 9, log 25). The command interface answers a refused input 0xEE (R111, R243). -/

namespace Sys2Proof.Machine

/-- Agent `a` is inside an operation that spans several steps (R75). -/
def State.inside (s : State) (a : Agent) : Bool :=
  match a with
  | .ringConsumer => s.io.live && s.io.fetch.isSome
  | .txForeground => s.io.live && s.io.write.isSome
  | .ringProducer => false
  | .codecUser => false
  | .flushTimer => false
  | .txCompletion => false
  | .rxForeground => false
  | .rxCompletion => false
  | .integrator => false

/-- The next step of the operation agent `a` is inside: a RSM_FETCH (R152) or a write (R176, R180). -/
def continueOperation (a : Agent) (s : State) : Answer State :=
  match a, s.io.fetch, s.io.write with
  | .ringConsumer, some f, _ => continueFetch f s
  | .txForeground, _, some w => writeStep w s
  | _, _, _ => .next s

/-- The outcome of an operation at the command interface: a refusal of R243 is answered 0xEE on the port the word came on, from
the state `s` in which it was issued (log 5). -/
def settle (p : Port) (s : State) (o : Answer State) : Answer State :=
  match o with
  | .next t => .next t
  | .fault r => .fault r
  | .refused r => if r.answered then .next (s.refuse p r) else .refused r

/-- A command word arrives on port `p` (R104, R111): it is decoded, must be an operation of that port (R103; log 6), and
before the first RESET nothing but RESET has a meaning (R250). Which agent of the port issued it, and from which context, is not
tested: on TXB, which two agents share, either may issue either operation (DESIGN CHOICE, log 26). -/
def serve (p : Port) (word : List Byte) (s : State) : Answer State :=
  match decode word with
  | .error e => .next (s.refuse p (.badWord e))
  | .ok i =>
    if i.port ≠ p then .next (s.refuse p .wrongPort)
    else if s.io.live = false ∧ i ≠ .reset then .next (s.refuse p .notConstructed)
    else settle p s (exec i s)

/-- The next command of agent `a`. -/
def State.nextCommand (s : State) (a : Agent) : Option Command := s.io.inbox.find? (fun c => decide (c.agent = a))

/-- The state in which agent `a` issues the command `c`: it has left the inbox and its context is the caller's. -/
def State.issuing (s : State) (a : Agent) (c : Command) : State :=
  { s with io := { s.io with inbox := s.io.inbox.eraseP (fun c => decide (c.agent = a)), caller := c.ctx } }

/-- Agent `a` takes a step. -/
def actAs (a : Agent) (s : State) : Answer State :=
  if s.inside a then continueOperation a s
  else
    match s.nextCommand a with
    | none => .next s
    | some c => serve a.port c.word (s.issuing a c)

/-- The step of the agent whose turn it is; with no turn left the environment asks nothing of the block. -/
def takeTurn (s : State) : Answer State :=
  match s.io.turns with
  | [] => .next s
  | a :: rest => actAs a { s with io := { s.io with turns := rest } }

/-- The agent that a table word's operation belongs to; a word that is none is given to the ring producer. -/
def wordAgent (word : List Byte) : Agent :=
  match decode word with
  | .ok i => i.agent
  | .error _ => .ringProducer

/-- The state whose very next step serves `word`: its agent has the next turn, the word is its next command, it is not inside
an operation, and the block has been constructed (log 20). -/
def placeWord (word : List Byte) (s : State) : State :=
  let a := wordAgent word
  { s with io :=
    { s.io with
      live := true
      fetch := if a = .ringConsumer then none else s.io.fetch
      write := if a = .txForeground then none else s.io.write
      turns := a :: s.io.turns
      inbox := ⟨a, a.ctx, word⟩ :: s.io.inbox } }

end Sys2Proof.Machine
end

