-- ==== Sys2Proof/Machine/Step.lean ====
section
/-! DEFINITION. The step of the machine, and the placing of one command word where the step takes its next one. -/

namespace Sys2Proof.Machine

/-- One step of the block (R75, R232). -/
def step (s : State) : Host.Outcome State Fault Refusal := takeTurn s

/-- The state whose very next step serves the command word whose bits are `w` (log 20). -/
def State.withFetchWord (s : State) (nbits w : Nat) : State := placeWord (tableWord nbits w) s

end Sys2Proof.Machine
end

