-- ==== Sys2Proof/Safety.lean ====
section
/-! DEFINITION. What a sound state is: the invariants the spec states of each unit (R26, R28, R39, R47), the canonical form of
every memory, and that the bytes the rules read have been written (R252). And the terms in which claims about more
than one step are stated: what the ring, the engines and the decoder hold, as sequences. -/

namespace Sys2Proof.Machine

/-- A memory of `size` bytes: canonical, and no byte outside it. -/
def Memory.within (m : Memory) (size : Nat) : Prop := m.wf ∧ ∀ c ∈ m, c.1 < size

/-- The bytes at offsets 0 to n-1 have been written. -/
def Memory.written (m : Memory) (n : Nat) : Prop := ∀ a < n, (m.read a).isSome = true

/-! ### The ring -/

/-- The bytes at the addresses, if all have been written. -/
def Memory.bytesAt (m : Memory) (addrs : List Nat) : Option (List Byte) := addrs.mapM m.read

/-- Read records from offset `t` until `left` occupied bytes are accounted for, each padded size added to the offset modulo
RB_CAP (R26 (d), R90, R94): the payloads in order, or none where the bytes are no sequence of records. `fuel` bounds the number
of records. -/
def walkRecords (cap : Nat) (m : Memory) : (fuel t left : Nat) → Option (List (List Byte))
  | 0, _, left => if left = 0 then some [] else none
  | fuel + 1, t, left =>
    if left = 0 then some []
    else
      match m.bytesAt (ringAddrs cap t hdrBytes) with
      | some [b0, b1] =>
        let len := le16 b0 b1
        if left < psize len then none
        else
          match m.bytesAt (ringAddrs cap (t + hdrBytes) len) with
          | some view =>
            match walkRecords cap m fuel ((t + psize len) % cap) (left - psize len) with
            | some rest => some (view :: rest)
            | none => none
          | none => none
      | _ => none

/-- The views pushed and not yet fully popped, oldest first; none where the occupied region is no sequence of records. -/
def Ring.records (p : Params) (r : Ring) : Option (List (List Byte)) :=
  walkRecords p.rbCap r.mem r.occ r.tail r.occ

/-- R21 to R26. -/
structure Ring.Sound (p : Params) (r : Ring) : Prop where
  /-- "occupied ≤ N", R26 (a) -/
  occ_le : r.occ ≤ p.rbCap
  /-- R22 -/
  tail_lt : r.tail < p.rbCap
  /-- R26 (b) -/
  head_eq : r.head = (r.tail + r.occ) % p.rbCap
  /-- R26 (c) -/
  tail_even : r.tail % 2 = 0
  /-- R26 (c) -/
  occ_even : r.occ % 2 = 0
  /-- "head/tail always sit at record-header boundaries", R26 (d) -/
  records_some : (r.records p).isSome = true
  /-- R26 (e) -/
  cont_straddles : r.cont = true →
    0 < r.occ ∧ ∃ v rest, r.records p = some (v :: rest) ∧ straddles p r.tail v.length = true
  /-- R60 -/
  mem_within : r.mem.within p.rbCap

/-! ### The decoder -/

/-- R27, R28, R252. -/
structure Decoder.Sound (p : Params) (d : Decoder) : Prop where
  len_le : d.len ≤ p.blePktMax
  pos_le : d.pos ≤ d.len
  written : d.buf.written d.len
  buf_within : d.buf.within p.blePktMax

/-! ### The transmit engine -/

/-- One transmit slot: R34, and its bytes below `tx_size` have been written (R252). -/
structure TxSlot.Sound (p : Params) (sl : TxSlot) : Prop where
  size_le : sl.size ≤ p.pktBytes
  size_mult : sl.size % msgBytes = 0
  /-- R39 (g) -/
  free_empty : sl.st = .free → sl.size = 0
  written : sl.buf.written sl.size
  buf_within : sl.buf.within p.pktBytes

/-- R39. -/
structure Transmit.Sound (p : Params) (t : Transmit) : Prop where
  slot_sound : ∀ i, (t.slot i).Sound p
  /-- R39 (a): at most one slot is InFlight -/
  one_inFlight : ∀ i, (t.slot i).st = .inFlight → (t.slot i.other).st ≠ .inFlight
  /-- R39 (c), and so at most one is Pending -/
  pending_waits : ∀ i, (t.slot i).st = .pending → (t.slot i.other).st = .inFlight
  /-- R39 (d), and a full slot has left Filling (R174) -/
  filling_active : ∀ i, (t.slot i).st = .filling →
    i = t.active ∧ msgBytes ≤ (t.slot i).size ∧ (t.slot i).size < p.pktBytes
  /-- R39 (e), with the order R178 derives: a busy active slot is the InFlight one, and the other, flushed last, is Pending -/
  active_open : (t.slot t.active).st.busy = true →
    (t.slot t.active).st = .inFlight ∧ (t.slot t.active.other).st = .pending
  /-- R39 (f) -/
  timer_filling : t.timer = true → (t.slot t.active).st = .filling

/-! ### The receive engine -/

/-- Slot `s` is one of the `rx_avail` available ones, counted from `rx_ridx` (R47 (d)). -/
def Receive.available (p : Params) (r : Receive) (s : Nat) : Prop :=
  ∃ j, j < r.avail ∧ s = (r.ridx + j) % p.rxNslots

/-- R41, R42 and R252 of an available slot. -/
structure RxSlot.Available (sl : RxSlot) : Prop where
  off_lt : sl.off < sl.size
  size_mult : sl.size % msgBytes = 0
  off_mult : sl.off % msgBytes = 0
  written : sl.buf.written sl.size

/-- R40 to R47. -/
structure Receive.Sound (p : Params) (r : Receive) : Prop where
  slots_length : r.slots.length = p.rxNslots
  ridx_lt : r.ridx < p.rxNslots
  /-- R47 (a) -/
  widx_eq : r.widx = (r.ridx + r.avail) % p.rxNslots
  /-- "available-count never exceeds N", R43 -/
  avail_le : r.avail ≤ p.rxNslots
  /-- R47 (c) -/
  busy_free : r.busy = true → r.avail < p.rxNslots
  /-- R47 (d): an available slot holds data -/
  available_sound : ∀ (s : Nat) (sl : RxSlot), r.slots[s]? = some sl → r.available p s → sl.Available ∧ (s ≠ r.ridx → sl.off = 0)
  /-- R47 (d), (e): any other holds none -/
  rest_empty : ∀ (s : Nat) (sl : RxSlot), r.slots[s]? = some sl → ¬ r.available p s → sl.size = 0 ∧ sl.off = 0
  size_le : ∀ (s : Nat) (sl : RxSlot), r.slots[s]? = some sl → sl.size ≤ p.pktBytes
  buf_within : ∀ (s : Nat) (sl : RxSlot), r.slots[s]? = some sl → sl.buf.within p.pktBytes

/-! ### The machine -/

/-- A RSM_FETCH in progress: what it has joined is staged in `rsm_buf` as far as it fits (R153 (a)), and the Continuation it is
to pop is due (R131). -/
structure State.FetchSound (s : State) : Prop where
  staged : ∀ f, s.io.fetch = some f → s.rsmBuf.written (min f.len s.params.blePktMax)
  due : ∀ f, s.io.fetch = some f → f.more = true → s.rb.cont = true
  rsm_within : s.rsmBuf.within s.params.blePktMax

/-- A sound state of the constructed block. -/
structure State.Sound (s : State) : Prop where
  params_wf : s.params.wf = true
  rb_sound : s.rb.Sound s.params
  dec_sound : s.dec.Sound s.params
  tx_sound : s.tx.Sound s.params
  rx_sound : s.rx.Sound s.params
  fetch_sound : s.FetchSound

/-- The invariant: once the first RESET has been issued, the state is sound (before it, every variable is unspecified,
R250). -/
def State.Inv (s : State) : Prop := s.io.live = true → s.Sound

/-! ### What claims over more than one step speak of -/

/-- The bytes of the transfers started so far, in the order of their `TXB.start` events (R110, R191). -/
def startedBytes : List Output → List Byte
  | [] => []
  | .event (.txStart _ _ _ data) :: rest => data ++ startedBytes rest
  | _ :: rest => startedBytes rest

/-- The bytes of a slot that holds Messages not yet handed to the backend: state `st`. -/
def TxSlot.heldIn (sl : TxSlot) (st : SlotStatus) : List Byte :=
  if sl.st = st then (sl.buf.bytesAt (slotAddrs 0 sl.size)).getD [] else []

/-- The bytes accepted and not yet started, oldest first: those of the Pending slot, then those of the Filling one. -/
def Transmit.backlog (t : Transmit) : List Byte :=
  t.slot0.heldIn .pending ++ t.slot1.heldIn .pending ++ (t.slot0.heldIn .filling ++ t.slot1.heldIn .filling)

/-- Everything accepted since the outbox was empty, in the order in which the backend has seen it and will see it (R191). -/
def State.txStream (s : State) : List Byte := startedBytes s.io.outbox ++ s.tx.backlog

/-- The bytes an operation adds to the stream when it is executed: those of the first Message of a write, unless both slots are
busy (R174). The other Messages of a write are accepted in later steps (R75). -/
def acceptedBytes (i : Instr) (t : Transmit) : List Byte :=
  if (t.slot t.active).st.busy then []
  else
    match i with
    | .txWrite (m :: _) => m.bytes
    | .txWriteNb (m :: _) => m.bytes
    | _ => []

/-- How many Messages the engine can accept before a completion (R174, R177): what is left of the active slot, and the whole
other slot if it is Free. -/
def Transmit.room (p : Params) (t : Transmit) : Nat :=
  if (t.slot t.active).st.busy then 0
  else p.msgsPerPkt - (t.slot t.active).fillSize / msgBytes + (if (t.slot t.active.other).st = .free then p.msgsPerPkt else 0)

/-- The unread bytes of one receive slot: from its marker up to its size. -/
def RxSlot.unread (sl : RxSlot) : List Byte := (sl.buf.bytesAt (slotAddrs sl.off (sl.size - sl.off))).getD []

/-- The bytes received and not yet read, oldest first: the available slots from `rx_ridx` on (R203, R214). -/
def Receive.stream (p : Params) (r : Receive) : List Byte :=
  (List.range r.avail).flatMap fun j =>
    match r.slots[(r.ridx + j) % p.rxNslots]? with
    | some sl => sl.unread
    | none => []

/-- What successive DEC_NEXT answer until one answers valid = 0, at most `n` bytes (R147, R148); none where one stops or the
`n`th byte is not the last. -/
def Decoder.drain : Nat → Decoder → Option (List Byte × Decoder)
  | 0, _ => none
  | n + 1, d =>
    match d.next with
    | .next (none, d') => some ([], d')
    | .next (some b, d') =>
      match Decoder.drain n d' with
      | some (bs, d'') => some (b :: bs, d'')
      | none => none
    | .fault _ => none
    | .refused _ => none

/-- `n` turns of one agent, with nothing between them. -/
def turnsOf (a : Agent) : Nat → State → Answer State
  | 0, s => .next s
  | n + 1, s => andThen (actAs a s) (turnsOf a n)

end Sys2Proof.Machine
end

