-- ==== Sys2Proof/Certificates/Slice0/Obligations.lean ====
section
/-! DEFINITION. The statements about the model, from the numbered rules of the spec. Where a statement gives the next state by an
equation, the equation is also the operation's frame: every field it does not name is unchanged. -/

open Sys2Proof Sys2Proof.Machine

/-! ### Command words -/

/-- Words of 95_test_vectors.md sections 2 and 3 and of R104, one of each format, decode to the operations they stand for, and
words of its section 4 are refused by name (R104, R105, R106). -/
def Obligations.SpecWordsDecode : Prop :=
  decode [0x01#8, 0x05#8, 0x00#8, 0x85#8, 0x90#8, 0x90#8, 0x3C#8, 0x7F#8] =
      .ok (.rbPush [0x85#8, 0x90#8, 0x90#8, 0x3C#8, 0x7F#8]) ∧
  decode [0x13#8] = .ok .rsmFetch ∧
  decode [0x18#8, 0x23#8, 0x01#8, 0x02#8, 0x00#8, 0x41#8, 0xF7#8] = .ok (.bleEnc 0x0123#14 [0x41#8, 0xF7#8]) ∧
  decode [0x21#8, 0x01#8, 0x00#8, 0x09#8, 0x90#8, 0x05#8, 0x7F#8] =
      .ok (.txWriteNb [⟨0x09#8, 0x90#8, 0x05#8, 0x7F#8⟩]) ∧
  decode [0x29#8, 0x01#8] = .ok (.txComplete true) ∧
  decode [0x39#8, 0x01#8, 0x04#8, 0x00#8, 0x09#8, 0x90#8, 0x03#8, 0x7F#8] =
      .ok (.rxComplete true [0x09#8, 0x90#8, 0x03#8, 0x7F#8]) ∧
  decode [0xFF#8] = .ok .reset ∧
  decode [0x03#8] = .error (.unknownOpcode 0x03#8) ∧
  decode [0x29#8, 0x02#8] = .error .reservedBits ∧
  decode [0x18#8, 0x00#8, 0x40#8, 0x01#8, 0x00#8, 0x90#8] = .error .reservedBits ∧
  decode [0x01#8, 0x03#8, 0x00#8, 0x61#8, 0x62#8] = .error .lengthMismatch

/-- Decoding the word of a well-formed operation gives it back, with every operand (R104 to R106). -/
def Obligations.DecodeInvertsEncode : Prop :=
  ∀ i : Instr, i.wf = true → decode (encode i) = .ok i

/-- Every word has at most one meaning and every operation one word: a word that decodes is the encoding of a well-formed
operation (R104 to R106). That a word with bytes after its last field, or without all of its fields, is none is the model's choice
where R106 does not name it (log 27). -/
def Obligations.EncodeInvertsDecode : Prop :=
  ∀ (w : List Byte) (i : Instr), decode w = .ok i → encode i = w ∧ i.wf = true

/-- The response bytes of R107, for numbers their fields hold. -/
def Obligations.ResponseBytes : Prop :=
  (∀ (tag : Tag) (more : Bool) (out : List Byte), out.length < 65536 →
    (Response.popped tag more out).bytes =
      BitVec.ofNat 8 ((match tag with | .none => 0 | .packet => 1 | .continuation => 2) + (if more then 4 else 0)) ::
        BitVec.ofNat 8 out.length :: BitVec.ofNat 8 (out.length / 256) :: out) ∧
  (∀ pkt : List Byte, pkt.length < 65536 →
    (Response.encoded (some pkt)).bytes =
      1#8 :: BitVec.ofNat 8 pkt.length :: BitVec.ofNat 8 (pkt.length / 256) :: pkt) ∧
  (Response.encoded none).bytes = [0#8, 0#8, 0#8] ∧
  (∀ b : Bool, (Response.pushed b).bytes = [if b then 1#8 else 0#8] ∧
    (Response.loaded b).bytes = [if b then 1#8 else 0#8] ∧ (Response.done b).bytes = [if b then 1#8 else 0#8]) ∧
  (∀ b c : Bool, (Response.fetched b c).bytes = [if b then 1#8 else 0#8, if c then 1#8 else 0#8]) ∧
  (∀ b : Byte, (Response.nextByte (some b)).bytes = [1#8, b]) ∧
  (Response.nextByte none).bytes = [0#8, 0#8] ∧
  (∀ ts : Timestamp, (Response.timestamp ts).bytes = [BitVec.ofNat 8 ts.toNat, BitVec.ofNat 8 (ts.toNat / 256)]) ∧
  (∀ n, n < 65536 → (Response.accepted n).bytes = [BitVec.ofNat 8 n, BitVec.ofNat 8 (n / 256)]) ∧
  (∀ c : Counter, (Response.errorCount c).bytes =
    [BitVec.ofNat 8 c.toNat, BitVec.ofNat 8 (c.toNat / 256), BitVec.ofNat 8 (c.toNat / 65536),
      BitVec.ofNat 8 (c.toNat / 16777216)]) ∧
  (∀ m : Message, (Response.message (some m)).bytes = [1#8, m.b0, m.b1, m.b2, m.b3]) ∧
  (Response.message none).bytes = [0#8, 0#8, 0#8, 0#8, 0#8] ∧
  Response.refused.bytes = [0xEE#8]

/-- The bytes of the outward events of R110, for numbers their fields hold. -/
def Obligations.EventBytes : Prop :=
  (∀ (ctx : Ctx) (i : TxIx) (size : Nat) (data : List Byte), size < 65536 →
    (Event.txStart ctx i size data).bytes =
      0x80#8 :: (match ctx with | .ordinary => 0#8 | .timer => 1#8 | .interrupt => 2#8) ::
        (match i with | .zero => 0#8 | .one => 1#8) :: BitVec.ofNat 8 size :: BitVec.ofNat 8 (size / 256) :: data) ∧
  Event.timerArm.bytes = [0x81#8] ∧ Event.timerCancel.bytes = [0x82#8] ∧
  (∀ (ctx : Ctx) (i : Nat), i < 256 →
    (Event.rxStart ctx i).bytes =
      [0x88#8, match ctx with | .ordinary => 0#8 | .timer => 1#8 | .interrupt => 2#8, BitVec.ofNat 8 i])

/-! ### The ring -/

/-- The padded size (R92): header, payload and pad, even, at least 2, at most RB_CAP for a payload that can fit, and its
worked values. -/
def Obligations.PaddedSize : Prop :=
  (∀ len, psize len = 2 + len + len % 2 ∧ psize len % 2 = 0 ∧ 2 ≤ psize len ∧
    ∀ cap, cap % 2 = 0 → len + 2 ≤ cap → psize len ≤ cap) ∧
  psize 0 = 2 ∧ psize 1 = 4 ∧ psize 2 = 4 ∧ psize 5 = 8 ∧ psize 6 = 8

/-- RB_PUSH (R122, R123, R124): a record whose padded size is at most the free space is stored at rb_head, header first,
every byte modulo RB_CAP, and no other byte of the ring memory changes; any other push answers 0 and changes nothing. -/
def Obligations.PushStoresOrDeclines : Prop :=
  ∀ (s : State) (view : List Byte),
    let ps := 2 + view.length + view.length % 2
    (s.params.rbCap - s.rb.occ < ps → exec (.rbPush view) s = .next (s.respond .rbp (.pushed false))) ∧
    (ps ≤ s.params.rbCap - s.rb.occ →
      ∃ m : Memory,
        exec (.rbPush view) s =
          .next (({ s with rb := { s.rb with
            mem := m, head := (s.rb.head + ps) % s.params.rbCap, occ := s.rb.occ + ps } } : State).respond
              .rbp (.pushed true)) ∧
        m.read (s.rb.head % s.params.rbCap) = some (BitVec.ofNat 8 view.length) ∧
        m.read ((s.rb.head + 1) % s.params.rbCap) = some (BitVec.ofNat 8 (view.length / 256)) ∧
        (∀ (k : Nat) (h : k < view.length), m.read ((s.rb.head + 2 + k) % s.params.rbCap) = some view[k]) ∧
        (∀ a, (∀ j < view.length + 2, a ≠ (s.rb.head + j) % s.params.rbCap) → m.read a = s.rb.mem.read a))

/-- RB_POP (R127): None on an empty ring; the whole record where it is contiguous; the part before the physical end, with
rb_cont set and nothing released, where it straddles; then the rest, with its space released. -/
def Obligations.PopAnswersAndReleases : Prop :=
  ∀ s : State, s.io.fetch = none →
    (s.rb.occ = 0 → exec .rbPop s = .next (s.respond .rbc (.popped .none false []))) ∧
    ∀ (b0 b1 : Byte) (out : List Byte), s.rb.occ ≠ 0 →
      s.rb.mem.read (s.rb.tail % s.params.rbCap) = some b0 →
      s.rb.mem.read ((s.rb.tail + 1) % s.params.rbCap) = some b1 →
      let len := b0.toNat + 256 * b1.toNat
      let ps := 2 + len + len % 2
      let q := if s.rb.tail + 2 = s.params.rbCap ∧ s.params.rbSplitEmptyHead = false then 0 else s.rb.tail + 2
      let k := s.params.rbCap - q
      (s.rb.cont = false → q + len ≤ s.params.rbCap → out.length = len →
        (∀ (j : Nat) (h : j < out.length), s.rb.mem.read ((q + j) % s.params.rbCap) = some out[j]) →
        exec .rbPop s = .next (({ s with rb := { s.rb with
          tail := (s.rb.tail + ps) % s.params.rbCap, occ := s.rb.occ - ps } } : State).respond
            .rbc (.popped .packet false out))) ∧
      (s.rb.cont = false → s.params.rbCap < q + len → out.length = k →
        (∀ (j : Nat) (h : j < out.length), s.rb.mem.read ((q + j) % s.params.rbCap) = some out[j]) →
        exec .rbPop s = .next (({ s with rb := { s.rb with cont := true } } : State).respond
            .rbc (.popped .packet true out))) ∧
      (s.rb.cont = true → s.params.rbCap < q + len → out.length = len - k →
        (∀ (j : Nat) (h : j < out.length), s.rb.mem.read (j % s.params.rbCap) = some out[j]) →
        exec .rbPop s = .next (({ s with rb := { s.rb with
          tail := (s.rb.tail + ps) % s.params.rbCap, occ := s.rb.occ - ps, cont := false } } : State).respond
            .rbc (.popped .continuation false out)))

/-- Where RB_POP stops (R133, R49): a byte that nothing has written is a fault where it is read ("a model should fault if it does"),
be it the first byte of the header, its second, or a byte of the payload part that the pop returns; a continuation pending on a
record that does not straddle is refused. -/
def Obligations.PopStops : Prop :=
  ∀ s : State, s.io.fetch = none → s.rb.occ ≠ 0 →
    let h0 := s.rb.tail % s.params.rbCap
    let h1 := (s.rb.tail + 1) % s.params.rbCap
    (s.rb.mem.read h0 = none → exec .rbPop s = .fault (.unwritten .rb h0)) ∧
    ∀ b0 : Byte, s.rb.mem.read h0 = some b0 →
      (s.rb.mem.read h1 = none → exec .rbPop s = .fault (.unwritten .rb h1)) ∧
      ∀ b1 : Byte, s.rb.mem.read h1 = some b1 →
        let len := b0.toNat + 256 * b1.toNat
        let q := payloadStart s.params s.rb.tail
        let k := s.params.rbCap - q
        let start := if s.rb.cont then 0 else q
        let count := if s.rb.cont then len - k else min len k
        (s.rb.cont = true → q + len ≤ s.params.rbCap → exec .rbPop s = .refused .notStraddling) ∧
        ∀ j < count, (s.rb.cont = true → s.params.rbCap < q + len) →
          (∀ i < j, s.rb.mem.read ((start + i) % s.params.rbCap) ≠ none) →
          s.rb.mem.read ((start + j) % s.params.rbCap) = none →
          exec .rbPop s = .fault (.unwritten .rb ((start + j) % s.params.rbCap))

/-- The ring is a queue, producer's side (R130, R26): in a sound ring a push that fits appends its view to the records, one
that does not leaves them, and the ring stays sound. -/
def Obligations.PushAppendsRecord : Prop :=
  ∀ (s : State) (view : List Byte) (views : List (List Byte)),
    s.params.wf = true → s.rb.Sound s.params → s.rb.records s.params = some views →
    ∃ t, exec (.rbPush view) s = .next t ∧ t.rb.Sound s.params ∧
      t.rb.records s.params =
        some (if psize view.length ≤ s.params.rbCap - s.rb.occ then views ++ [view] else views)

/-- The ring is a queue, consumer's side (R126, R128 to R131): in a sound ring a pop answers None and changes nothing exactly
when there is no record; else it answers the oldest record whole, or its first part and then, with nothing released in between,
its rest; and the ring stays sound. -/
def Obligations.PopTakesOldestRecord : Prop :=
  ∀ (s : State) (views : List (List Byte)),
    s.params.wf = true → s.rb.Sound s.params → s.rb.records s.params = some views → s.io.fetch = none →
    ∃ t, exec .rbPop s = .next t ∧ t.rb.Sound s.params ∧
      (views = [] → t = s.respond .rbc (.popped .none false [])) ∧
      ∀ v rest, views = v :: rest →
        let k := s.params.rbCap - payloadStart s.params s.rb.tail
        (s.rb.cont = true → t.rb.records s.params = some rest ∧ t.rb.cont = false ∧
          t.io.outbox = s.io.outbox ++ [.response .rbc (.popped .continuation false (v.drop k))]) ∧
        (s.rb.cont = false → straddles s.params s.rb.tail v.length = true →
          t.rb = { s.rb with cont := true } ∧
          t.io.outbox = s.io.outbox ++ [.response .rbc (.popped .packet true (v.take k))]) ∧
        (s.rb.cont = false → straddles s.params s.rb.tail v.length = false →
          t.rb.records s.params = some rest ∧ t.rb.cont = false ∧
          t.io.outbox = s.io.outbox ++ [.response .rbc (.popped .packet false v)])

/-! ### The BLE codec and the reassembler -/

/-- DEC_LOAD of a well-formed packet (R141, R97, R100, R144): the packet is stored, the cursor stands behind the header and
the timestamp-low byte if there is one, the flag says whether there is one, and the timestamp is assembled from both. -/
def Obligations.LoadWellFormedPacket : Prop :=
  ∀ (s : State) (b0 b1 : Byte) (rest : List Byte),
    let pkt := b0 :: b1 :: rest
    let shift := if s.params.tsHiShift = .seven then 7 else 8
    pkt.length ≤ s.params.blePktMax → b0.getLsbD 7 = true →
    ∃ m : Memory,
      exec (.decLoad pkt) s = .next (({ s with dec :=
        { buf := m, len := pkt.length, pos := if b1.getLsbD 7 then 2 else 1, ok := true, prevTs := b1.getLsbD 7,
          ts := BitVec.ofNat 14
            ((b0.toNat % 64) * 2 ^ shift + if b1.getLsbD 7 then b1.toNat % 128 else 0) } } : State).respond
          .cod (.loaded true)) ∧
      (∀ (k : Nat) (h : k < pkt.length), m.read k = some pkt[k]) ∧
      (∀ a, pkt.length ≤ a → m.read a = s.dec.buf.read a)

/-- DEC_LOAD of a packet that is too short, has the header's bit 7 clear, or is longer than the store (R142, R143): it answers
0, touches nothing but the decoder, and every DEC_NEXT then answers "no byte available" and changes nothing. One longer than the
store leaves the store alone and dec_len 0. -/
def Obligations.LoadDiscardsMalformed : Prop :=
  ∀ (s : State) (pkt : List Byte),
    (pkt.length < 2 ∨ (∃ b0 rest, pkt = b0 :: rest ∧ b0.getLsbD 7 = false) ∨ s.params.blePktMax < pkt.length) →
    ∃ d : Decoder,
      exec (.decLoad pkt) s = .next (({ s with dec := d } : State).respond .cod (.loaded false)) ∧
      d.ok = false ∧ d.prevTs = false ∧ d.ts = 0 ∧ d.pos = d.len ∧
      (s.params.blePktMax < pkt.length → d.len = 0 ∧ d.buf = s.dec.buf) ∧
      ∀ t : State, t.dec = d → exec .decNext t = .next (t.respond .cod (.nextByte none))

/-- DEC_NEXT byte by byte (R145, R149): the end of the packet, a data byte, a status byte, and a timestamp byte, which is
consumed, replaces the low seven bits of the timestamp and lets the loop go on. -/
def Obligations.NextByteCases : Prop :=
  ∀ s : State,
    (s.dec.len ≤ s.dec.pos → exec .decNext s = .next (s.respond .cod (.nextByte none))) ∧
    ∀ b : Byte, s.dec.pos < s.dec.len → s.dec.buf.read s.dec.pos = some b →
      (b.getLsbD 7 = false →
        exec .decNext s = .next (({ s with dec := { s.dec with pos := s.dec.pos + 1 } } : State).respond
          .cod (.nextByte (some b)))) ∧
      (b.getLsbD 7 = true → s.dec.prevTs = true →
        exec .decNext s =
          .next (({ s with dec := { s.dec with pos := s.dec.pos + 1, prevTs := false } } : State).respond
            .cod (.nextByte (some b)))) ∧
      (b.getLsbD 7 = true → s.dec.prevTs = false →
        exec .decNext s = exec .decNext { s with dec := { s.dec with
          pos := s.dec.pos + 1, prevTs := true,
          ts := BitVec.ofNat 14 (s.dec.ts.toNat - s.dec.ts.toNat % 128 + b.toNat % 128) } })

/-- DEC_NEXT always answers where the packet is stored (R147, R28): it moves the cursor forward within the packet, writes
nothing but cursor, flag and timestamp, and once it has answered "no byte available" it does so for ever. -/
def Obligations.NextNeverMovesBack : Prop :=
  ∀ s : State, s.dec.buf.written s.dec.len →
    ∃ (b : Option Byte) (d : Decoder),
      exec .decNext s = .next (({ s with dec := d } : State).respond .cod (.nextByte b)) ∧
      d.buf = s.dec.buf ∧ d.len = s.dec.len ∧ d.ok = s.dec.ok ∧ s.dec.pos ≤ d.pos ∧
      (s.dec.pos ≤ s.dec.len → d.pos ≤ d.len) ∧ (b ≠ none → s.dec.pos < d.pos) ∧
      (b = none → ∀ t : State, t.dec = d → exec .decNext t = .next (t.respond .cod (.nextByte none)))

/-- The decoder is R99's role function run lazily (R99, R145, R148): from any state, loading a packet that fits the store and
pulling bytes until the end gives exactly the bytes whose role is status or data, in packet order, and none for a malformed
packet. -/
def Obligations.DecoderEmitsByRoles : Prop :=
  ∀ (s : State) (pkt : List Byte), pkt.length ≤ s.params.blePktMax →
    ∃ t d, exec (.decLoad pkt) s = .next t ∧
      t.dec.drain (pkt.length + 1) = some (midiBytes pkt, d) ∧ d.pos = d.len

/-- DEC_TS (R150) is a pure read of the running timestamp. -/
def Obligations.TimestampIsPureRead : Prop :=
  ∀ s : State, exec .decTs s = .next (s.respond .cod (.timestamp s.dec.ts)) ∧
    (Response.timestamp s.dec.ts).bytes = [BitVec.ofNat 8 s.dec.ts.toNat, BitVec.ofNat 8 (s.dec.ts.toNat / 256)]

/-- RSM_FETCH (R152, R153): on an empty ring it answers got = 0 with no state change; where a continuation is due its first pop
answers Continuation, and it is refused. -/
def Obligations.FetchEmptyOrMixed : Prop :=
  ∀ s : State, s.io.fetch = none →
    (s.rb.occ = 0 → exec .rsmFetch s = .next (s.respond .rbc (.fetched false false))) ∧
    (s.rb.Sound s.params → s.rb.cont = true → exec .rsmFetch s = .refused .mixedConsumer)

/-- RSM_FETCH joins a straddling record and loads it (R151 to R153): run to its end it takes the oldest record off the ring,
leaves the decoder as DEC_LOAD of the joined bytes does, and answers. (The steps after the first are the consumer's next turns:
log 9; `rsm_buf` has no content afterwards: log 13.) -/
def Obligations.FetchJoinsAndLoads : Prop :=
  ∀ (s : State) (v : List Byte) (rest : List (List Byte)),
    s.params.wf = true → s.io.live = true → s.rb.Sound s.params → s.rb.records s.params = some (v :: rest) →
    s.rb.cont = false → s.io.fetch = none →
    ∃ t u, exec .rsmFetch s = .next t ∧
      turnsOf .ringConsumer (if straddles s.params s.rb.tail v.length then 2 else 1) t = .next u ∧
      u.rb.records s.params = some rest ∧
      u = { s with
        rb := { s.rb with
          tail := (s.rb.tail + psize v.length) % s.params.rbCap, occ := s.rb.occ - psize v.length },
        dec := s.dec.load s.params v,
        rsmBuf := [],
        io := { s.io with
          outbox := s.io.outbox ++ [.response .rbc (.fetched true (s.dec.load s.params v).ok)] } }

/-- BLE_ENC (R160), and DEC_LOAD and DEC_NEXT after it give the bytes back (R161): where the packet of 1 + n + S bytes fits, it is
the answer, its header carries the upper timestamp bits, every timestamp byte the lower ones; a timestamp-low byte stands behind the
header exactly where the first byte is a status, every other timestamp byte directly before a status (with the round trip this
fixes the packet byte for byte); and the timestamp that is decoded is the encoded one without the bit that is not carried, and
without its low seven bits where no status byte is sent. -/
def Obligations.EncodeRoundTrip : Prop :=
  ∀ (s : State) (ts : Timestamp) (bytes : List Byte),
    bytes ≠ [] → 1 + bytes.length + bytes.countP hiBit ≤ s.params.blePktMax →
    ∃ pkt t d, exec (.bleEnc ts bytes) s = .next (s.respond .cod (.encoded (some pkt))) ∧
      pkt.length = 1 + bytes.length + bytes.countP hiBit ∧
      pkt.head? = some (BitVec.ofNat 8 (128 + ts.toNat / 2 ^ s.params.tsHiShift.bits % 64)) ∧
      (∀ (k : Nat) (b : Byte), pkt[k]? = some b →
        (roles pkt)[k]? = some .timestampLow ∨ (roles pkt)[k]? = some .timestamp →
        b = BitVec.ofNat 8 (128 + ts.toNat % 128)) ∧
      (Role.timestampLow ∈ roles pkt ↔ ∃ b, bytes.head? = some b ∧ b.getLsbD 7 = true) ∧
      (∀ k : Nat, (roles pkt)[k]? = some .timestamp → (roles pkt)[k + 1]? = some .status) ∧
      exec (.decLoad pkt) s = .next t ∧ t.dec.ok = true ∧
      t.dec.drain (bytes.length + 1) = some (bytes, d) ∧
      (bytes.any hiBit = true → d.ts = ts &&& (if s.params.tsHiShift = .seven then 0x1FFF#14 else 0x3F7F#14)) ∧
      (bytes.any hiBit = false → d.ts = ts &&& (if s.params.tsHiShift = .seven then 0x1F80#14 else 0x3F00#14))

/-- BLE_ENC declines an empty byte string and one whose packet would be longer than BLE_PKT_MAX, and changes nothing (R162). -/
def Obligations.EncodeDeclines : Prop :=
  ∀ (s : State) (ts : Timestamp) (bytes : List Byte),
    (bytes = [] ∨ s.params.blePktMax < 1 + bytes.length + bytes.countP hiBit) →
    exec (.bleEnc ts bytes) s = .next (s.respond .cod (.encoded none))

/-! ### The transmit engine -/

/-- A Message that does not fill its slot (R174, R175, R176, R180): it is stored behind the others in the active slot, which is
Filling, and the first one arms the timer. It may be the first Message of a TX_WRITE or TX_WRITE_NB or any later one (R75): the
operation goes on with the Messages left, or ends with its last, a TX_WRITE_NB answering the count. (The form in which a write in
progress is held is log 9.) -/
def Obligations.WriteAddsMessage : Prop :=
  ∀ (s : State) (m : Message) (ms : List Message),
    let i := s.tx.active
    let sl := s.tx.slot i
    let f := if sl.st = .free then 0 else sl.size
    (sl.st = .free ∨ sl.st = .filling) → f + 4 < s.params.pktBytes →
    ∃ b : Memory,
      let c : State := ({ s with tx := { s.tx.setSlot i ⟨b, f + 4, .filling⟩ with
        timer := if f = 0 then true else s.tx.timer } } : State).emit (if f = 0 then [.timerArm] else [])
      let ended : State := { c with io := { c.io with write := none } }
      let after : Bool → Nat → State := fun blocking n =>
        if ms.isEmpty then if blocking then ended else ended.respond .txf (.accepted n)
        else { c with io := { c.io with write := some ⟨blocking, ms, n⟩ } }
      (s.io.write = none → s.io.caller = .ordinary → exec (.txWrite (m :: ms)) s = .next (after true 1)) ∧
      (s.io.write = none → exec (.txWriteNb (m :: ms)) s = .next (after false 1)) ∧
      (∀ blocking n, s.io.write = some ⟨blocking, m :: ms, n⟩ →
        continueOperation .txForeground s = .next (after blocking (n + 1))) ∧
      b.read f = some m.b0 ∧ b.read (f + 1) = some m.b1 ∧ b.read (f + 2) = some m.b2 ∧ b.read (f + 3) = some m.b3 ∧
      (∀ a, (a < f ∨ f + 4 ≤ a) → b.read a = sl.buf.read a)

/-- A Message that fills its slot (R172, R174, R176, R180): the timer is cancelled if it was armed, the other slot is the next to
fill, and the full slot waits as Pending while the other is InFlight, else it is started at once, in the ordinary context, with all
its bytes. It may be the first Message of a TX_WRITE or TX_WRITE_NB or any later one (R75): the operation goes on with the Messages
left, or ends with its last, a TX_WRITE_NB answering the count. (The form in which a write in progress is held is log 9.) -/
def Obligations.WriteThatFillsFlushes : Prop :=
  ∀ (s : State) (m : Message) (ms : List Message) (old : List Byte),
    let i := s.tx.active
    let sl := s.tx.slot i
    let f := if sl.st = .free then 0 else sl.size
    (sl.st = .free ∨ sl.st = .filling) → f + 4 = s.params.pktBytes →
    sl.buf.bytesAt (slotAddrs 0 f) = some old →
    ∃ b : Memory,
      let waits := decide ((s.tx.slot i.other).st = .inFlight)
      let c : State := ({ s with tx := { s.tx.setSlot i ⟨b, s.params.pktBytes, if waits then .pending else .inFlight⟩ with
        timer := false, active := i.other } } : State).emit
          ((if s.tx.timer then [.timerCancel] else []) ++
            (if waits then [] else [.txStart .ordinary i s.params.pktBytes (old ++ m.bytes)]))
      let ended : State := { c with io := { c.io with write := none } }
      let after : Bool → Nat → State := fun blocking n =>
        if ms.isEmpty then if blocking then ended else ended.respond .txf (.accepted n)
        else { c with io := { c.io with write := some ⟨blocking, ms, n⟩ } }
      (s.io.write = none → s.io.caller = .ordinary → exec (.txWrite (m :: ms)) s = .next (after true 1)) ∧
      (s.io.write = none → exec (.txWriteNb (m :: ms)) s = .next (after false 1)) ∧
      (∀ blocking n, s.io.write = some ⟨blocking, m :: ms, n⟩ →
        continueOperation .txForeground s = .next (after blocking (n + 1))) ∧
      b.bytesAt (slotAddrs 0 s.params.pktBytes) = some (old ++ m.bytes) ∧
      (∀ a, s.params.pktBytes ≤ a → b.read a = sl.buf.read a)

/-- Backpressure (R177, R178, R180): with the active slot busy a TX_WRITE holds and changes nothing but that it is in
progress, and a turn while it holds changes nothing; a TX_WRITE_NB answers count = 0, or in a later step the count so far; and a
write of no Messages ends at once. (The form in which a write in progress is held is log 9.) -/
def Obligations.BusyEngineBlocks : Prop :=
  ∀ s : State, s.io.write = none →
    ((s.tx.slot s.tx.active).st = .pending ∨ (s.tx.slot s.tx.active).st = .inFlight →
      ∀ (m : Message) (ms : List Message),
        (s.io.caller = .ordinary →
          exec (.txWrite (m :: ms)) s =
            .next { s with io := { s.io with write := some ⟨true, m :: ms, 0⟩ } }) ∧
        exec (.txWriteNb (m :: ms)) s = .next (s.respond .txf (.accepted 0)) ∧
        ∀ n, let h : State := { s with io := { s.io with write := some ⟨true, m :: ms, n⟩ } }
          let g : State := { s with io := { s.io with write := some ⟨false, m :: ms, n⟩ } }
          continueOperation .txForeground h = .next h ∧
          continueOperation .txForeground g = .next (s.respond .txf (.accepted n))) ∧
    (s.io.caller = .ordinary → exec (.txWrite []) s = .next s) ∧
    exec (.txWriteNb []) s = .next (s.respond .txf (.accepted 0))

/-- How much a write accepts (R176, R177, R180): run to its end with no other agent between its steps, a TX_WRITE_NB accepts the
Messages that fit in the slots that are not busy, in order, and answers their number; a TX_WRITE of no more than that many
accepts them all and ends; no other unit changes. (One Message a turn: R75, log 9.) -/
def Obligations.WriteAcceptsWhatFits : Prop :=
  ∀ (s : State) (msgs : List Message),
    s.params.wf = true → s.tx.Sound s.params → s.io.live = true → s.io.write = none →
    s.nextCommand .txForeground = none →
    (∃ t u, exec (.txWriteNb msgs) s = .next t ∧ turnsOf .txForeground msgs.length t = .next u ∧
      u.io.write = none ∧
      u.io.outbox.getLast? = some (.response .txf (.accepted (min msgs.length (s.tx.room s.params)))) ∧
      u.txStream = s.txStream ++ (msgs.take (s.tx.room s.params)).flatMap Message.bytes ∧
      u.params = s.params ∧ u.rb = s.rb ∧ u.dec = s.dec ∧ u.rsmBuf = s.rsmBuf ∧ u.rx = s.rx) ∧
    (s.io.caller = .ordinary → msgs.length ≤ s.tx.room s.params →
      ∃ t u, exec (.txWrite msgs) s = .next t ∧ turnsOf .txForeground msgs.length t = .next u ∧
        u.io.write = none ∧ u.txStream = s.txStream ++ msgs.flatMap Message.bytes ∧
        u.params = s.params ∧ u.rb = s.rb ∧ u.dec = s.dec ∧ u.rsmBuf = s.rsmBuf ∧ u.rx = s.rx)

/-- TX_SEND_NOW (R183): a Filling slot is flushed from the ordinary context; with TX_SEND_EMPTY an idle engine starts, or has
waiting, an empty transfer; else nothing happens. -/
def Obligations.SendNowFlushes : Prop :=
  ∀ (s : State) (data : List Byte), s.io.write = none →
    let i := s.tx.active
    let sl := s.tx.slot i
    let waits := decide ((s.tx.slot i.other).st = .inFlight)
    let cancel : List Event := if s.tx.timer then [.timerCancel] else []
    (sl.st = .filling → sl.buf.bytesAt (slotAddrs 0 sl.size) = some data →
      exec .txSendNow s = .next (({ s with tx :=
        { s.tx.setSlot i { sl with st := if waits then .pending else .inFlight } with
          timer := false, active := i.other } } : State).emit
            (cancel ++ if waits then [] else [.txStart .ordinary i sl.size data]))) ∧
    (sl.st = .free → s.params.txSendEmpty = true →
      exec .txSendNow s = .next (({ s with tx :=
        { s.tx.setSlot i { sl with size := 0, st := if waits then .pending else .inFlight } with
          timer := false, active := i.other } } : State).emit
            (cancel ++ if waits then [] else [.txStart .ordinary i 0 []]))) ∧
    (sl.st = .free → s.params.txSendEmpty = false → exec .txSendNow s = .next s) ∧
    (sl.st = .pending ∨ sl.st = .inFlight → exec .txSendNow s = .next s)

/-- TX_IS_DONE (R185): 1 if and only if no slot is Pending or InFlight; a pure read. -/
def Obligations.IsDoneIffNothingQueued : Prop :=
  ∀ s : State, s.io.write = none →
    ∃ d : Bool, exec .txIsDone s = .next (s.respond .txf (.done d)) ∧
      (d = true ↔ ∀ i, (s.tx.slot i).st ≠ .pending ∧ (s.tx.slot i).st ≠ .inFlight)

/-- TX_ERRCNT (R192) and RX_ERRCNT (R212) are pure reads of the failure counters. -/
def Obligations.ErrorCountsArePureReads : Prop :=
  ∀ s : State,
    (s.io.write = none → exec .txErrcnt s = .next (s.respond .txf (.errorCount s.tx.err))) ∧
    exec .rxErrcnt s = .next (s.respond .rxf (.errorCount s.rx.err))

/-- TX_TIMEOUT (R186): stale while the timer is not armed; else the active slot is flushed through the timer's entry point and
no cancel is sent. -/
def Obligations.TimeoutFlushes : Prop :=
  ∀ (s : State) (data : List Byte),
    let i := s.tx.active
    let sl := s.tx.slot i
    let waits := decide ((s.tx.slot i.other).st = .inFlight)
    (s.tx.timer = false → exec .txTimeout s = .next s) ∧
    (s.tx.timer = true → sl.buf.bytesAt (slotAddrs 0 sl.size) = some data →
      exec .txTimeout s = .next (({ s with tx :=
        { s.tx.setSlot i { sl with st := if waits then .pending else .inFlight } with
          timer := false, active := i.other } } : State).emit
            (if waits then [] else [.txStart .timer i sl.size data])))

/-- TX_COMPLETE (R188, R189, R244): the InFlight slot is freed, a failure is counted modulo 2^32, and the Pending slot, if there
is one, is started through the interrupt's entry point; with no slot InFlight the completion is refused. -/
def Obligations.CompletionFreesAndStarts : Prop :=
  ∀ (s : State) (ok : Bool),
    ((∀ i, (s.tx.slot i).st ≠ .inFlight) → exec (.txComplete ok) s = .refused .strayTxCompletion) ∧
    ∀ i, (s.tx.slot i).st = .inFlight → (s.tx.slot i.other).st ≠ .inFlight →
      let err' : Counter := if ok then s.tx.err else BitVec.ofNat 32 (s.tx.err.toNat + 1)
      let freed : Transmit := { s.tx.setSlot i { s.tx.slot i with size := 0, st := .free } with err := err' }
      ((s.tx.slot i.other).st ≠ .pending → exec (.txComplete ok) s = .next { s with tx := freed }) ∧
      ∀ data, (s.tx.slot i.other).st = .pending →
        (s.tx.slot i.other).buf.bytesAt (slotAddrs 0 (s.tx.slot i.other).size) = some data →
        let started : Transmit := freed.setSlot i.other { s.tx.slot i.other with st := .inFlight }
        exec (.txComplete ok) s = .next (({ s with tx := started } : State).emit
            [.txStart .interrupt i.other (s.tx.slot i.other).size data])

/-- The slot state machine (R170): whatever operation but RESET is executed in a sound engine, and whatever later step of an
operation in progress is taken, a Pending slot stays or goes InFlight, an InFlight one stays or goes Free, a Filling one never goes
Free. (A Free slot may pass through Filling within one step.) -/
def Obligations.SlotTransitions : Prop :=
  ∀ s t : State, s.tx.Sound s.params →
    ((∃ i : Instr, i ≠ .reset ∧ exec i s = .next t) ∨ ∃ a : Agent, continueOperation a s = .next t) →
    ∀ k : TxIx,
      ((s.tx.slot k).st = .pending → (t.tx.slot k).st = .pending ∨ (t.tx.slot k).st = .inFlight) ∧
      ((s.tx.slot k).st = .inFlight → (t.tx.slot k).st = .inFlight ∨ (t.tx.slot k).st = .free) ∧
      ((s.tx.slot k).st = .filling → (t.tx.slot k).st ≠ .free)

/-- What lifts a hold (R178): while both slots are busy, no operation but TX_COMPLETE and no later step of one in progress
changes the engine, and TX_COMPLETE always frees the active slot. -/
def Obligations.OnlyCompletionLiftsHold : Prop :=
  ∀ (s : State), s.io.live = true → s.tx.Sound s.params → (s.tx.slot s.tx.active).st.busy = true →
    (∀ (i : Instr) (t : State), (∀ ok, i ≠ .txComplete ok) → exec i s = .next t → t.tx = s.tx) ∧
    (∀ (a : Agent) (t : State), continueOperation a s = .next t → t.tx = s.tx) ∧
    (∀ ok, ∃ t, exec (.txComplete ok) s = .next t ∧ t.tx.active = s.tx.active ∧
      (t.tx.slot t.tx.active).st = .free)

/-- Order of transmission (R191, R76): in a sound engine what has been started, followed by what waits in the Pending and then in
the Filling slot, only ever grows, at its end, by the bytes of the Messages accepted; no operation reorders, drops or repeats a
byte of it. Executed operations and the later steps of a write alike. -/
def Obligations.TransmitKeepsOrder : Prop :=
  ∀ (s t : State), s.params.wf = true → s.tx.Sound s.params →
    (∀ i : Instr, i ≠ .reset → exec i s = .next t → t.txStream = s.txStream ++ acceptedBytes i s.tx) ∧
    (∀ (m : Message) (w : WriteProgress), w.rest.head? = some m → writeStep w s = .next t →
      t.txStream = s.txStream ++ if (s.tx.slot s.tx.active).st.busy then [] else m.bytes)

/-- A timeout and a completion that are both enabled may come in either order (R234): both orders end in the same engine and
send the same bytes. -/
def Obligations.TimeoutAndCompletionCommute : Prop :=
  ∀ (s : State) (ok : Bool), s.tx.Sound s.params → s.tx.timer = true →
    (s.tx.slot s.tx.active.other).st = .inFlight →
    ∃ a b c d, exec .txTimeout s = .next a ∧ exec (.txComplete ok) a = .next b ∧
      exec (.txComplete ok) s = .next c ∧ exec .txTimeout c = .next d ∧
      b.tx = d.tx ∧ startedBytes b.io.outbox = startedBytes d.io.outbox

/-- A TX_WRITE issued from context (b) is refused (R194), and so is an operation of a second foreground or a second consumer
while one is in progress (R134, R194; log 19). -/
def Obligations.SecondAgentsAreRefused : Prop :=
  ∀ s : State,
    (s.io.write = none → s.io.caller ≠ .ordinary → ∀ msgs,
      exec (.txWrite msgs) s = .refused .writeInCompletionContext) ∧
    (s.io.write ≠ none → ∀ i : Instr, i.agent = .txForeground → exec i s = .refused .overlappingForeground) ∧
    (s.io.fetch ≠ none → ∀ i : Instr, i.agent = .ringConsumer → exec i s = .refused .overlappingConsumer)

/-! ### The receive engine -/

/-- RX_BEGIN (R201): nothing where a receive is outstanding or no slot is free; else slot rx_widx is lent through the ordinary
entry point, and its bytes have no value while it is (log 11, the model's form of R70). -/
def Obligations.BeginStartsReception : Prop :=
  ∀ s : State,
    (s.rx.busy = true ∨ s.rx.avail = s.params.rxNslots → exec .rxBegin s = .next s) ∧
    (s.rx.busy = false → s.rx.avail ≠ s.params.rxNslots →
      exec .rxBegin s = .next (({ s with rx := { s.rx with
        busy := true, slots := s.rx.slots.modify s.rx.widx (fun sl => { sl with buf := [] }) } } : State).emit
          [.rxStart .ordinary s.rx.widx]))

/-- RX_READ (R205 to R207): "nothing available" with no state change; else the next Message of the oldest slot, which is
returned in the read that takes its last one, and lent at once if the engine was idle (that a lent slot's bytes have no value is
log 11, the model's form of R70). -/
def Obligations.ReadTakesNextMessage : Prop :=
  ∀ s : State,
    (s.rx.avail = 0 → exec .rxRead s = .next (s.respond .rxf (.message none))) ∧
    ∀ (sl : RxSlot) (m : Message), s.rx.avail ≠ 0 → s.rx.slots[s.rx.ridx]? = some sl →
      sl.buf.read sl.off = some m.b0 → sl.buf.read (sl.off + 1) = some m.b1 →
      sl.buf.read (sl.off + 2) = some m.b2 → sl.buf.read (sl.off + 3) = some m.b3 →
      let kept : Receive := { s.rx with slots := s.rx.slots.set s.rx.ridx { sl with off := sl.off + 4 } }
      let drained : Receive := { s.rx with
        slots := s.rx.slots.set s.rx.ridx { sl with off := 0, size := 0 },
        ridx := (s.rx.ridx + 1) % s.params.rxNslots, avail := s.rx.avail - 1 }
      let lent : Receive := { drained with
        busy := true, slots := drained.slots.modify s.rx.widx (fun sl => { sl with buf := [] }) }
      (sl.off + 4 ≠ sl.size →
        exec .rxRead s = .next (({ s with rx := kept } : State).respond .rxf (.message (some m)))) ∧
      (sl.off + 4 = sl.size → s.rx.busy = true →
        exec .rxRead s = .next (({ s with rx := drained } : State).respond .rxf (.message (some m)))) ∧
      (sl.off + 4 = sl.size → s.rx.busy = false →
        exec .rxRead s = .next ((({ s with rx := lent } : State).emit [.rxStart .ordinary s.rx.widx]).respond
          .rxf (.message (some m))))

/-- RX_COMPLETE (R208 to R211, R213): the two refusals come first; a failure is counted and the slot lent again; a packet without
a whole Message is dropped and the slot lent again; any other is stored, and the next slot is lent if it is free, else the engine
is idle (that a lent slot's bytes have no value is log 11, the model's form of R70). -/
def Obligations.CompletionStoresPacket : Prop :=
  ∀ (s : State) (ok : Bool) (data : List Byte),
    let clear : RxSlot → RxSlot := fun sl => { sl with buf := [] }
    let again : Receive := { s.rx with slots := s.rx.slots.modify s.rx.widx clear }
    let w := (s.rx.widx + 1) % s.params.rxNslots
    (s.rx.busy = false → exec (.rxComplete ok data) s = .refused .strayRxCompletion) ∧
    (s.rx.busy = true → s.params.pktBytes < data.length →
      exec (.rxComplete ok data) s = .refused .receiveTooLong) ∧
    (s.rx.busy = true → data.length ≤ s.params.pktBytes →
      (ok = false → exec (.rxComplete ok data) s =
        .next (({ s with rx := { again with err := BitVec.ofNat 32 (s.rx.err.toNat + 1) } } : State).emit
          [.rxStart .interrupt s.rx.widx])) ∧
      (ok = true → data.length < 4 → exec (.rxComplete ok data) s =
        .next (({ s with rx := again } : State).emit [.rxStart .interrupt s.rx.widx])) ∧
      ∀ sl, ok = true → 4 ≤ data.length → s.rx.slots[s.rx.widx]? = some sl →
        ∃ b : Memory,
          let slots := s.rx.slots.set s.rx.widx ⟨b, data.length - data.length % 4, 0⟩
          (∀ (k : Nat) (h : k < data.length), b.read k = some data[k]) ∧
          (∀ a, data.length ≤ a → b.read a = sl.buf.read a) ∧
          (s.rx.avail + 1 < s.params.rxNslots → exec (.rxComplete ok data) s =
            .next (({ s with rx := { s.rx with
              slots := slots.modify w clear, widx := w, avail := s.rx.avail + 1 } } : State).emit
                [.rxStart .interrupt w])) ∧
          (s.params.rxNslots ≤ s.rx.avail + 1 → exec (.rxComplete ok data) s =
            .next { s with rx := { s.rx with
              slots := slots, widx := w, avail := s.rx.avail + 1, busy := false } }))

/-- Receive FIFO (R214, R203): in a sound engine RX_COMPLETE appends the whole Messages of its packet to the bytes received and
not yet read, RX_READ takes the first Message from them, answers "nothing available" exactly when there is none, and no other
operation but RESET touches them. -/
def Obligations.ReceiveIsFifo : Prop :=
  ∀ (s t : State), s.params.wf = true → s.rx.Sound s.params →
    (exec .rxRead s = .next t →
      (s.rx.avail = 0 → s.rx.stream s.params = [] ∧ t = s.respond .rxf (.message none)) ∧
      (s.rx.avail ≠ 0 → ∃ m : Message,
        t.io.outbox.getLast? = some (.response .rxf (.message (some m))) ∧
        s.rx.stream s.params = m.bytes ++ t.rx.stream s.params)) ∧
    (∀ ok data, exec (.rxComplete ok data) s = .next t →
      t.rx.stream s.params = s.rx.stream s.params ++
        if ok then data.take (data.length - data.length % 4) else []) ∧
    (∀ i : Instr, i ≠ .rxRead → (∀ ok data, i ≠ .rxComplete ok data) → i ≠ .reset → exec i s = .next t →
      t.rx.stream s.params = s.rx.stream s.params)

/-- Reception stays outstanding (R213, R241): once a receive is outstanding or every slot is full, that stays so under every
operation but RESET. -/
def Obligations.ReceptionStaysOutstanding : Prop :=
  ∀ (i : Instr) (s t : State), s.rx.Sound s.params → i ≠ .reset →
    (s.rx.busy = true ∨ s.rx.avail = s.params.rxNslots) → exec i s = .next t →
    (t.rx.busy = true ∨ t.rx.avail = s.params.rxNslots)

/-! ### RESET -/

/-- RESET (R250, R251, R49): at power-on, or while nothing is in progress, outstanding or armed, it gives every variable its reset
value, leaves the memories without content (log 10), and sends nothing; that the block is live from then on is log 7. -/
def Obligations.ResetGivesResetValues : Prop :=
  ∀ s : State, s.params.wf = true →
    (s.io.live = false ∨
      (s.io.fetch = none ∧ s.io.write = none ∧ (∀ i, (s.tx.slot i).st ≠ .inFlight) ∧ s.rx.busy = false ∧
        s.tx.timer = false)) →
    exec .reset s = .next
      { params := s.params
        rb := { head := 0, tail := 0, occ := 0, cont := false, mem := [] }
        dec := { buf := [], len := 0, pos := 0, ok := false, prevTs := false, ts := 0 }
        rsmBuf := []
        tx := { slot0 := { buf := [], size := 0, st := .free }, slot1 := { buf := [], size := 0, st := .free },
                active := .zero, timer := false, err := 0 }
        rx := { slots := List.replicate s.params.rxNslots { buf := [], size := 0, off := 0 },
                widx := 0, ridx := 0, avail := 0, busy := false, err := 0 }
        io := { s.io with live := true, fetch := none, write := none } }

/-- RESET in any other condition is refused (R251), and so is one of a block whose parameters R6 forbids (log 24). -/
def Obligations.ResetRefusedUnlessIdle : Prop :=
  ∀ s : State,
    (s.params.wf = false → exec .reset s = .refused .badParameters) ∧
    (s.params.wf = true → s.io.live = true →
      (s.io.fetch ≠ none ∨ s.io.write ≠ none ∨ (∃ i, (s.tx.slot i).st = .inFlight) ∨ s.rx.busy = true ∨
        s.tx.timer = true) →
      exec .reset s = .refused .resetNotIdle)

/-- The state right after reset, with the parameters of log 2, satisfies the invariant, and every variable holds the value R49
gives it: cursors, counts, flags, slot states, indices and counters. The memories, unspecified there, hold no byte (log 10). -/
def Obligations.ResetStateIsSound : Prop :=
  let s := State.reset
  s.Inv ∧ s.io.live = true ∧
    (s.rb.head = 0 ∧ s.rb.tail = 0 ∧ s.rb.occ = 0 ∧ s.rb.cont = false) ∧
    (s.dec.len = 0 ∧ s.dec.pos = 0 ∧ s.dec.ok = false ∧ s.dec.prevTs = false ∧ s.dec.ts = 0) ∧
    ((∀ i, (s.tx.slot i).st = .free ∧ (s.tx.slot i).size = 0) ∧
      s.tx.active = .zero ∧ s.tx.timer = false ∧ s.tx.err = 0) ∧
    (s.rx.slots.length = s.params.rxNslots ∧ (∀ sl ∈ s.rx.slots, sl.size = 0 ∧ sl.off = 0) ∧
      s.rx.widx = 0 ∧ s.rx.ridx = 0 ∧ s.rx.avail = 0 ∧ s.rx.busy = false ∧ s.rx.err = 0) ∧
    (s.rb.mem = [] ∧ s.dec.buf = [] ∧ s.rsmBuf = [] ∧ (∀ i, (s.tx.slot i).buf = []) ∧ ∀ sl ∈ s.rx.slots, sl.buf = [])

/-! ### The machine -/

/-- A step runs the decoded operation (R75, R103, R104): when it is an agent's turn, it is not inside an operation and its next
command word decodes to an operation of its port, the step is `exec` of that operation in the state the command leaves; a
refusal of R243 is answered 0xEE there. That turns and commands are data of the state, and the answer to a refusal, are the model's
choices (log 3, log 5). -/
def Obligations.StepRunsDecodedOperation : Prop :=
  ∀ (s : State) (a : Agent) (rest : List Agent) (c : Command) (i : Instr),
    s.io.turns = a :: rest → s.inside a = false →
    s.io.inbox.find? (fun c => decide (c.agent = a)) = some c → decode c.word = .ok i → i.port = a.port →
    (s.io.live = true ∨ i = .reset) →
    let s0 : State := { s with io := { s.io with
      turns := rest, inbox := s.io.inbox.eraseP (fun c => decide (c.agent = a)), caller := c.ctx } }
    step s = match exec i s0 with
      | .next t => .next t
      | .fault r => .fault r
      | .refused r => if r.answered then .next (s0.refuse a.port r) else .refused r

/-- The other kinds of turn (R75, R230): an agent inside an operation goes on with it, an agent with nothing to issue does
nothing, and with no turn left the block does nothing (log 3, log 25). -/
def Obligations.OtherTurns : Prop :=
  ∀ s : State,
    (s.io.turns = [] → step s = .next s) ∧
    ∀ a rest, s.io.turns = a :: rest →
      let s0 : State := { s with io := { s.io with turns := rest } }
      (s.inside a = true → step s = continueOperation a s0) ∧
      (s.inside a = false → (∀ c ∈ s.io.inbox, c.agent ≠ a) → step s = .next s0)

/-- A word that is refused before any operation is executed is answered by the step that issues it with the one byte 0xEE on its
port, no state of the block changes, and the refusal is recorded (R111, R243, R250; where the record is kept is log 5): a word that
does not decode, an operation on a port that is not its own (log 6), an operation before the first RESET. When an agent that is
not inside an operation has the turn, the step is `serve` of its next command word (the first clause), whatever that word is. -/
def Obligations.RefusedWordsAreAnswered : Prop :=
  ∀ (s : State) (a : Agent) (rest : List Agent) (c : Command),
    s.io.turns = a :: rest → s.inside a = false →
    s.io.inbox.find? (fun c => decide (c.agent = a)) = some c →
    let s0 : State := { s with io := { s.io with
      turns := rest, inbox := s.io.inbox.eraseP (fun c => decide (c.agent = a)), caller := c.ctx } }
    let answered : Refusal → State := fun r => { s0 with io := { s0.io with
      outbox := s0.io.outbox ++ [.response a.port .refused], refusals := s0.io.refusals ++ [r] } }
    step s = serve a.port c.word s0 ∧
    (∀ e, decode c.word = .error e → step s = .next (answered (.badWord e))) ∧
    (∀ i, decode c.word = .ok i → i.port ≠ a.port → step s = .next (answered .wrongPort)) ∧
    (∀ i, decode c.word = .ok i → i.port = a.port → s.io.live = false → i ≠ .reset →
      step s = .next (answered .notConstructed))

/-- No operation reaches a memory or a unit other than its own (R60, R61, R226). Whatever operation but RESET is executed, the
ring changes only under RB_PUSH, RB_POP and RSM_FETCH, the decoder only under DEC_LOAD and DEC_NEXT, rsm_buf only under RSM_FETCH,
the transmit engine only under the operations of TXF and TXB, the receive engine only under those of RXF and RXB. A later step of
an operation in progress changes, for a write, the transmit engine only; for a RSM_FETCH, the ring and rsm_buf while the
Continuation is due, then the decoder and rsm_buf; for any other agent, nothing. -/
def Obligations.UnitsAreIsolated : Prop :=
  ∀ s t : State,
    (∀ i : Instr, i ≠ .reset → exec i s = .next t →
      (i.port ≠ .rbp → i.port ≠ .rbc → t.rb = s.rb) ∧
      ((∀ pkt, i ≠ .decLoad pkt) → i ≠ .decNext → t.dec = s.dec) ∧
      (i ≠ .rsmFetch → t.rsmBuf = s.rsmBuf) ∧
      (i.port ≠ .txf → i.port ≠ .txb → t.tx = s.tx) ∧
      (i.port ≠ .rxf → i.port ≠ .rxb → t.rx = s.rx)) ∧
    (continueOperation .txForeground s = .next t →
      t.rb = s.rb ∧ t.dec = s.dec ∧ t.rsmBuf = s.rsmBuf ∧ t.rx = s.rx) ∧
    (continueOperation .ringConsumer s = .next t →
      t.tx = s.tx ∧ t.rx = s.rx ∧
      ∀ f, s.io.fetch = some f → (f.more = true → t.dec = s.dec) ∧ (f.more = false → t.rb = s.rb)) ∧
    (∀ a, a ≠ .txForeground → a ≠ .ringConsumer → continueOperation a s = .next t → t = s)

/-- "Fixed for the whole life of one instance" (R6; log 1): no step changes a parameter. -/
def Obligations.ParametersNeverChange : Prop :=
  ∀ s t : State, step s = .next t → t.params = s.params

/-- Every memory stays canonical: a step from a state whose memories have strictly rising addresses leads to one whose memories
have (log 10). -/
def Obligations.MemoriesStayCanonical : Prop :=
  ∀ s t : State,
    (s.rb.mem.wf ∧ s.dec.buf.wf ∧ s.rsmBuf.wf ∧ s.tx.slot0.buf.wf ∧ s.tx.slot1.buf.wf ∧ ∀ sl ∈ s.rx.slots, sl.buf.wf) →
    step s = .next t →
    (t.rb.mem.wf ∧ t.dec.buf.wf ∧ t.rsmBuf.wf ∧ t.tx.slot0.buf.wf ∧ t.tx.slot1.buf.wf ∧ ∀ sl ∈ t.rx.slots, sl.buf.wf)

/-- The invariants of R26, R28, R39 and R47 are kept by every step, under every interleaving of the agents. -/
def Obligations.StepKeepsInvariant : Prop :=
  ∀ s t : State, s.Inv → step s = .next t → t.Inv

/-- The block never stops (R220, R254, R252): from every state of the invariant every step has a next state; no byte is read
before it is written and no operation is left without a meaning. (A refusal of R243 is a next state here: log 5.) -/
def Obligations.StepNeverStops : Prop :=
  ∀ s : State, s.Inv → ∃ t, step s = .next t

/-- The two readings of a malformed packet that fits the store (log 12): it is stored, and dec_len is its length, as the pseudocode
of R141 writes, or 0, as the row of R221 does; under either the cursor stands at dec_len and dec_ok, dec_prev_ts and dec_ts are
cleared. That the reading is a parameter is the model's choice. -/
def Obligations.MalformedLengthReadings : Prop :=
  ∀ (s : State) (pkt : List Byte), pkt.length ≤ s.params.blePktMax →
    (pkt.length < 2 ∨ ∃ b0 rest, pkt = b0 :: rest ∧ b0.getLsbD 7 = false) →
    ∃ m : Memory,
      let n := if s.params.malformedKeepsLen then pkt.length else 0
      exec (.decLoad pkt) s = .next (({ s with dec :=
        { buf := m, len := n, pos := n, ok := false, prevTs := false, ts := 0 } } : State).respond .cod (.loaded false)) ∧
      (∀ (k : Nat) (h : k < pkt.length), m.read k = some pkt[k]) ∧
      (∀ a, pkt.length ≤ a → m.read a = s.dec.buf.read a)
end

