-- ==== Sys2Proof/Laws/Memory.lean ====
section
/-! SUPPORT. The laws of memory: a read after a write, the canonical form that every write keeps, and what reading and writing
a list of addresses can do. -/

namespace Sys2Proof.Machine

@[simp] theorem andThen_next {α β : Type} (a : α) (f : α → Answer β) : andThen (.next a) f = f a := rfl
@[simp] theorem andThen_fault {α β : Type} (r : Fault) (f : α → Answer β) :
    andThen (.fault r : Answer α) f = .fault r := rfl
@[simp] theorem andThen_refused {α β : Type} (r : Refusal) (f : α → Answer β) :
    andThen (.refused r : Answer α) f = .refused r := rfl

/-- A sequence answers a next state only through one of its first part. -/
theorem andThen_eq_next {α β : Type} {o : Answer α} {f : α → Answer β} {b : β} :
    andThen o f = .next b ↔ ∃ a, o = .next a ∧ f a = .next b := by
  cases o <;> simp [andThen]

/-- A sequence is refused by its first part or by its second. -/
theorem andThen_eq_refused {α β : Type} {o : Answer α} {f : α → Answer β} {r : Refusal} :
    andThen o f = .refused r ↔ o = .refused r ∨ ∃ a, o = .next a ∧ f a = .refused r := by
  cases o <;> simp [andThen]

/-- A sequence faults in its first part or in its second. -/
theorem andThen_eq_fault {α β : Type} {o : Answer α} {f : α → Answer β} {r : Fault} :
    andThen o f = .fault r ↔ o = .fault r ∨ ∃ a, o = .next a ∧ f a = .fault r := by
  cases o <;> simp [andThen]

@[simp] theorem Memory.read_nil (a : Nat) : Memory.read [] a = none := rfl

@[simp] theorem Memory.read_write_same (m : Memory) (a : Nat) (v : Byte) : (m.write a v).read a = some v := by
  induction m with
  | nil => simp [Memory.write, Memory.read]
  | cons c m ih =>
    obtain ⟨b, w⟩ := c
    simp only [Memory.write]
    split
    · simp [Memory.read]
    · split
      · simp [Memory.read]
      · next h => simp [Memory.read, h, ih]

theorem Memory.read_write_other (m : Memory) {a x : Nat} (v : Byte) (h : x ≠ a) : (m.write a v).read x = m.read x := by
  induction m with
  | nil => simp [Memory.write, Memory.read, h]
  | cons c m ih =>
    obtain ⟨b, w⟩ := c
    simp only [Memory.write]
    split
    · simp [Memory.read, h]
    · split
      · next e => subst e; simp [Memory.read, h]
      · simp only [Memory.read, ih]

/-- The cells of a memory after a write: the new one and old ones. -/
theorem Memory.mem_write {m : Memory} {a : Nat} {v : Byte} {c : Host.Cell} (h : c ∈ m.write a v) : c = (a, v) ∨ c ∈ m := by
  induction m with
  | nil => simpa [Memory.write] using h
  | cons d m ih =>
    obtain ⟨b, w⟩ := d
    simp only [Memory.write] at h
    split at h
    · simpa using h
    · split at h
      · rcases List.mem_cons.mp h with h | h
        · exact .inl h
        · exact .inr (List.mem_cons_of_mem _ h)
      · rcases List.mem_cons.mp h with h | h
        · exact .inr (by simp [h])
        · rcases ih h with h | h
          · exact .inl h
          · exact .inr (List.mem_cons_of_mem _ h)

/-- A write keeps the canonical form. -/
theorem Memory.wf_write {m : Memory} (h : m.wf) (a : Nat) (v : Byte) : (m.write a v).wf := by
  induction m with
  | nil => simp [Memory.write]
  | cons d m ih =>
    obtain ⟨b, w⟩ := d
    rw [Memory.wf, List.pairwise_cons] at h
    simp only [Memory.write]
    split
    · next hlt =>
      refine List.pairwise_cons.mpr ⟨fun c hc => ?_, List.pairwise_cons.mpr h⟩
      rcases List.mem_cons.mp hc with rfl | hc
      · exact hlt
      · exact hlt.trans (h.1 c hc)
    · split
      · next e => exact List.pairwise_cons.mpr ⟨fun c hc => by subst e; exact h.1 c hc, h.2⟩
      · next hn he =>
        refine List.pairwise_cons.mpr ⟨fun c hc => ?_, ih h.2⟩
        rcases Memory.mem_write hc with rfl | hc
        · simp only; omega
        · exact h.1 c hc

theorem Memory.wf_writeAll {m : Memory} (h : m.wf) (addrs : List Nat) (bs : List Byte) : (writeAll m addrs bs).wf := by
  induction addrs generalizing m bs with
  | nil => simpa [writeAll] using h
  | cons a addrs ih =>
    cases bs with
    | nil => simpa [writeAll] using h
    | cons b bs => exact ih (Memory.wf_write h a b) bs

/-- Writing inside a memory keeps it canonical and inside its size. -/
theorem Memory.within_writeAll {m : Memory} {n : Nat} (h : m.within n) {addrs : List Nat} (ha : ∀ a ∈ addrs, a < n)
    (bs : List Byte) : (writeAll m addrs bs).within n := by
  induction addrs generalizing m bs with
  | nil => simpa [writeAll] using h
  | cons a addrs ih =>
    cases bs with
    | nil => simpa [writeAll] using h
    | cons b bs =>
      refine ih ⟨Memory.wf_write h.1 a b, fun c hc => ?_⟩ (fun x hx => ha x (List.mem_cons_of_mem _ hx)) bs
      rcases Memory.mem_write hc with rfl | hc
      · exact ha a (by simp)
      · exact h.2 c hc

theorem Memory.within_nil (n : Nat) : Memory.within [] n := ⟨List.Pairwise.nil, by simp⟩

/-- A write of addresses that leave `x` out leaves `x` alone. -/
theorem Memory.read_writeAll_other (m : Memory) {addrs : List Nat} (bs : List Byte) {x : Nat} (h : x ∉ addrs) :
    (writeAll m addrs bs).read x = m.read x := by
  induction addrs generalizing m bs with
  | nil => simp [writeAll]
  | cons a addrs ih =>
    cases bs with
    | nil => simp [writeAll]
    | cons b bs =>
      simp only [List.mem_cons, not_or] at h
      simp only [writeAll]
      rw [ih _ _ h.2, Memory.read_write_other _ _ h.1]

/-- A write of distinct addresses leaves each byte at its address. -/
theorem Memory.read_writeAll_getElem (m : Memory) {addrs : List Nat} {bs : List Byte} (hd : addrs.Nodup) {i : Nat}
    (ha : i < addrs.length) (hb : i < bs.length) : (writeAll m addrs bs).read addrs[i] = some bs[i] := by
  induction addrs generalizing m bs i with
  | nil => simp at ha
  | cons a addrs ih =>
    cases bs with
    | nil => simp at hb
    | cons b bs =>
      rw [List.nodup_cons] at hd
      cases i with
      | zero => simp [writeAll, Memory.read_writeAll_other _ _ hd.1]
      | succ i => simpa [writeAll] using ih (m.write a b) hd.2 (by simpa using ha) (by simpa using hb)

/-- What is read after distinct addresses are written is what was written. -/
theorem Memory.bytesAt_writeAll (m : Memory) {addrs : List Nat} {bs : List Byte} (hd : addrs.Nodup)
    (hl : addrs.length = bs.length) : (writeAll m addrs bs).bytesAt addrs = some bs := by
  induction addrs generalizing m bs with
  | nil => cases bs <;> simp_all [writeAll, Memory.bytesAt]
  | cons a addrs ih =>
    cases bs with
    | nil => simp at hl
    | cons b bs =>
      rw [List.nodup_cons] at hd
      have h := ih (m.write a b) hd.2 (by simpa using hl)
      simp only [Memory.bytesAt] at h ⊢
      simp [writeAll, Memory.read_writeAll_other _ _ hd.1, h]

/-- Reading a list of addresses depends on those addresses only. -/
theorem Memory.bytesAt_congr {m m' : Memory} {addrs : List Nat} (h : ∀ a ∈ addrs, m.read a = m'.read a) :
    m.bytesAt addrs = m'.bytesAt addrs := by
  induction addrs with
  | nil => rfl
  | cons a addrs ih =>
    have ih' := ih (fun x hx => h x (List.mem_cons_of_mem _ hx))
    simp only [Memory.bytesAt] at ih' ⊢
    simp [List.mapM_cons, h a (by simp), ih']

/-- A multi-byte read answers exactly the bytes that are there. -/
theorem readAll_eq_next {sp : Space} {m : Memory} {addrs : List Nat} {bs : List Byte} :
    readAll sp m addrs = .next bs ↔ m.bytesAt addrs = some bs := by
  induction addrs generalizing bs with
  | nil => simp [readAll, Memory.bytesAt, eq_comm]
  | cons a addrs ih =>
    simp only [readAll, Memory.bytesAt, List.mapM_cons]
    cases hr : m.read a with
    | none => simp
    | some b =>
      simp only [andThen_eq_next, ih, Memory.bytesAt]
      cases hm : List.mapM m.read addrs <;> simp

/-- A multi-byte read is never refused. -/
theorem readAll_ne_refused {sp : Space} {m : Memory} {addrs : List Nat} {r : Refusal} :
    readAll sp m addrs ≠ .refused r := by
  induction addrs with
  | nil => simp [readAll]
  | cons a addrs ih =>
    simp only [readAll]
    cases m.read a with
    | none => simp
    | some b => simp [andThen_eq_refused, ih]

/-- Bytes that have all been written are read. -/
theorem Memory.bytesAt_isSome {m : Memory} {addrs : List Nat} (h : ∀ a ∈ addrs, (m.read a).isSome = true) :
    ∃ bs, m.bytesAt addrs = some bs ∧ bs.length = addrs.length := by
  induction addrs with
  | nil => exact ⟨[], rfl, rfl⟩
  | cons a addrs ih =>
    obtain ⟨bs, hbs, hl⟩ := ih (fun x hx => h x (List.mem_cons_of_mem _ hx))
    obtain ⟨b, hb⟩ := Option.isSome_iff_exists.mp (h a (by simp))
    refine ⟨b :: bs, ?_, by simp [hl]⟩
    simp only [Memory.bytesAt] at hbs ⊢
    simp [hb, hbs]

@[simp] theorem slotAddrs_length (a n : Nat) : (slotAddrs a n).length = n := by simp [slotAddrs]

theorem mem_slotAddrs {a n x : Nat} : x ∈ slotAddrs a n ↔ a ≤ x ∧ x < a + n := by
  simp [slotAddrs, List.mem_range'_1]

theorem slotAddrs_nodup (a n : Nat) : (slotAddrs a n).Nodup := by simp [slotAddrs, List.nodup_range']

@[simp] theorem slotAddrs_getElem (a n i : Nat) (h : i < (slotAddrs a n).length) : (slotAddrs a n)[i] = a + i := by
  simp [slotAddrs]

@[simp] theorem ringAddrs_length (cap a n : Nat) : (ringAddrs cap a n).length = n := by simp [ringAddrs]

@[simp] theorem ringAddrs_getElem (cap a n i : Nat) (h : i < (ringAddrs cap a n).length) :
    (ringAddrs cap a n)[i] = (a + i) % cap := by simp [ringAddrs]

theorem mem_ringAddrs {cap a n x : Nat} : x ∈ ringAddrs cap a n ↔ ∃ i < n, x = (a + i) % cap := by
  simp only [ringAddrs, List.mem_map, List.mem_range']
  constructor
  · rintro ⟨y, ⟨i, hi, rfl⟩, rfl⟩; exact ⟨i, hi, by simp⟩
  · rintro ⟨i, hi, rfl⟩; exact ⟨a + i, ⟨i, hi, by simp⟩, rfl⟩

/-- An access of at most RB_CAP bytes touches no offset twice (R62). -/
theorem ringAddrs_nodup {cap a n : Nat} (h : n ≤ cap) : (ringAddrs cap a n).Nodup := by
  rw [List.nodup_iff_injective_getElem]
  rintro ⟨i, hi⟩ ⟨j, hj⟩ e
  simp only [ringAddrs_length] at hi hj
  simp only [ringAddrs_getElem] at e
  have := Nat.ModEq.add_left_cancel' a e
  have := Nat.ModEq.eq_of_lt_of_lt this (by omega) (by omega)
  simpa using this

/-- The memory of the reset state is canonical, every one of the five. -/
theorem reset_memories_wf : State.reset.rb.mem.wf ∧ State.reset.dec.buf.wf ∧ State.reset.rsmBuf.wf ∧
    (∀ i, (State.reset.tx.slot i).buf.wf) ∧ ∀ sl ∈ State.reset.rx.slots, sl.buf.wf := by
  refine ⟨?_, ?_, ?_, ?_, ?_⟩
  · decide
  · decide
  · decide
  · intro i; cases i <;> decide
  · decide

end Sys2Proof.Machine
end

