-- ==== Sys2Proof/Laws/State.lean ====
section
/-! SUPPORT. What each named update of the state leaves and sets: one lemma per field per update. -/

namespace Sys2Proof.Machine

@[simp] theorem State.emit_params (s : State) (es : List Event) : (s.emit es).params = s.params := rfl
@[simp] theorem State.emit_rb (s : State) (es : List Event) : (s.emit es).rb = s.rb := rfl
@[simp] theorem State.emit_dec (s : State) (es : List Event) : (s.emit es).dec = s.dec := rfl
@[simp] theorem State.emit_rsmBuf (s : State) (es : List Event) : (s.emit es).rsmBuf = s.rsmBuf := rfl
@[simp] theorem State.emit_tx (s : State) (es : List Event) : (s.emit es).tx = s.tx := rfl
@[simp] theorem State.emit_rx (s : State) (es : List Event) : (s.emit es).rx = s.rx := rfl
@[simp] theorem State.emit_live (s : State) (es : List Event) : (s.emit es).io.live = s.io.live := rfl
@[simp] theorem State.emit_caller (s : State) (es : List Event) : (s.emit es).io.caller = s.io.caller := rfl
@[simp] theorem State.emit_fetch (s : State) (es : List Event) : (s.emit es).io.fetch = s.io.fetch := rfl
@[simp] theorem State.emit_write (s : State) (es : List Event) : (s.emit es).io.write = s.io.write := rfl
@[simp] theorem State.emit_turns (s : State) (es : List Event) : (s.emit es).io.turns = s.io.turns := rfl
@[simp] theorem State.emit_inbox (s : State) (es : List Event) : (s.emit es).io.inbox = s.io.inbox := rfl
@[simp] theorem State.emit_outbox (s : State) (es : List Event) : (s.emit es).io.outbox = s.io.outbox ++ es.map Output.event := rfl
@[simp] theorem State.emit_refusals (s : State) (es : List Event) : (s.emit es).io.refusals = s.io.refusals := rfl

@[simp] theorem State.respond_params (s : State) (p : Port) (r : Response) : (s.respond p r).params = s.params := rfl
@[simp] theorem State.respond_rb (s : State) (p : Port) (r : Response) : (s.respond p r).rb = s.rb := rfl
@[simp] theorem State.respond_dec (s : State) (p : Port) (r : Response) : (s.respond p r).dec = s.dec := rfl
@[simp] theorem State.respond_rsmBuf (s : State) (p : Port) (r : Response) : (s.respond p r).rsmBuf = s.rsmBuf := rfl
@[simp] theorem State.respond_tx (s : State) (p : Port) (r : Response) : (s.respond p r).tx = s.tx := rfl
@[simp] theorem State.respond_rx (s : State) (p : Port) (r : Response) : (s.respond p r).rx = s.rx := rfl
@[simp] theorem State.respond_live (s : State) (p : Port) (r : Response) : (s.respond p r).io.live = s.io.live := rfl
@[simp] theorem State.respond_caller (s : State) (p : Port) (r : Response) : (s.respond p r).io.caller = s.io.caller := rfl
@[simp] theorem State.respond_fetch (s : State) (p : Port) (r : Response) : (s.respond p r).io.fetch = s.io.fetch := rfl
@[simp] theorem State.respond_write (s : State) (p : Port) (r : Response) : (s.respond p r).io.write = s.io.write := rfl
@[simp] theorem State.respond_turns (s : State) (p : Port) (r : Response) : (s.respond p r).io.turns = s.io.turns := rfl
@[simp] theorem State.respond_inbox (s : State) (p : Port) (r : Response) : (s.respond p r).io.inbox = s.io.inbox := rfl
@[simp] theorem State.respond_outbox (s : State) (p : Port) (r : Response) : (s.respond p r).io.outbox = s.io.outbox ++ [.response p r] := rfl
@[simp] theorem State.respond_refusals (s : State) (p : Port) (r : Response) : (s.respond p r).io.refusals = s.io.refusals := rfl

@[simp] theorem State.refuse_params (s : State) (p : Port) (r : Refusal) : (s.refuse p r).params = s.params := rfl
@[simp] theorem State.refuse_rb (s : State) (p : Port) (r : Refusal) : (s.refuse p r).rb = s.rb := rfl
@[simp] theorem State.refuse_dec (s : State) (p : Port) (r : Refusal) : (s.refuse p r).dec = s.dec := rfl
@[simp] theorem State.refuse_rsmBuf (s : State) (p : Port) (r : Refusal) : (s.refuse p r).rsmBuf = s.rsmBuf := rfl
@[simp] theorem State.refuse_tx (s : State) (p : Port) (r : Refusal) : (s.refuse p r).tx = s.tx := rfl
@[simp] theorem State.refuse_rx (s : State) (p : Port) (r : Refusal) : (s.refuse p r).rx = s.rx := rfl
@[simp] theorem State.refuse_live (s : State) (p : Port) (r : Refusal) : (s.refuse p r).io.live = s.io.live := rfl
@[simp] theorem State.refuse_caller (s : State) (p : Port) (r : Refusal) : (s.refuse p r).io.caller = s.io.caller := rfl
@[simp] theorem State.refuse_fetch (s : State) (p : Port) (r : Refusal) : (s.refuse p r).io.fetch = s.io.fetch := rfl
@[simp] theorem State.refuse_write (s : State) (p : Port) (r : Refusal) : (s.refuse p r).io.write = s.io.write := rfl
@[simp] theorem State.refuse_turns (s : State) (p : Port) (r : Refusal) : (s.refuse p r).io.turns = s.io.turns := rfl
@[simp] theorem State.refuse_inbox (s : State) (p : Port) (r : Refusal) : (s.refuse p r).io.inbox = s.io.inbox := rfl
@[simp] theorem State.refuse_outbox (s : State) (p : Port) (r : Refusal) : (s.refuse p r).io.outbox = s.io.outbox ++ [.response p .refused] := rfl
@[simp] theorem State.refuse_refusals (s : State) (p : Port) (r : Refusal) : (s.refuse p r).io.refusals = s.io.refusals ++ [r] := rfl

@[simp] theorem State.withRb_params (s : State) (r : Ring) : (s.withRb r).params = s.params := rfl
@[simp] theorem State.withRb_rb (s : State) (r : Ring) : (s.withRb r).rb = r := rfl
@[simp] theorem State.withRb_dec (s : State) (r : Ring) : (s.withRb r).dec = s.dec := rfl
@[simp] theorem State.withRb_rsmBuf (s : State) (r : Ring) : (s.withRb r).rsmBuf = s.rsmBuf := rfl
@[simp] theorem State.withRb_tx (s : State) (r : Ring) : (s.withRb r).tx = s.tx := rfl
@[simp] theorem State.withRb_rx (s : State) (r : Ring) : (s.withRb r).rx = s.rx := rfl
@[simp] theorem State.withRb_live (s : State) (r : Ring) : (s.withRb r).io.live = s.io.live := rfl
@[simp] theorem State.withRb_caller (s : State) (r : Ring) : (s.withRb r).io.caller = s.io.caller := rfl
@[simp] theorem State.withRb_fetch (s : State) (r : Ring) : (s.withRb r).io.fetch = s.io.fetch := rfl
@[simp] theorem State.withRb_write (s : State) (r : Ring) : (s.withRb r).io.write = s.io.write := rfl
@[simp] theorem State.withRb_turns (s : State) (r : Ring) : (s.withRb r).io.turns = s.io.turns := rfl
@[simp] theorem State.withRb_inbox (s : State) (r : Ring) : (s.withRb r).io.inbox = s.io.inbox := rfl
@[simp] theorem State.withRb_outbox (s : State) (r : Ring) : (s.withRb r).io.outbox = s.io.outbox := rfl
@[simp] theorem State.withRb_refusals (s : State) (r : Ring) : (s.withRb r).io.refusals = s.io.refusals := rfl

@[simp] theorem State.withDec_params (s : State) (d : Decoder) : (s.withDec d).params = s.params := rfl
@[simp] theorem State.withDec_rb (s : State) (d : Decoder) : (s.withDec d).rb = s.rb := rfl
@[simp] theorem State.withDec_dec (s : State) (d : Decoder) : (s.withDec d).dec = d := rfl
@[simp] theorem State.withDec_rsmBuf (s : State) (d : Decoder) : (s.withDec d).rsmBuf = s.rsmBuf := rfl
@[simp] theorem State.withDec_tx (s : State) (d : Decoder) : (s.withDec d).tx = s.tx := rfl
@[simp] theorem State.withDec_rx (s : State) (d : Decoder) : (s.withDec d).rx = s.rx := rfl
@[simp] theorem State.withDec_live (s : State) (d : Decoder) : (s.withDec d).io.live = s.io.live := rfl
@[simp] theorem State.withDec_caller (s : State) (d : Decoder) : (s.withDec d).io.caller = s.io.caller := rfl
@[simp] theorem State.withDec_fetch (s : State) (d : Decoder) : (s.withDec d).io.fetch = s.io.fetch := rfl
@[simp] theorem State.withDec_write (s : State) (d : Decoder) : (s.withDec d).io.write = s.io.write := rfl
@[simp] theorem State.withDec_turns (s : State) (d : Decoder) : (s.withDec d).io.turns = s.io.turns := rfl
@[simp] theorem State.withDec_inbox (s : State) (d : Decoder) : (s.withDec d).io.inbox = s.io.inbox := rfl
@[simp] theorem State.withDec_outbox (s : State) (d : Decoder) : (s.withDec d).io.outbox = s.io.outbox := rfl
@[simp] theorem State.withDec_refusals (s : State) (d : Decoder) : (s.withDec d).io.refusals = s.io.refusals := rfl

@[simp] theorem State.withTx_params (s : State) (x : Transmit × List Event) : (s.withTx x).params = s.params := rfl
@[simp] theorem State.withTx_rb (s : State) (x : Transmit × List Event) : (s.withTx x).rb = s.rb := rfl
@[simp] theorem State.withTx_dec (s : State) (x : Transmit × List Event) : (s.withTx x).dec = s.dec := rfl
@[simp] theorem State.withTx_rsmBuf (s : State) (x : Transmit × List Event) : (s.withTx x).rsmBuf = s.rsmBuf := rfl
@[simp] theorem State.withTx_tx (s : State) (x : Transmit × List Event) : (s.withTx x).tx = x.1 := rfl
@[simp] theorem State.withTx_rx (s : State) (x : Transmit × List Event) : (s.withTx x).rx = s.rx := rfl
@[simp] theorem State.withTx_live (s : State) (x : Transmit × List Event) : (s.withTx x).io.live = s.io.live := rfl
@[simp] theorem State.withTx_caller (s : State) (x : Transmit × List Event) : (s.withTx x).io.caller = s.io.caller := rfl
@[simp] theorem State.withTx_fetch (s : State) (x : Transmit × List Event) : (s.withTx x).io.fetch = s.io.fetch := rfl
@[simp] theorem State.withTx_write (s : State) (x : Transmit × List Event) : (s.withTx x).io.write = s.io.write := rfl
@[simp] theorem State.withTx_turns (s : State) (x : Transmit × List Event) : (s.withTx x).io.turns = s.io.turns := rfl
@[simp] theorem State.withTx_inbox (s : State) (x : Transmit × List Event) : (s.withTx x).io.inbox = s.io.inbox := rfl
@[simp] theorem State.withTx_outbox (s : State) (x : Transmit × List Event) : (s.withTx x).io.outbox = s.io.outbox ++ x.2.map Output.event := rfl
@[simp] theorem State.withTx_refusals (s : State) (x : Transmit × List Event) : (s.withTx x).io.refusals = s.io.refusals := rfl

@[simp] theorem State.withRx_params (s : State) (x : Receive × List Event) : (s.withRx x).params = s.params := rfl
@[simp] theorem State.withRx_rb (s : State) (x : Receive × List Event) : (s.withRx x).rb = s.rb := rfl
@[simp] theorem State.withRx_dec (s : State) (x : Receive × List Event) : (s.withRx x).dec = s.dec := rfl
@[simp] theorem State.withRx_rsmBuf (s : State) (x : Receive × List Event) : (s.withRx x).rsmBuf = s.rsmBuf := rfl
@[simp] theorem State.withRx_tx (s : State) (x : Receive × List Event) : (s.withRx x).tx = s.tx := rfl
@[simp] theorem State.withRx_rx (s : State) (x : Receive × List Event) : (s.withRx x).rx = x.1 := rfl
@[simp] theorem State.withRx_live (s : State) (x : Receive × List Event) : (s.withRx x).io.live = s.io.live := rfl
@[simp] theorem State.withRx_caller (s : State) (x : Receive × List Event) : (s.withRx x).io.caller = s.io.caller := rfl
@[simp] theorem State.withRx_fetch (s : State) (x : Receive × List Event) : (s.withRx x).io.fetch = s.io.fetch := rfl
@[simp] theorem State.withRx_write (s : State) (x : Receive × List Event) : (s.withRx x).io.write = s.io.write := rfl
@[simp] theorem State.withRx_turns (s : State) (x : Receive × List Event) : (s.withRx x).io.turns = s.io.turns := rfl
@[simp] theorem State.withRx_inbox (s : State) (x : Receive × List Event) : (s.withRx x).io.inbox = s.io.inbox := rfl
@[simp] theorem State.withRx_outbox (s : State) (x : Receive × List Event) : (s.withRx x).io.outbox = s.io.outbox ++ x.2.map Output.event := rfl
@[simp] theorem State.withRx_refusals (s : State) (x : Receive × List Event) : (s.withRx x).io.refusals = s.io.refusals := rfl

@[simp] theorem State.withFetch_params (s : State) (f : Option FetchProgress) : (s.withFetch f).params = s.params := rfl
@[simp] theorem State.withFetch_rb (s : State) (f : Option FetchProgress) : (s.withFetch f).rb = s.rb := rfl
@[simp] theorem State.withFetch_dec (s : State) (f : Option FetchProgress) : (s.withFetch f).dec = s.dec := rfl
@[simp] theorem State.withFetch_rsmBuf (s : State) (f : Option FetchProgress) : (s.withFetch f).rsmBuf = s.rsmBuf := rfl
@[simp] theorem State.withFetch_tx (s : State) (f : Option FetchProgress) : (s.withFetch f).tx = s.tx := rfl
@[simp] theorem State.withFetch_rx (s : State) (f : Option FetchProgress) : (s.withFetch f).rx = s.rx := rfl
@[simp] theorem State.withFetch_live (s : State) (f : Option FetchProgress) : (s.withFetch f).io.live = s.io.live := rfl
@[simp] theorem State.withFetch_caller (s : State) (f : Option FetchProgress) : (s.withFetch f).io.caller = s.io.caller := rfl
@[simp] theorem State.withFetch_fetch (s : State) (f : Option FetchProgress) : (s.withFetch f).io.fetch = f := rfl
@[simp] theorem State.withFetch_write (s : State) (f : Option FetchProgress) : (s.withFetch f).io.write = s.io.write := rfl
@[simp] theorem State.withFetch_turns (s : State) (f : Option FetchProgress) : (s.withFetch f).io.turns = s.io.turns := rfl
@[simp] theorem State.withFetch_inbox (s : State) (f : Option FetchProgress) : (s.withFetch f).io.inbox = s.io.inbox := rfl
@[simp] theorem State.withFetch_outbox (s : State) (f : Option FetchProgress) : (s.withFetch f).io.outbox = s.io.outbox := rfl
@[simp] theorem State.withFetch_refusals (s : State) (f : Option FetchProgress) : (s.withFetch f).io.refusals = s.io.refusals := rfl

@[simp] theorem State.withWrite_params (s : State) (w : Option WriteProgress) : (s.withWrite w).params = s.params := rfl
@[simp] theorem State.withWrite_rb (s : State) (w : Option WriteProgress) : (s.withWrite w).rb = s.rb := rfl
@[simp] theorem State.withWrite_dec (s : State) (w : Option WriteProgress) : (s.withWrite w).dec = s.dec := rfl
@[simp] theorem State.withWrite_rsmBuf (s : State) (w : Option WriteProgress) : (s.withWrite w).rsmBuf = s.rsmBuf := rfl
@[simp] theorem State.withWrite_tx (s : State) (w : Option WriteProgress) : (s.withWrite w).tx = s.tx := rfl
@[simp] theorem State.withWrite_rx (s : State) (w : Option WriteProgress) : (s.withWrite w).rx = s.rx := rfl
@[simp] theorem State.withWrite_live (s : State) (w : Option WriteProgress) : (s.withWrite w).io.live = s.io.live := rfl
@[simp] theorem State.withWrite_caller (s : State) (w : Option WriteProgress) : (s.withWrite w).io.caller = s.io.caller := rfl
@[simp] theorem State.withWrite_fetch (s : State) (w : Option WriteProgress) : (s.withWrite w).io.fetch = s.io.fetch := rfl
@[simp] theorem State.withWrite_write (s : State) (w : Option WriteProgress) : (s.withWrite w).io.write = w := rfl
@[simp] theorem State.withWrite_turns (s : State) (w : Option WriteProgress) : (s.withWrite w).io.turns = s.io.turns := rfl
@[simp] theorem State.withWrite_inbox (s : State) (w : Option WriteProgress) : (s.withWrite w).io.inbox = s.io.inbox := rfl
@[simp] theorem State.withWrite_outbox (s : State) (w : Option WriteProgress) : (s.withWrite w).io.outbox = s.io.outbox := rfl
@[simp] theorem State.withWrite_refusals (s : State) (w : Option WriteProgress) : (s.withWrite w).io.refusals = s.io.refusals := rfl

@[simp] theorem State.issuing_params (s : State) (a : Agent) (c : Command) : (s.issuing a c).params = s.params := rfl
@[simp] theorem State.issuing_rb (s : State) (a : Agent) (c : Command) : (s.issuing a c).rb = s.rb := rfl
@[simp] theorem State.issuing_dec (s : State) (a : Agent) (c : Command) : (s.issuing a c).dec = s.dec := rfl
@[simp] theorem State.issuing_rsmBuf (s : State) (a : Agent) (c : Command) : (s.issuing a c).rsmBuf = s.rsmBuf := rfl
@[simp] theorem State.issuing_tx (s : State) (a : Agent) (c : Command) : (s.issuing a c).tx = s.tx := rfl
@[simp] theorem State.issuing_rx (s : State) (a : Agent) (c : Command) : (s.issuing a c).rx = s.rx := rfl
@[simp] theorem State.issuing_live (s : State) (a : Agent) (c : Command) : (s.issuing a c).io.live = s.io.live := rfl
@[simp] theorem State.issuing_caller (s : State) (a : Agent) (c : Command) : (s.issuing a c).io.caller = c.ctx := rfl
@[simp] theorem State.issuing_fetch (s : State) (a : Agent) (c : Command) : (s.issuing a c).io.fetch = s.io.fetch := rfl
@[simp] theorem State.issuing_write (s : State) (a : Agent) (c : Command) : (s.issuing a c).io.write = s.io.write := rfl
@[simp] theorem State.issuing_turns (s : State) (a : Agent) (c : Command) : (s.issuing a c).io.turns = s.io.turns := rfl
@[simp] theorem State.issuing_inbox (s : State) (a : Agent) (c : Command) : (s.issuing a c).io.inbox = s.io.inbox.eraseP (fun c => decide (c.agent = a)) := rfl
@[simp] theorem State.issuing_outbox (s : State) (a : Agent) (c : Command) : (s.issuing a c).io.outbox = s.io.outbox := rfl
@[simp] theorem State.issuing_refusals (s : State) (a : Agent) (c : Command) : (s.issuing a c).io.refusals = s.io.refusals := rfl

@[simp] theorem State.constructed_params (s : State) : (s.constructed).params = s.params := rfl
@[simp] theorem State.constructed_rb (s : State) : (s.constructed).rb = .initial := rfl
@[simp] theorem State.constructed_dec (s : State) : (s.constructed).dec = .initial := rfl
@[simp] theorem State.constructed_rsmBuf (s : State) : (s.constructed).rsmBuf = [] := rfl
@[simp] theorem State.constructed_tx (s : State) : (s.constructed).tx = .initial := rfl
@[simp] theorem State.constructed_rx (s : State) : (s.constructed).rx = .initial s.params.rxNslots := rfl
@[simp] theorem State.constructed_live (s : State) : (s.constructed).io.live = true := rfl
@[simp] theorem State.constructed_caller (s : State) : (s.constructed).io.caller = s.io.caller := rfl
@[simp] theorem State.constructed_fetch (s : State) : (s.constructed).io.fetch = none := rfl
@[simp] theorem State.constructed_write (s : State) : (s.constructed).io.write = none := rfl
@[simp] theorem State.constructed_turns (s : State) : (s.constructed).io.turns = s.io.turns := rfl
@[simp] theorem State.constructed_inbox (s : State) : (s.constructed).io.inbox = s.io.inbox := rfl
@[simp] theorem State.constructed_outbox (s : State) : (s.constructed).io.outbox = s.io.outbox := rfl
@[simp] theorem State.constructed_refusals (s : State) : (s.constructed).io.refusals = s.io.refusals := rfl

theorem State.withWrite_self {s : State} (h : s.io.write = none) : s.withWrite none = s := by
  cases s with
  | mk params rb dec rsmBuf tx rx io => cases io; simp_all [State.withWrite]

theorem State.emit_nil (s : State) : s.emit [] = s := by simp [State.emit]

@[simp] theorem TxIx.other_other (i : TxIx) : TxIx.other (TxIx.other i) = i := by cases i <;> rfl

theorem TxIx.other_ne (i : TxIx) : TxIx.other i ≠ i := by cases i <;> decide

/-- The two slots are all there are. -/
theorem TxIx.eq_or_other (i j : TxIx) : j = i ∨ j = TxIx.other i := by cases i <;> cases j <;> simp [TxIx.other]

@[simp] theorem Transmit.setSlot_slot (t : Transmit) (i : TxIx) (sl : TxSlot) : (t.setSlot i sl).slot i = sl := by
  cases i <;> rfl

@[simp] theorem Transmit.setSlot_slot_other (t : Transmit) (i : TxIx) (sl : TxSlot) :
    (t.setSlot i sl).slot (TxIx.other i) = t.slot (TxIx.other i) := by cases i <;> rfl

@[simp] theorem Transmit.setSlot_active (t : Transmit) (i : TxIx) (sl : TxSlot) :
    (t.setSlot i sl).active = t.active := by cases i <;> rfl

@[simp] theorem Transmit.setSlot_timer (t : Transmit) (i : TxIx) (sl : TxSlot) :
    (t.setSlot i sl).timer = t.timer := by cases i <;> rfl

@[simp] theorem Transmit.setSlot_err (t : Transmit) (i : TxIx) (sl : TxSlot) :
    (t.setSlot i sl).err = t.err := by cases i <;> rfl

@[simp] theorem Transmit.setStatus_slot (t : Transmit) (i : TxIx) (st : SlotStatus) :
    (t.setStatus i st).slot i = { t.slot i with st := st } := by simp [Transmit.setStatus]

@[simp] theorem Transmit.setStatus_slot_other (t : Transmit) (i : TxIx) (st : SlotStatus) :
    (t.setStatus i st).slot (TxIx.other i) = t.slot (TxIx.other i) := by simp [Transmit.setStatus]

@[simp] theorem Transmit.setStatus_active (t : Transmit) (i : TxIx) (st : SlotStatus) :
    (t.setStatus i st).active = t.active := by simp [Transmit.setStatus]

@[simp] theorem Transmit.setStatus_timer (t : Transmit) (i : TxIx) (st : SlotStatus) :
    (t.setStatus i st).timer = t.timer := by simp [Transmit.setStatus]

@[simp] theorem Transmit.setStatus_err (t : Transmit) (i : TxIx) (st : SlotStatus) :
    (t.setStatus i st).err = t.err := by simp [Transmit.setStatus]

@[simp] theorem Transmit.slot_with_active (t : Transmit) (a : TxIx) (b : Bool) (i : TxIx) :
    ({ t with timer := b, active := a } : Transmit).slot i = t.slot i := by cases i <;> rfl

@[simp] theorem Transmit.slot_with_timer (t : Transmit) (b : Bool) (i : TxIx) :
    ({ t with timer := b } : Transmit).slot i = t.slot i := by cases i <;> rfl

@[simp] theorem Transmit.slot_with_err (t : Transmit) (e : Counter) (i : TxIx) :
    ({ t with err := e } : Transmit).slot i = t.slot i := by cases i <;> rfl

end Sys2Proof.Machine
end

