-- ==== Sys2Proof/Laws/Codec.lean ====
section
/-! SUPPORT. What the shared operations of the decoder can do: loading a packet, the loop of DEC_NEXT. -/

namespace Sys2Proof.Machine

/-- A packet that cannot be held leaves the store alone and the decoder exhausted (R143). -/
theorem Decoder.load_tooLong {p : Params} {pkt : List Byte} (d : Decoder) (h : p.blePktMax < pkt.length) :
    d.load p pkt = d.tooLong := by simp [Decoder.load, h]

theorem Decoder.load_fits {p : Params} {pkt : List Byte} (d : Decoder) (h : pkt.length ≤ p.blePktMax) :
    d.load p pkt = d.loaded p pkt := by simp [Decoder.load, Nat.not_lt.mpr h]

/-- Under either reading of log 12 the length a malformed packet leaves is at most its own. -/
theorem malformedLength_le (p : Params) (n : Nat) : p.malformedLength n ≤ n := by
  unfold Params.malformedLength; split <;> simp

/-- The store after a packet that fits (R141). -/
theorem Decoder.loaded_store (p : Params) (pkt : List Byte) (d : Decoder) :
    (d.loaded p pkt).buf = writeAll d.buf (slotAddrs 0 pkt.length) pkt := by
  unfold Decoder.loaded
  split
  · split
    · rfl
    · split <;> rfl
  · rfl

/-- Three kinds of packet (R141, R142, R144): normal, continuation, malformed. -/
theorem Decoder.loaded_cases (p : Params) (pkt : List Byte) (d : Decoder) :
    (∃ b0 b1 rest, pkt = b0 :: b1 :: rest ∧ hiBit b0 = true ∧ hiBit b1 = true ∧
      (d.loaded p pkt).len = pkt.length ∧ (d.loaded p pkt).pos = 2 ∧
      (d.loaded p pkt).ok = true ∧ (d.loaded p pkt).prevTs = true ∧
      (d.loaded p pkt).ts = tsFromHeader p.tsHiShift b0 ||| tsLow b1) ∨
    (∃ b0 b1 rest, pkt = b0 :: b1 :: rest ∧ hiBit b0 = true ∧ hiBit b1 = false ∧
      (d.loaded p pkt).len = pkt.length ∧ (d.loaded p pkt).pos = 1 ∧
      (d.loaded p pkt).ok = true ∧ (d.loaded p pkt).prevTs = false ∧
      (d.loaded p pkt).ts = tsFromHeader p.tsHiShift b0) ∨
    ((pkt.length < 2 ∨ ∃ b0 rest, pkt = b0 :: rest ∧ hiBit b0 = false) ∧
      (d.loaded p pkt).len = p.malformedLength pkt.length ∧ (d.loaded p pkt).pos = p.malformedLength pkt.length ∧
      (d.loaded p pkt).ok = false ∧ (d.loaded p pkt).prevTs = false ∧ (d.loaded p pkt).ts = 0) := by
  match pkt with
  | [] => right; right; simp [Decoder.loaded]
  | [b] => right; right; simp [Decoder.loaded]
  | b0 :: b1 :: rest =>
    cases h0 : hiBit b0
    · right; right; simp [Decoder.loaded, h0]
    · cases h1 : hiBit b1
      · right; left; exact ⟨b0, b1, rest, rfl, h0, h1, by simp [Decoder.loaded, h0, h1]⟩
      · left; exact ⟨b0, b1, rest, rfl, h0, h1, by simp [Decoder.loaded, h0, h1]⟩

/-- The loop of DEC_NEXT moves the cursor forward only, within the packet, and writes nothing but the cursor, the flag and the
timestamp (R145). -/
theorem Decoder.nextWithin_keeps {n : Nat} {d d' : Decoder} {b : Option Byte}
    (h : d.nextWithin n = .next (b, d')) :
    d'.buf = d.buf ∧ d'.len = d.len ∧ d'.ok = d.ok ∧ d.pos ≤ d'.pos ∧ (d.pos ≤ d.len → d'.pos ≤ d.len) := by
  induction n generalizing d with
  | zero =>
    simp only [Decoder.nextWithin, Host.Outcome.next.injEq, Prod.mk.injEq] at h
    obtain ⟨-, rfl⟩ := h
    simp
  | succ n ih =>
    simp only [Decoder.nextWithin] at h
    split at h
    · simp only [Host.Outcome.next.injEq, Prod.mk.injEq] at h
      obtain ⟨-, rfl⟩ := h
      simp
    · next hlt =>
      split at h
      · simp at h
      · split at h
        · simp only [Host.Outcome.next.injEq, Prod.mk.injEq] at h
          obtain ⟨-, rfl⟩ := h
          refine ⟨rfl, rfl, rfl, ?_, fun _ => ?_⟩ <;> simp only <;> omega
        · split at h
          · simp only [Host.Outcome.next.injEq, Prod.mk.injEq] at h
            obtain ⟨-, rfl⟩ := h
            refine ⟨rfl, rfl, rfl, ?_, fun _ => ?_⟩ <;> simp only <;> omega
          · obtain ⟨h1, h2, h3, h4, h5⟩ := ih h
            simp only at h1 h2 h3 h4 h5
            exact ⟨h1, h2, h3, by omega, fun _ => h5 (by omega)⟩

/-- The loop of DEC_NEXT is never refused. -/
theorem Decoder.nextWithin_ne_refused {n : Nat} {d : Decoder} {c : Refusal} : d.nextWithin n ≠ .refused c := by
  induction n generalizing d with
  | zero => simp [Decoder.nextWithin]
  | succ n ih =>
    simp only [Decoder.nextWithin]
    split
    · simp
    · split
      · simp
      · split
        · simp
        · split
          · simp
          · exact ih

end Sys2Proof.Machine
end

