-- ==== Sys2Proof/Laws/Decode.lean ====
section
/-! SUPPORT. The small laws of the command word's fields. -/

namespace Sys2Proof

theorem le16_lt (lo hi : Byte) : le16 lo hi < 65536 := by unfold le16; omega

/-- A 16-bit field read back. -/
theorem le16_toLe16 {n : Nat} (h : n < 65536) : le16 (BitVec.ofNat 8 n) (BitVec.ofNat 8 (n / 256)) = n := by
  simp only [le16, BitVec.toNat_ofNat]; omega

/-- A 16-bit field written back. -/
theorem toLe16_le16 (lo hi : Byte) : toLe16 (le16 lo hi) = [lo, hi] := by
  simp only [toLe16, le16, List.cons.injEq, and_true]
  constructor <;> apply BitVec.eq_of_toNat_eq <;> simp only [BitVec.toNat_ofNat] <;> omega

/-- The bytes of Messages are read as those Messages. -/
theorem messagesOf_flatMap (ms : List Message) : messagesOf (ms.flatMap Message.bytes) = some ms := by
  induction ms with
  | nil => rfl
  | cons m ms ih => simp [Message.bytes, messagesOf, ih]

/-- Messages have four bytes each. -/
theorem flatMap_bytes_length (ms : List Message) : (ms.flatMap Message.bytes).length = ms.length * msgBytes := by
  induction ms with
  | nil => rfl
  | cons m ms ih =>
    simp only [List.flatMap_cons, List.length_append, ih, List.length_cons, Message.bytes, List.length_nil,
      msgBytes]
    omega

end Sys2Proof
end

