-- ==== Sys2Proof/Laws/PerInstr.lean ====
section
/-! SUPPORT. A statement about every instruction, one lemma per constructor: the length a command word announces is the length
it has (R104, R113). -/

namespace Sys2Proof.Laws

/-- The length the encoded word announces, in its opcode and its length field, is the number of its bytes. -/
def WordLength.Statement (i : Instr) : Prop := i.wf = true → wordLength (encode i) = (encode i).length

theorem WordLength.rbPush (view : List Byte) : WordLength.Statement (.rbPush view) := by
  intro h
  simp only [Instr.wf, decide_eq_true_eq] at h
  simp [wordLength, encode, Instr.opcode, Instr.operandBytes, toLe16, le16_toLe16 h]; omega

theorem WordLength.rbPop : WordLength.Statement .rbPop := by intro _; rfl

theorem WordLength.decLoad (pkt : List Byte) : WordLength.Statement (.decLoad pkt) := by
  intro h
  simp only [Instr.wf, decide_eq_true_eq] at h
  simp [wordLength, encode, Instr.opcode, Instr.operandBytes, toLe16, le16_toLe16 h]; omega

theorem WordLength.decNext : WordLength.Statement .decNext := by intro _; rfl
theorem WordLength.decTs : WordLength.Statement .decTs := by intro _; rfl
theorem WordLength.rsmFetch : WordLength.Statement .rsmFetch := by intro _; rfl

theorem WordLength.bleEnc (ts : Timestamp) (bytes : List Byte) : WordLength.Statement (.bleEnc ts bytes) := by
  intro h
  simp only [Instr.wf, decide_eq_true_eq] at h
  simp [wordLength, encode, Instr.opcode, Instr.operandBytes, toLe16, le16_toLe16 h]; omega

theorem WordLength.txWrite (msgs : List Message) : WordLength.Statement (.txWrite msgs) := by
  intro h
  simp only [Instr.wf, decide_eq_true_eq] at h
  have := flatMap_bytes_length msgs
  simp only [wordLength, encode, Instr.opcode, Instr.operandBytes, toLe16, List.cons_append, List.nil_append,
    List.getD_cons_zero, List.getD_cons_succ, le16_toLe16 h, List.length_cons, this]
  simp; omega

theorem WordLength.txWriteNb (msgs : List Message) : WordLength.Statement (.txWriteNb msgs) := by
  intro h
  simp only [Instr.wf, decide_eq_true_eq] at h
  have := flatMap_bytes_length msgs
  simp only [wordLength, encode, Instr.opcode, Instr.operandBytes, toLe16, List.cons_append, List.nil_append,
    List.getD_cons_zero, List.getD_cons_succ, le16_toLe16 h, List.length_cons, this]
  simp; omega

theorem WordLength.txSendNow : WordLength.Statement .txSendNow := by intro _; rfl
theorem WordLength.txIsDone : WordLength.Statement .txIsDone := by intro _; rfl
theorem WordLength.txErrcnt : WordLength.Statement .txErrcnt := by intro _; rfl
theorem WordLength.txTimeout : WordLength.Statement .txTimeout := by intro _; rfl
theorem WordLength.txComplete (ok : Bool) : WordLength.Statement (.txComplete ok) := by intro _; cases ok <;> rfl
theorem WordLength.rxBegin : WordLength.Statement .rxBegin := by intro _; rfl
theorem WordLength.rxRead : WordLength.Statement .rxRead := by intro _; rfl
theorem WordLength.rxErrcnt : WordLength.Statement .rxErrcnt := by intro _; rfl

theorem WordLength.rxComplete (ok : Bool) (data : List Byte) : WordLength.Statement (.rxComplete ok data) := by
  intro h
  simp only [Instr.wf, decide_eq_true_eq] at h
  simp [wordLength, encode, Instr.opcode, Instr.operandBytes, toLe16, le16_toLe16 h]; omega

theorem WordLength.reset : WordLength.Statement .reset := by intro _; rfl

end Sys2Proof.Laws
end

