-- ==== Sys2Proof/Laws/Receive.lean ====
section
/-! SUPPORT. What the shared operations of the receive engine can do (R201, R205, R208). -/

namespace Sys2Proof.Machine

/-- A Message is the four bytes at its offset. -/
theorem readMessage_eq_next {sp : Space} {m : Memory} {a : Nat} {x : Message} :
    readMessage sp m a = .next x ↔
      m.read a = some x.b0 ∧ m.read (a + 1) = some x.b1 ∧ m.read (a + 2) = some x.b2 ∧ m.read (a + 3) = some x.b3 := by
  obtain ⟨c0, c1, c2, c3⟩ := x
  simp only [readMessage, readByte]
  cases m.read a <;> cases m.read (a + 1) <;> cases m.read (a + 2) <;> cases m.read (a + 3) <;> simp

theorem readMessage_ne_refused {sp : Space} {m : Memory} {a : Nat} {c : Refusal} :
    readMessage sp m a ≠ .refused c := by
  simp only [readMessage, readByte]
  cases m.read a <;> cases m.read (a + 1) <;> cases m.read (a + 2) <;> cases m.read (a + 3) <;> simp

/-- Lending a slot takes its bytes' values and nothing else (R70). -/
theorem Receive.start_slots (ctx : Ctx) (i : Nat) (r : Receive) (j : Nat) :
    ((r.start ctx i).1.slots)[j]? =
      if j = i then r.slots[j]?.map (fun sl => { sl with buf := [] }) else r.slots[j]? := by
  simp only [Receive.start, List.getElem?_modify]
  by_cases h : i = j
  · simp [h]
  · simp [h, Ne.symm h]

@[simp] theorem Receive.start_events (ctx : Ctx) (i : Nat) (r : Receive) : (r.start ctx i).2 = [.rxStart ctx i] := rfl
@[simp] theorem Receive.start_widx (ctx : Ctx) (i : Nat) (r : Receive) : (r.start ctx i).1.widx = r.widx := rfl
@[simp] theorem Receive.start_ridx (ctx : Ctx) (i : Nat) (r : Receive) : (r.start ctx i).1.ridx = r.ridx := rfl
@[simp] theorem Receive.start_avail (ctx : Ctx) (i : Nat) (r : Receive) : (r.start ctx i).1.avail = r.avail := rfl
@[simp] theorem Receive.start_busy (ctx : Ctx) (i : Nat) (r : Receive) : (r.start ctx i).1.busy = r.busy := rfl
@[simp] theorem Receive.start_err (ctx : Ctx) (i : Nat) (r : Receive) : (r.start ctx i).1.err = r.err := rfl
@[simp] theorem Receive.start_length (ctx : Ctx) (i : Nat) (r : Receive) :
    (r.start ctx i).1.slots.length = r.slots.length := by simp [Receive.start]

/-- Everything RX_READ can do (R205): nothing is available, the slot is drained, or its marker moves on. -/
theorem Receive.read_cases {p : Params} {r : Receive} {x : Option Message × (Receive × List Event)}
    (h : r.read p = .next x) :
    (r.avail = 0 ∧ x = (none, (r, []))) ∨
    (r.avail ≠ 0 ∧ ∃ sl m, r.slots[r.ridx]? = some sl ∧ readMessage (.rx r.ridx) sl.buf sl.off = .next m ∧
      ((sl.off + msgBytes = sl.size ∧ x = (some m, r.drained p r.ridx sl)) ∨
        (sl.off + msgBytes ≠ sl.size ∧
          x = (some m, ({ r with slots := r.slots.set r.ridx { sl with off := sl.off + msgBytes } }, []))))) := by
  simp only [Receive.read] at h
  split at h
  · next ha => exact .inl ⟨ha, by simpa [eq_comm] using h⟩
  · next ha =>
    right
    refine ⟨ha, ?_⟩
    split at h
    · simp at h
    · next sl hsl =>
      simp only [andThen_eq_next] at h
      obtain ⟨m, hm, h⟩ := h
      refine ⟨sl, m, hsl, hm, ?_⟩
      split at h
      · next he => exact .inl ⟨he, by simpa [eq_comm] using h⟩
      · next he => exact .inr ⟨he, by simpa [eq_comm] using h⟩

theorem Receive.read_ne_refused {p : Params} {r : Receive} {c : Refusal} : r.read p ≠ .refused c := by
  simp only [Receive.read]
  split
  · simp
  · split
    · simp
    · simp only [ne_eq, andThen_eq_refused, readMessage_ne_refused, false_or, not_exists, not_and]
      intro m _
      split <;> simp

/-- Everything RX_COMPLETE can do (R208): a failure is counted, a packet without a whole Message is dropped, or a packet is
stored and reception goes on while a slot is free. -/
theorem Receive.complete_cases {p : Params} {ok : Bool} {data : List Byte} {r : Receive} {x : Receive × List Event}
    (h : r.complete p ok data = .next x) :
    r.busy = true ∧ data.length ≤ p.pktBytes ∧
    ((ok = false ∧ x = Receive.start .interrupt r.widx { r with err := r.err + 1 }) ∨
      (ok = true ∧ wholeMessageBytes data.length = 0 ∧ x = r.start .interrupt r.widx) ∨
      (ok = true ∧ wholeMessageBytes data.length ≠ 0 ∧ ∃ sl, r.slots[r.widx]? = some sl ∧
        ((r.avail + 1 < p.rxNslots ∧
            x = (r.stored p data sl).start .interrupt ((r.widx + 1) % p.rxNslots)) ∨
          (p.rxNslots ≤ r.avail + 1 ∧ x = ({ r.stored p data sl with busy := false }, []))))) := by
  simp only [Receive.complete] at h
  split at h
  · simp at h
  · next hb =>
    split at h
    · simp at h
    · next hl =>
      refine ⟨by simpa using hb, by omega, ?_⟩
      split at h
      · next ho => exact .inl ⟨ho, by simpa [eq_comm] using h⟩
      · next ho =>
        have ho : ok = true := by simpa using ho
        split at h
        · next hw => exact .inr (.inl ⟨ho, hw, by simpa [eq_comm] using h⟩)
        · next hw =>
          refine .inr (.inr ⟨ho, hw, ?_⟩)
          split at h
          · simp at h
          · next sl hsl =>
            refine ⟨sl, hsl, ?_⟩
            split at h
            · next hn =>
              rw [Host.Outcome.next.injEq] at h
              exact .inl ⟨hn, h.symm⟩
            · next hn =>
              rw [Host.Outcome.next.injEq] at h
              exact .inr ⟨Nat.not_lt.mp hn, h.symm⟩

/-- RX_COMPLETE is refused exactly where R210 says. -/
theorem Receive.complete_eq_refused {p : Params} {ok : Bool} {data : List Byte} {r : Receive} {c : Refusal}
    (h : r.complete p ok data = .refused c) :
    (c = .strayRxCompletion ∧ r.busy = false) ∨
      (c = .receiveTooLong ∧ r.busy = true ∧ p.pktBytes < data.length) := by
  simp only [Receive.complete] at h
  split at h
  · next hb => exact .inl ⟨by simpa [eq_comm] using h, hb⟩
  · next hb =>
    split at h
    · next hl => exact .inr ⟨by simpa [eq_comm] using h, by simpa using hb, hl⟩
    · split at h
      · simp at h
      · split at h
        · simp at h
        · split at h
          · simp at h
          · split at h <;> simp at h

end Sys2Proof.Machine
end

