-- ==== Sys2Proof/Laws/Ring.lean ====
section
/-! SUPPORT. What the shared operations of the ring can do: reading a header, a push, a pop. -/

namespace Sys2Proof.Machine

/-- The header of the oldest record is the two bytes at rb_tail. -/
theorem Ring.headLength_eq_next {p : Params} {r : Ring} {len : Nat} :
    r.headLength p = .next len ↔
      ∃ b0 b1, r.mem.read (r.tail % p.rbCap) = some b0 ∧ r.mem.read ((r.tail + 1) % p.rbCap) = some b1 ∧
        len = le16 b0 b1 := by
  simp only [Ring.headLength, andThen_eq_next, readAll_eq_next, ringAddrs, hdrBytes, Memory.bytesAt]
  cases h0 : r.mem.read (r.tail % p.rbCap) <;> cases h1 : r.mem.read ((r.tail + 1) % p.rbCap) <;>
    simp [List.range', List.mapM_cons, h0, h1, eq_comm]

theorem Ring.headLength_ne_refused {p : Params} {r : Ring} {c : Refusal} : r.headLength p ≠ .refused c := by
  simp [Ring.headLength, andThen_eq_refused, readAll_ne_refused]

/-- A push either does not fit or stores the record. -/
theorem Ring.push_cases {p : Params} {view : List Byte} {r : Ring} :
    (p.rbCap - r.occ < psize view.length ∧ r.push p view = none) ∨
      (psize view.length ≤ p.rbCap - r.occ ∧ r.push p view = some (r.pushed p view)) := by
  by_cases h : p.rbCap - r.occ < psize view.length
  · exact .inl ⟨h, by simp [Ring.push, h]⟩
  · exact .inr ⟨by omega, by simp [Ring.push, h]⟩

/-- Everything a pop can answer (R127): None on an empty ring, the rest of a straddling record, its first part, or a whole
record. -/
theorem Ring.pop_cases {p : Params} {r : Ring} {x : Popped} (h : r.pop p = .next x) :
    (r.occ = 0 ∧ x = ⟨.none, false, [], r⟩) ∨
    (r.occ ≠ 0 ∧ ∃ len, r.headLength p = .next len ∧
      ((r.cont = true ∧ straddles p r.tail len = true ∧ ∃ out,
          r.mem.bytesAt (ringAddrs p.rbCap 0 (len - (p.rbCap - payloadStart p r.tail))) = some out ∧
          x = ⟨.continuation, false, out, r.released p len⟩) ∨
        (r.cont = false ∧ straddles p r.tail len = true ∧ ∃ out,
          r.mem.bytesAt (ringAddrs p.rbCap (payloadStart p r.tail) (p.rbCap - payloadStart p r.tail)) = some out ∧
          x = ⟨.packet, true, out, { r with cont := true }⟩) ∨
        (r.cont = false ∧ straddles p r.tail len = false ∧ ∃ out,
          r.mem.bytesAt (ringAddrs p.rbCap (payloadStart p r.tail) len) = some out ∧
          x = ⟨.packet, false, out, r.released p len⟩))) := by
  by_cases ho : r.occ = 0
  · left
    simp only [Ring.pop, ho, if_true, Host.Outcome.next.injEq] at h
    exact ⟨ho, h.symm⟩
  · right
    refine ⟨ho, ?_⟩
    simp only [Ring.pop, ho, if_false, andThen_eq_next] at h
    obtain ⟨len, hl, h⟩ := h
    refine ⟨len, hl, ?_⟩
    cases hc : r.cont <;> cases hs : straddles p r.tail len <;>
      simp only [hc, hs, if_true, if_false, Bool.false_eq_true, andThen_eq_next, readAll_eq_next, Host.Outcome.next.injEq,
        reduceCtorEq] at h
    · obtain ⟨out, ho, rfl⟩ := h; simp [ho]
    · obtain ⟨out, ho, rfl⟩ := h; simp [ho]
    · obtain ⟨out, ho, rfl⟩ := h; simp [ho]

/-- A pop is refused only where a continuation is due on a record that does not straddle (R133). -/
theorem Ring.pop_eq_refused {p : Params} {r : Ring} {c : Refusal} (h : r.pop p = .refused c) :
    c = .notStraddling ∧ r.cont = true ∧ r.occ ≠ 0 ∧
      ∃ len, r.headLength p = .next len ∧ straddles p r.tail len = false := by
  by_cases ho : r.occ = 0
  · simp [Ring.pop, ho] at h
  · simp only [Ring.pop, ho, if_false, andThen_eq_refused, Ring.headLength_ne_refused, false_or] at h
    obtain ⟨len, hl, h⟩ := h
    cases hc : r.cont <;> cases hs : straddles p r.tail len <;>
      simp only [hc, hs, if_true, if_false, Bool.false_eq_true, andThen_eq_refused, readAll_ne_refused, false_or,
        reduceCtorEq, and_false, exists_false] at h
    · simp only [Host.Outcome.refused.injEq] at h
      exact ⟨h.symm, rfl, ho, len, hl, hs⟩

/-- A pop writes neither rb_head nor rb_mem (R127). -/
theorem Ring.pop_keeps {p : Params} {r : Ring} {x : Popped} (h : r.pop p = .next x) :
    x.ring.head = r.head ∧ x.ring.mem = r.mem := by
  rcases Ring.pop_cases h with ⟨-, rfl⟩ | ⟨-, len, -, ⟨-, -, out, -, rfl⟩ | ⟨-, -, out, -, rfl⟩ | ⟨-, -, out, -, rfl⟩⟩ <;>
    exact ⟨rfl, rfl⟩

end Sys2Proof.Machine
end

