-- ==== Sys2Proof/Laws/Transmit.lean ====
section
/-! SUPPORT. What the shared operations of the transmit engine can do (R172, R174, R183, R186, R188). -/

namespace Sys2Proof.Machine

/-- A started transfer carries the slot's bytes (R110, R172). -/
theorem Transmit.start_eq_next {ctx : Ctx} {i : TxIx} {t : Transmit} {x : Transmit × List Event} :
    t.start ctx i = .next x ↔
      ∃ data, (t.slot i).buf.bytesAt (slotAddrs 0 (t.slot i).size) = some data ∧
        x = (t.setStatus i .inFlight, [.txStart ctx i (t.slot i).size data]) := by
  simp only [Transmit.start, andThen_eq_next, readAll_eq_next, Host.Outcome.next.injEq]
  constructor <;> rintro ⟨data, hd, rfl⟩ <;> exact ⟨data, hd, rfl⟩

theorem Transmit.start_ne_refused {ctx : Ctx} {i : TxIx} {t : Transmit} {c : Refusal} :
    t.start ctx i ≠ .refused c := by
  simp [Transmit.start, andThen_eq_refused, readAll_ne_refused]

/-- Everything a flush can do (R172): the slot waits while the other is InFlight, else it is started. -/
theorem Transmit.flush_cases {ctx : Ctx} {i : TxIx} {t : Transmit} {x : Transmit × List Event}
    (h : t.flush ctx i = .next x) :
    ((t.slot (TxIx.other i)).st = .inFlight ∧
      x = (Transmit.setStatus { t with timer := false, active := TxIx.other i } i .pending, t.cancelEvents)) ∨
    ((t.slot (TxIx.other i)).st ≠ .inFlight ∧ ∃ data,
      (t.slot i).buf.bytesAt (slotAddrs 0 (t.slot i).size) = some data ∧
      x = (Transmit.setStatus { t with timer := false, active := TxIx.other i } i .inFlight,
        t.cancelEvents ++ [.txStart ctx i (t.slot i).size data])) := by
  simp only [Transmit.flush] at h
  split at h
  · next hs =>
    rw [Host.Outcome.next.injEq] at h
    exact .inl ⟨hs, h.symm⟩
  · next hs =>
    right
    simp only [andThen_eq_next, Transmit.start_eq_next] at h
    obtain ⟨y, ⟨data, hd, rfl⟩, h⟩ := h
    rw [Host.Outcome.next.injEq] at h
    simp only [Transmit.slot_with_active] at hd h
    exact ⟨hs, data, hd, h.symm⟩

theorem Transmit.flush_ne_refused {ctx : Ctx} {i : TxIx} {t : Transmit} {c : Refusal} :
    t.flush ctx i ≠ .refused c := by
  simp only [Transmit.flush]
  split
  · simp
  · simp [andThen_eq_refused, Transmit.start_ne_refused]

/-- Everything `tx_append` can do (R174): blocked; the slot is filled and flushed; the timer is armed; or the Message is just
added. -/
theorem Transmit.append_cases {p : Params} {m : Message} {t : Transmit} {r : Option (Transmit × List Event)}
    (h : t.append p m = .next r) :
    ((t.slot t.active).st.busy = true ∧ r = none) ∨
    ((t.slot t.active).st.busy = false ∧ (t.slot t.active).fillSize + msgBytes ≤ p.pktBytes ∧
      (((t.slot t.active).fillSize + msgBytes = p.pktBytes ∧ ∃ x,
          (t.setSlot t.active ((t.slot t.active).appended m)).flush .ordinary t.active = .next x ∧ r = some x) ∨
        ((t.slot t.active).fillSize + msgBytes ≠ p.pktBytes ∧ (t.slot t.active).fillSize = 0 ∧
          r = some ({ t.setSlot t.active ((t.slot t.active).appended m) with timer := true }, [.timerArm])) ∨
        ((t.slot t.active).fillSize + msgBytes ≠ p.pktBytes ∧ (t.slot t.active).fillSize ≠ 0 ∧
          r = some (t.setSlot t.active ((t.slot t.active).appended m), [])))) := by
  simp only [Transmit.append] at h
  split at h
  · next hb => exact .inl ⟨hb, by simpa [eq_comm] using h⟩
  · next hb =>
    right
    refine ⟨by simpa using hb, ?_⟩
    split at h
    · simp at h
    · next hle =>
      refine ⟨by omega, ?_⟩
      split at h
      · next he =>
        simp only [andThen_eq_next, Host.Outcome.next.injEq] at h
        obtain ⟨x, hx, rfl⟩ := h
        exact .inl ⟨he, x, hx, rfl⟩
      · next he =>
        split at h
        · next hz => exact .inr (.inl ⟨he, hz, by simpa [eq_comm] using h⟩)
        · next hz => exact .inr (.inr ⟨he, hz, by simpa [eq_comm] using h⟩)

theorem Transmit.append_ne_refused {p : Params} {m : Message} {t : Transmit} {c : Refusal} :
    t.append p m ≠ .refused c := by
  simp only [Transmit.append]
  split
  · simp
  · split
    · simp
    · split
      · simp [andThen_eq_refused, Transmit.flush_ne_refused]
      · split <;> simp

/-- Everything TX_COMPLETE can do (R188): the InFlight slot is freed, and the Pending one, if there is one, is started. -/
theorem Transmit.complete_cases {ok : Bool} {t : Transmit} {x : Transmit × List Event} (h : t.complete ok = .next x) :
    ∃ i, t.inFlightSlot = some i ∧
      (((t.slot (TxIx.other i)).st = .pending ∧ ∃ data,
          (t.slot (TxIx.other i)).buf.bytesAt (slotAddrs 0 (t.slot (TxIx.other i)).size) = some data ∧
          x = ((t.freed ok i).setStatus (TxIx.other i) .inFlight,
            [.txStart .interrupt (TxIx.other i) (t.slot (TxIx.other i)).size data])) ∨
        ((t.slot (TxIx.other i)).st ≠ .pending ∧ x = (t.freed ok i, []))) := by
  simp only [Transmit.complete] at h
  split at h
  · simp at h
  · next i hi =>
    refine ⟨i, hi, ?_⟩
    have hslot : (t.freed ok i).slot (TxIx.other i) = t.slot (TxIx.other i) := by cases i <;> rfl
    simp only [hslot] at h
    split at h
    · next hp =>
      rw [Transmit.start_eq_next, hslot] at h
      exact .inl ⟨hp, h⟩
    · next hp => exact .inr ⟨hp, by simpa [eq_comm] using h⟩

/-- The slot that a completion answers is InFlight. -/
theorem Transmit.inFlightSlot_some {t : Transmit} {i : TxIx} (h : t.inFlightSlot = some i) :
    (t.slot i).st = .inFlight := by
  simp only [Transmit.inFlightSlot] at h
  split at h
  · next h0 => obtain rfl : TxIx.zero = i := by simpa using h
               exact h0
  · split at h
    · next h1 => obtain rfl : TxIx.one = i := by simpa using h
                 exact h1
    · simp at h

/-- A completion is refused exactly where no slot is InFlight (R189 (b)). -/
theorem Transmit.complete_eq_refused {ok : Bool} {t : Transmit} {c : Refusal} (h : t.complete ok = .refused c) :
    c = .strayTxCompletion ∧ t.inFlightSlot = none := by
  simp only [Transmit.complete] at h
  split at h
  · next hi => exact ⟨by simpa [eq_comm] using h, hi⟩
  · split at h
    · exact absurd h Transmit.start_ne_refused
    · simp at h

/-- Everything TX_TIMEOUT can do (R186): nothing, or a flush that cancels no timer. -/
theorem Transmit.timeout_cases {t : Transmit} {x : Transmit × List Event} (h : t.timeout = .next x) :
    (t.timer = false ∧ x = (t, [])) ∨
      (t.timer = true ∧ Transmit.flush .timer t.active { t with timer := false } = .next x) := by
  simp only [Transmit.timeout] at h
  split at h
  · next ht => exact .inl ⟨ht, by simpa [eq_comm] using h⟩
  · next ht => exact .inr ⟨by simpa using ht, h⟩

/-- Everything TX_SEND_NOW can do (R183): flush the Filling slot, start an empty transfer where the parameter allows it, or
nothing. -/
theorem Transmit.sendNow_cases {p : Params} {t : Transmit} {x : Transmit × List Event} (h : t.sendNow p = .next x) :
    ((t.slot t.active).st = .filling ∧ t.flush .ordinary t.active = .next x) ∨
    ((t.slot t.active).st = .free ∧ p.txSendEmpty = true ∧
      (t.setSlot t.active { t.slot t.active with st := .filling, size := 0 }).flush .ordinary t.active = .next x) ∨
    ((t.slot t.active).st ≠ .filling ∧ ((t.slot t.active).st = .free → p.txSendEmpty = false) ∧ x = (t, [])) := by
  simp only [Transmit.sendNow] at h
  split at h
  · next hf => exact .inl ⟨hf, h⟩
  · next hf =>
    split at h
    · next he => exact .inr (.inl ⟨he.1, he.2, h⟩)
    · next he =>
      refine .inr (.inr ⟨hf, fun h0 => ?_, by simpa [eq_comm] using h⟩)
      cases hp : p.txSendEmpty
      · rfl
      · exact absurd ⟨h0, hp⟩ he

end Sys2Proof.Machine
end

