-- ==== Sys2Proof/Laws/Step.lean ====
section
/-! SUPPORT. What the command interface and one turn can do. -/

namespace Sys2Proof.Machine

/-- What the interface makes of an outcome: its next state, or the answer 0xEE to a refusal of R243. -/
theorem settle_eq_next {p : Port} {s t : State} {o : Answer State} :
    settle p s o = .next t ↔ o = .next t ∨ ∃ r, o = .refused r ∧ r.answered = true ∧ t = s.refuse p r := by
  cases o with
  | next a => simp [settle]
  | fault r => simp [settle]
  | refused r =>
    cases h : r.answered
    · simp [settle, h]
    · simp only [settle, h, if_true, Host.Outcome.next.injEq, reduceCtorEq, Host.Outcome.refused.injEq, false_or]
      exact ⟨fun e => ⟨r, rfl, h, e.symm⟩, by rintro ⟨_, rfl, -, rfl⟩; rfl⟩

/-- Everything the arrival of a word can do: it is refused at once, or its operation is executed. -/
theorem serve_cases {p : Port} {word : List Byte} {s t : State} (h : serve p word s = .next t) :
    (∃ r, r.answered = true ∧ t = s.refuse p r) ∨
      ∃ i, decode word = .ok i ∧ i.port = p ∧ (s.io.live = true ∨ i = .reset) ∧ exec i s = .next t := by
  simp only [serve] at h
  split at h
  · next e he => exact .inl ⟨.badWord e, rfl, by simpa [eq_comm] using h⟩
  · next i hi =>
    split at h
    · exact .inl ⟨.wrongPort, rfl, by simpa [eq_comm] using h⟩
    · next hp =>
      split at h
      · exact .inl ⟨.notConstructed, rfl, by simpa [eq_comm] using h⟩
      · next hl =>
        rcases settle_eq_next.mp h with h | ⟨r, -, ha, ht⟩
        · refine .inr ⟨i, hi, by simpa using hp, ?_, h⟩
          cases hv : s.io.live
          · exact .inr (by simpa [hv] using hl)
          · exact .inl rfl
        · exact .inl ⟨r, ha, ht⟩

/-- Everything a turn can do: the agent goes on with its operation, has nothing to issue, or issues a command. -/
theorem actAs_cases {a : Agent} {s t : State} (h : actAs a s = .next t) :
    (s.inside a = true ∧ continueOperation a s = .next t) ∨
    (s.inside a = false ∧ s.nextCommand a = none ∧ t = s) ∨
    (s.inside a = false ∧ ∃ c, s.nextCommand a = some c ∧ serve a.port c.word (s.issuing a c) = .next t) := by
  simp only [actAs] at h
  split at h
  · next hi => exact .inl ⟨hi, h⟩
  · next hi =>
    have hi : s.inside a = false := by simpa using hi
    split at h
    · next hc => exact .inr (.inl ⟨hi, hc, by simpa [eq_comm] using h⟩)
    · next c hc => exact .inr (.inr ⟨hi, c, hc, h⟩)

/-- The operation an agent is inside is one of two. -/
theorem continueOperation_cases {a : Agent} {s t : State} (h : continueOperation a s = .next t) :
    (a = .ringConsumer ∧ ∃ f, s.io.fetch = some f ∧ continueFetch f s = .next t) ∨
    (a = .txForeground ∧ ∃ w, s.io.write = some w ∧ writeStep w s = .next t) ∨ t = s := by
  cases a <;> cases hf : s.io.fetch <;> cases hw : s.io.write <;>
    simp_all [continueOperation, eq_comm]

/-- Everything one step of a write can do (R176, R180): the next Message is accepted, a TX_WRITE holds, a TX_WRITE_NB ends. -/
theorem writeStep_cases {w : WriteProgress} {s t : State} (h : writeStep w s = .next t) :
    (w.rest = [] ∧ t = finishWrite w s) ∨
    ∃ m ms, w.rest = m :: ms ∧
      ((∃ x, s.tx.append s.params m = .next (some x) ∧
          t = acceptedOne { w with rest := ms, accepted := w.accepted + 1 } (s.withTx x)) ∨
        (s.tx.append s.params m = .next none ∧
          ((w.blocking = true ∧ t = s.withWrite (some w)) ∨ (w.blocking = false ∧ t = finishWrite w s)))) := by
  cases hr : w.rest with
  | nil => exact .inl ⟨rfl, by simpa [writeStep, hr, eq_comm] using h⟩
  | cons m ms =>
    right
    simp only [writeStep, hr, andThen_eq_next] at h
    obtain ⟨r, hm, h⟩ := h
    refine ⟨m, ms, rfl, ?_⟩
    cases r with
    | some x => exact .inl ⟨x, hm, by simpa [eq_comm] using h⟩
    | none =>
      refine .inr ⟨hm, ?_⟩
      cases hb : w.blocking
      · exact .inr ⟨rfl, by simpa [hb, eq_comm] using h⟩
      · exact .inl ⟨rfl, by simpa [hb, eq_comm] using h⟩

/-- Ending a write, or going on with it, touches nothing but the operation's own progress and answer. -/
theorem acceptedOne_keeps (w : WriteProgress) (s : State) :
    (acceptedOne w s).params = s.params ∧ (acceptedOne w s).rb = s.rb ∧ (acceptedOne w s).dec = s.dec ∧
      (acceptedOne w s).rsmBuf = s.rsmBuf ∧ (acceptedOne w s).tx = s.tx ∧ (acceptedOne w s).rx = s.rx := by
  unfold acceptedOne finishWrite
  split
  · split <;> simp
  · simp

/-- The same of `finishWrite`. -/
theorem finishWrite_keeps (w : WriteProgress) (s : State) :
    (finishWrite w s).params = s.params ∧ (finishWrite w s).rb = s.rb ∧ (finishWrite w s).dec = s.dec ∧
      (finishWrite w s).rsmBuf = s.rsmBuf ∧ (finishWrite w s).tx = s.tx ∧ (finishWrite w s).rx = s.rx := by
  unfold finishWrite
  split <;> simp

end Sys2Proof.Machine
end

