-- ==== Sys2Proof/Tests/Slice0.lean ====
section
/-! SUPPORT. Tests of the model, each expected value from 95_test_vectors.md or worked out by hand from the rule named; and for every
statement with hypotheses a concrete state that meets them. -/

namespace Sys2Proof.Tests

open Sys2Proof Sys2Proof.Machine

/-! ### Well-formed terms -/

/-- Each length check refuses an operand of 65536 or more items (R104: the length and count fields have 16 bits). -/
theorem test_wf_refuses_long_rbPush (n : Nat) (h : 65536 ≤ n) : (Instr.rbPush (List.replicate n 0)).wf = false := by
  simpa [Instr.wf] using h
theorem test_wf_refuses_long_decLoad (n : Nat) (h : 65536 ≤ n) : (Instr.decLoad (List.replicate n 0)).wf = false := by
  simpa [Instr.wf] using h
theorem test_wf_refuses_long_bleEnc (n : Nat) (h : 65536 ≤ n) : (Instr.bleEnc 0 (List.replicate n 0)).wf = false := by
  simpa [Instr.wf] using h
theorem test_wf_refuses_long_txWrite (n : Nat) (h : 65536 ≤ n) :
    (Instr.txWrite (List.replicate n ⟨0, 0, 0, 0⟩)).wf = false := by
  simpa [Instr.wf] using h
theorem test_wf_refuses_long_txWriteNb (n : Nat) (h : 65536 ≤ n) :
    (Instr.txWriteNb (List.replicate n ⟨0, 0, 0, 0⟩)).wf = false := by
  simpa [Instr.wf] using h
theorem test_wf_refuses_long_rxComplete (n : Nat) (h : 65536 ≤ n) :
    (Instr.rxComplete true (List.replicate n 0)).wf = false := by
  simpa [Instr.wf] using h

/-! ### Command words: one written out for every operation (R104, R105), and section 4's refused ones -/

theorem test_decode_rbPush : decode [0x01, 0x06, 0x00, 0x61, 0x62, 0x63, 0x64, 0x65, 0x66] =
    .ok (.rbPush [0x61, 0x62, 0x63, 0x64, 0x65, 0x66]) := by rfl
theorem test_decode_rbPop : decode [0x02] = .ok .rbPop := by rfl
theorem test_decode_decLoad : decode [0x10, 0x05, 0x00, 0x80, 0x80, 0x90, 0x3C, 0x7F] =
    .ok (.decLoad [0x80, 0x80, 0x90, 0x3C, 0x7F]) := by rfl
theorem test_decode_decNext : decode [0x11] = .ok .decNext := by rfl
theorem test_decode_decTs : decode [0x12] = .ok .decTs := by rfl
theorem test_decode_rsmFetch : decode [0x13] = .ok .rsmFetch := by rfl
theorem test_decode_bleEnc : decode [0x18, 0x23, 0x01, 0x02, 0x00, 0x41, 0xF7] = .ok (.bleEnc 0x0123 [0x41, 0xF7]) := by rfl
theorem test_decode_txWrite : decode [0x20, 0x02, 0x00, 0x09, 0x90, 0x01, 0x7F, 0x09, 0x90, 0x02, 0x7F] =
    .ok (.txWrite [⟨0x09, 0x90, 0x01, 0x7F⟩, ⟨0x09, 0x90, 0x02, 0x7F⟩]) := by rfl
theorem test_decode_txWriteNb : decode [0x21, 0x01, 0x00, 0x09, 0x90, 0x05, 0x7F] =
    .ok (.txWriteNb [⟨0x09, 0x90, 0x05, 0x7F⟩]) := by rfl
theorem test_decode_txSendNow : decode [0x22] = .ok .txSendNow := by rfl
theorem test_decode_txIsDone : decode [0x23] = .ok .txIsDone := by rfl
theorem test_decode_txErrcnt : decode [0x24] = .ok .txErrcnt := by rfl
theorem test_decode_txTimeout : decode [0x28] = .ok .txTimeout := by rfl
theorem test_decode_txComplete : decode [0x29, 0x00] = .ok (.txComplete false) := by rfl
theorem test_decode_rxBegin : decode [0x30] = .ok .rxBegin := by rfl
theorem test_decode_rxRead : decode [0x31] = .ok .rxRead := by rfl
theorem test_decode_rxErrcnt : decode [0x32] = .ok .rxErrcnt := by rfl
theorem test_decode_rxComplete : decode [0x39, 0x01, 0x04, 0x00, 0x09, 0x90, 0x03, 0x7F] =
    .ok (.rxComplete true [0x09, 0x90, 0x03, 0x7F]) := by rfl
theorem test_decode_reset : decode [0xFF] = .ok .reset := by rfl

theorem test_refuse_unknown : decode [0x03] = .error (.unknownOpcode 0x03) ∧ decode [0x00] = .error (.unknownOpcode 0x00) := by
  exact ⟨rfl, rfl⟩
theorem test_refuse_flags : decode [0x29, 0x02] = .error .reservedBits ∧
    decode [0x39, 0x03, 0x00, 0x00] = .error .reservedBits := by exact ⟨rfl, rfl⟩
theorem test_refuse_timestamp : decode [0x18, 0x00, 0x40, 0x01, 0x00, 0x90] = .error .reservedBits := by rfl
theorem test_refuse_length : decode [0x01, 0x03, 0x00, 0x61, 0x62] = .error .lengthMismatch ∧
    decode [0x21, 0x01, 0x00, 0x09, 0x90, 0x01] = .error .lengthMismatch := by exact ⟨rfl, rfl⟩

/-- The model's choice of log 27: bytes after a word of format N or C, and fixed fields that are not all there. -/
theorem test_refuse_extra : decode [0x02, 0x00] = .error .lengthMismatch ∧ decode [0x29, 0x01, 0x00] = .error .lengthMismatch ∧
    decode [0x29] = .error .truncated ∧ decode [] = .error .emptyWord := by exact ⟨rfl, rfl, rfl, rfl⟩

/-- The table numbers a word's bits from byte 0 up (R105): TX_COMPLETE ok = 1 is 0x0129. -/
theorem test_tableWord : decodeTableWord 16 0x0129 = some (.txComplete true) := by rfl

/-! ### States of the vectors -/

/-- The parameters of the vectors with RB_CAP = 12 and PKT_BYTES = 8. -/
def vp : Params := { Params.default with rbCap := 12, pktBytes := 8 }

/-- The block of the vectors after RESET. -/
def v0 : State := State.resetWith vp

/-- V3's ring: the record of [61 .. 66] at offset 8, which straddles. -/
def ringStraddling : Ring where
  head := 4
  tail := 8
  occ := 8
  cont := false
  mem := [(0, 0x63), (1, 0x64), (2, 0x65), (3, 0x66), (8, 0x06), (9, 0x00), (10, 0x61), (11, 0x62)]

/-- The same ring when its Continuation is due. -/
def ringDue : Ring := { ringStraddling with cont := true }

/-- The record of [61 62] at offset 0. -/
def ringPlain : Ring := { head := 4, tail := 0, occ := 4, cont := false, mem := [(0, 0x02), (1, 0x00), (2, 0x61), (3, 0x62)] }

def m1 : Message := ⟨0x09, 0x90, 0x01, 0x7F⟩
def m2 : Message := ⟨0x09, 0x90, 0x02, 0x7F⟩
def m3 : Message := ⟨0x09, 0x90, 0x03, 0x7F⟩

/-- A slot memory that holds these bytes from offset 0 on. -/
def bytesMem (bs : List Byte) : Memory := (List.range bs.length).zip bs

/-- 2.4 (b): [InFlight, Filling] size=[8,4] active=1 timer=1. -/
def txOpen : Transmit where
  slot0 := ⟨bytesMem (m1.bytes ++ m2.bytes), 8, .inFlight⟩
  slot1 := ⟨bytesMem m3.bytes, 4, .filling⟩
  active := .one
  timer := true
  err := 0

/-- 2.4 (a) row 3: [InFlight, Pending] size=[4,8] active=0. -/
def txBusy : Transmit where
  slot0 := ⟨bytesMem m1.bytes, 4, .inFlight⟩
  slot1 := ⟨bytesMem (m2.bytes ++ m3.bytes), 8, .pending⟩
  active := .zero
  timer := false
  err := 0

/-- 2.4 (a) row 1: [Filling, Free] size=[4,0] active=0 timer=1. -/
def txFirst : Transmit where
  slot0 := ⟨bytesMem m1.bytes, 4, .filling⟩
  slot1 := .initial
  active := .zero
  timer := true
  err := 0

/-- 2.5 (a) row 4: size=[8,0] widx=1 avail=1 busy=1. -/
def rxHalf : Receive where
  slots := [⟨bytesMem (m1.bytes ++ m2.bytes), 8, 0⟩, .initial]
  widx := 1
  ridx := 0
  avail := 1
  busy := true
  err := 0

/-- 2.5 (a) row 5, and row 6 for the marker: size=[8,4] off=[4,0] widx=0 avail=2 busy=0. -/
def rxFull : Receive where
  slots := [⟨bytesMem (m1.bytes ++ m2.bytes), 8, 4⟩, ⟨bytesMem (m3.bytes ++ [0xAA, 0xBB]), 4, 0⟩]
  widx := 0
  ridx := 0
  avail := 2
  busy := false
  err := 0

/-- The decoder after `DEC_LOAD [85 90 90 3C 7F 91 3D 7F]` (2.2 row 10). -/
def decRow10 : Decoder where
  buf := bytesMem [0x85, 0x90, 0x90, 0x3C, 0x7F, 0x91, 0x3D, 0x7F]
  len := 8
  pos := 2
  ok := true
  prevTs := true
  ts := 0x0510

/-- What an operation answers and sends from a state that has sent nothing. -/
def sent (o : Answer State) : Option (List Output) := (answerOf o).map (·.io.outbox)

/-- The answer on a port. -/
def answers (p : Port) (r : Response) : Option (List Output) := some [.response p r]

/-! ### One step of every operation -/

/-- 2.1 (e), first row. -/
theorem test_push_wraps : (answerOf (exec (.rbPush [0x11, 0x22]) { v0 with rb := ringStraddling })).map (·.rb) =
    some { ringStraddling with
      head := 8, occ := 12,
      mem := [(0, 0x63), (1, 0x64), (2, 0x65), (3, 0x66), (4, 0x02), (5, 0x00), (6, 0x11), (7, 0x22),
        (8, 0x06), (9, 0x00), (10, 0x61), (11, 0x62)] } := by decide
/-- R122: five bytes need psize 8 and 4 are free. -/
theorem test_push_declines : exec (.rbPush [1, 2, 3, 4, 5]) { v0 with rb := ringStraddling } =
    .next ({ v0 with rb := ringStraddling }.respond .rbp (.pushed false)) := by rfl
/-- R127's worked example, the first pop. -/
theorem test_pop_first_part : (answerOf (exec .rbPop { v0 with rb := ringStraddling })).map (fun t => (t.rb, t.io.outbox)) =
    some (ringDue, [.response .rbc (.popped .packet true [0x61, 0x62])]) := by decide
/-- R127's worked example, the second pop. -/
theorem test_pop_rest : (answerOf (exec .rbPop { v0 with rb := ringDue })).map
      (fun t => (t.rb.tail, t.rb.occ, t.rb.cont, t.io.outbox)) =
    some (4, 0, false, [.response .rbc (.popped .continuation false [0x63, 0x64, 0x65, 0x66])]) := by decide

/-- 2.2 row 9: the timestamp is assembled from both bytes. -/
theorem test_load_timestamp : (answerOf (exec (.decLoad [0xBF, 0xFF, 0x90]) v0)).map
      (fun t => (t.dec.pos, t.dec.prevTs, t.dec.ts, t.dec.ok)) = some (2, true, 0x3F7F, true) := by decide
/-- 2.2 row 6: a first byte without its high bit. -/
theorem test_load_malformed : sent (exec (.decLoad [0x7F, 0x80, 0x90]) v0) = answers .cod (.loaded false) := by decide
/-- R221's reading of a malformed packet: dec_len is 0 (log 12; R141's is its length). -/
theorem test_load_malformed_length : (answerOf (exec (.decLoad [0x7F, 0x80, 0x90])
      { v0 with params := { vp with malformedKeepsLen := false } })).map (fun t => (t.dec.len, t.dec.pos)) = some (0, 0) := by decide
/-- 2.2 row 10: 0x91 is consumed as a timestamp and 3D emitted. -/
theorem test_next_skips_timestamp : (answerOf (exec .decNext { v0 with dec := { decRow10 with pos := 5, prevTs := false } })).map
      (fun t => (t.dec.pos, t.dec.ts, t.io.outbox)) =
    some (7, 0x0511, [.response .cod (.nextByte (some 0x3D))]) := by decide
/-- 2.2 row 10: the status after the timestamp-low byte. -/
theorem test_next_status : (answerOf (exec .decNext { v0 with dec := decRow10 })).map
      (fun t => (t.dec.pos, t.dec.prevTs, t.io.outbox)) =
    some (3, false, [.response .cod (.nextByte (some 0x90))]) := by decide
/-- 2.2 row 10 after its load. -/
theorem test_ts : sent (exec .decTs { v0 with dec := decRow10 }) = answers .cod (.timestamp 0x0510) := by decide
/-- R152 step 1 on V3's ring: the first part is staged, nothing is answered yet. -/
theorem test_fetch_stages : (answerOf (exec .rsmFetch { v0 with rb := ringStraddling })).map
      (fun t => (t.rsmBuf, t.rb.cont, t.io.outbox)) = some ([(0, 0x61), (1, 0x62)], true, []) := by decide
/-- R153 (b). -/
theorem test_fetch_refuses_mixed : exec .rsmFetch { v0 with rb := ringDue } = .refused .mixedConsumer := by rfl
/-- 2.3 row 4. -/
theorem test_encode_continuation : sent (exec (.bleEnc 0x0123 [0x41, 0xF7]) v0) =
    answers .cod (.encoded (some [0x81, 0x41, 0xA3, 0xF7])) := by decide
/-- 2.3 row 11. -/
theorem test_encode_too_long : sent (exec (.bleEnc 0 (List.replicate 10 0x90)) v0) = answers .cod (.encoded none) := by decide

/-- 2.4 (a) row 1. -/
theorem test_write_arms : (answerOf (exec (.txWriteNb [m1]) v0)).map (fun t => (t.tx, t.io.outbox)) =
    some (txFirst, [.event .timerArm, .response .txf (.accepted 1)]) := by decide
/-- R172, R174: the second Message fills slot 0, which starts at once. -/
theorem test_write_fills : (answerOf (exec (.txWrite [m2]) { v0 with tx := txFirst })).map
      (fun t => (t.tx.slot0.st, t.tx.active, t.tx.timer, t.io.outbox)) =
    some (.inFlight, .one, false,
      [.event .timerCancel, .event (.txStart .ordinary .zero 8 (m1.bytes ++ m2.bytes))]) := by decide
/-- R176: a TX_WRITE of one Message that does not fill the slot ends with no answer. -/
theorem test_txWrite_ends : (answerOf (exec (.txWrite [m1]) v0)).map (fun t => (t.tx, t.io.write, t.io.outbox)) =
    some (txFirst, none, [.event .timerArm]) := by decide
/-- 2.4 (a) row 3, its second step: the last Message fills slot 1, which waits, and the count is answered. -/
theorem test_write_later_step : (answerOf (continueOperation .txForeground
      { v0 with tx := txOpen, io := { v0.io with write := some ⟨false, [m1], 1⟩ } })).map
      (fun t => (t.tx.slot1.st, t.tx.active, t.io.write, t.io.outbox)) =
    some (.pending, .zero, none, [.event .timerCancel, .response .txf (.accepted 2)]) := by decide
/-- 2.4 (a) row 4. -/
theorem test_write_blocked : exec (.txWriteNb [m1]) { v0 with tx := txBusy } =
    .next ({ v0 with tx := txBusy }.respond .txf (.accepted 0)) := by rfl
/-- 2.4 (a) row 7: the other slot is in flight, so the flushed one waits. -/
theorem test_sendNow_waits : (answerOf (exec .txSendNow { v0 with tx := txOpen })).map
      (fun t => (t.tx.slot1.st, t.tx.active, t.tx.timer, t.io.outbox)) =
    some (.pending, .zero, false, [.event .timerCancel]) := by decide
/-- 2.4 (e), first row. -/
theorem test_sendNow_empty : (answerOf (exec .txSendNow { v0 with params := { vp with txSendEmpty := true } })).map
      (fun t => (t.tx.slot0.st, t.tx.active, t.io.outbox)) =
    some (.inFlight, .one, [.event (.txStart .ordinary .zero 0 [])]) := by decide
/-- 2.4 (a) row 4. -/
theorem test_isDone : sent (exec .txIsDone { v0 with tx := txBusy }) = answers .txf (.done false) := by decide
/-- R185: a Filling slot counts as done. -/
theorem test_isDone_filling : sent (exec .txIsDone { v0 with tx := txFirst }) = answers .txf (.done true) := by decide
/-- R192. -/
theorem test_txErrcnt : sent (exec .txErrcnt { v0 with tx := { txOpen with err := 3 } }) = answers .txf (.errorCount 3) := by
  decide
/-- 2.4 (a) row 2. -/
theorem test_timeout_starts : (answerOf (exec .txTimeout { v0 with tx := txFirst })).map
      (fun t => (t.tx.slot0.st, t.tx.active, t.tx.timer, t.io.outbox)) =
    some (.inFlight, .one, false, [.event (.txStart .timer .zero 4 m1.bytes)]) := by decide
/-- 2.4 (b), the first order. -/
theorem test_timeout_waits : (answerOf (exec .txTimeout { v0 with tx := txOpen })).map
      (fun t => (t.tx.slot1.st, t.tx.active, t.tx.timer, t.io.outbox)) = some (.pending, .zero, false, []) := by decide
/-- 2.4 (a) row 5. -/
theorem test_complete_starts_pending : (answerOf (exec (.txComplete true) { v0 with tx := txBusy })).map
      (fun t => (t.tx.slot0.st, t.tx.slot0.size, t.tx.slot1.st, t.io.outbox)) =
    some (.free, 0, .inFlight, [.event (.txStart .interrupt .one 8 (m2.bytes ++ m3.bytes))]) := by decide
/-- R188 and R244: the counter wraps. -/
theorem test_complete_counts : (answerOf (exec (.txComplete false)
      { v0 with tx := { txOpen with err := 0xFFFFFFFF } })).map (fun t => (t.tx.err, t.tx.slot1.st)) =
    some (0, .filling) := by decide

/-- 2.5 (a) row 2. -/
theorem test_begin : (answerOf (exec .rxBegin v0)).map (fun t => (t.rx.busy, t.io.outbox)) =
    some (true, [.event (.rxStart .ordinary 0)]) := by decide
/-- 2.5 (a) row 7: the slot is drained, and the idle engine lends it again. -/
theorem test_read_drains : (answerOf (exec .rxRead { v0 with rx := rxFull })).map
      (fun t => (t.rx.ridx, t.rx.avail, t.rx.busy, t.io.outbox)) =
    some (1, 1, true, [.event (.rxStart .ordinary 0), .response .rxf (.message (some m2))]) := by decide
/-- 2.5 (a) row 6. -/
theorem test_read_advances : (answerOf (exec .rxRead { v0 with rx := rxHalf })).map
      (fun t => (t.rx.avail, t.rx.slots.map (·.off), t.io.outbox)) =
    some (1, [4, 0], [.response .rxf (.message (some m1))]) := by decide
/-- R212. -/
theorem test_rxErrcnt : sent (exec .rxErrcnt { v0 with rx := { rxHalf with err := 7 } }) = answers .rxf (.errorCount 7) := by
  decide
/-- 2.5 (a) row 5: the partial Message AA BB is dropped, every slot is full. -/
theorem test_rxComplete_full : (answerOf (exec (.rxComplete true (m3.bytes ++ [0xAA, 0xBB])) { v0 with rx := rxHalf })).map
      (fun t => (t.rx.slots.map (·.size), t.rx.widx, t.rx.avail, t.rx.busy, t.io.outbox)) =
    some ([8, 4], 0, 2, false, []) := by decide
/-- 2.5 (a) row 12. -/
theorem test_rxComplete_failed : (answerOf (exec (.rxComplete false m3.bytes) { v0 with rx := rxHalf })).map
      (fun t => (t.rx.err, t.rx.avail, t.io.outbox)) = some (1, 1, [.event (.rxStart .interrupt 1)]) := by decide

/-- R250: cursors and counters go back to 0, the parameters stay. -/
theorem test_reset : (answerOf (exec .reset { v0 with rb := ringDue, dec := decRow10 })).map
      (fun t => (t.rb, t.dec.pos, t.params.rbCap)) = some (.initial, 0, 12) := by decide
/-- R251: a transfer is in flight. -/
theorem test_reset_refused : exec .reset { v0 with tx := txOpen } = .refused .resetNotIdle := by rfl

/-- Section 4: `29 01` while no slot is InFlight is answered EE. -/
theorem test_step_answers_refusal : sent (step (v0.withFetchWord 16 0x0129)) = answers .txb .refused := by decide
/-- Section 4, for contrast: `01 00 00` answers 01. -/
theorem test_step_runs_word : sent (step (v0.withFetchWord 24 0x000001)) = answers .rbp (.pushed true) := by decide

/-- 2.1 (g): the response bytes of V3's first pop. -/
theorem test_response_bytes : (Response.popped .packet true [0x61, 0x62]).bytes = [0x05, 0x02, 0x00, 0x61, 0x62] := by decide
/-- R110, and 2.4 (a) row 2. -/
theorem test_event_bytes : (Event.txStart .timer .zero 4 m1.bytes).bytes =
    [0x80, 0x01, 0x00, 0x04, 0x00, 0x09, 0x90, 0x01, 0x7F] := by decide

/-! ### Sound states of the vectors, for the hypotheses of the statements -/

theorem vp_wf : vp.wf = true := by decide

theorem ringStraddling_records : ringStraddling.records vp = some [[0x61, 0x62, 0x63, 0x64, 0x65, 0x66]] := by decide

theorem ringStraddling_sound : ringStraddling.Sound vp where
  occ_le := by decide
  tail_lt := by decide
  head_eq := by decide
  tail_even := by decide
  occ_even := by decide
  records_some := by decide
  cont_straddles := fun h => absurd h (by decide)
  mem_within := ⟨by decide, by decide⟩

theorem ringDue_sound : ringDue.Sound vp where
  occ_le := by decide
  tail_lt := by decide
  head_eq := by decide
  tail_even := by decide
  occ_even := by decide
  records_some := by decide
  cont_straddles := fun _ => ⟨by decide, _, _, ringStraddling_records, by decide⟩
  mem_within := ⟨by decide, by decide⟩

theorem ringPlain_sound : ringPlain.Sound vp where
  occ_le := by decide
  tail_lt := by decide
  head_eq := by decide
  tail_even := by decide
  occ_even := by decide
  records_some := by decide
  cont_straddles := fun h => absurd h (by decide)
  mem_within := ⟨by decide, by decide⟩

theorem ringInitial_sound : Ring.initial.Sound vp where
  occ_le := by decide
  tail_lt := by decide
  head_eq := by decide
  tail_even := by decide
  occ_even := by decide
  records_some := by decide
  cont_straddles := fun h => absurd h (by decide)
  mem_within := ⟨by decide, by decide⟩

theorem decRow10_sound : decRow10.Sound vp where
  len_le := by decide
  pos_le := by decide
  written := by unfold Memory.written; decide
  buf_within := ⟨by decide, by decide⟩

/-- A slot that is sound by inspection. -/
theorem slot_sound {sl : TxSlot}
    (h : sl.size ≤ 8 ∧ sl.size % 4 = 0 ∧ (sl.st = .free → sl.size = 0) ∧ (∀ a < sl.size, (sl.buf.read a).isSome = true) ∧
      sl.buf.wf ∧ ∀ c ∈ sl.buf, c.1 < 8) : sl.Sound vp where
  size_le := h.1
  size_mult := h.2.1
  free_empty := h.2.2.1
  written := h.2.2.2.1
  buf_within := h.2.2.2.2

theorem forall_slot {P : TxIx → Prop} (h0 : P .zero) (h1 : P .one) : ∀ i, P i
  | .zero => h0
  | .one => h1

theorem txOpen_sound : txOpen.Sound vp where
  slot_sound := forall_slot (slot_sound (by decide)) (slot_sound (by decide))
  one_inFlight := forall_slot (by decide) (by decide)
  pending_waits := forall_slot (by decide) (by decide)
  filling_active := forall_slot (by decide) (by decide)
  active_open := by decide
  timer_filling := by decide

theorem txBusy_sound : txBusy.Sound vp where
  slot_sound := forall_slot (slot_sound (by decide)) (slot_sound (by decide))
  one_inFlight := forall_slot (by decide) (by decide)
  pending_waits := forall_slot (by decide) (by decide)
  filling_active := forall_slot (by decide) (by decide)
  active_open := by decide
  timer_filling := by decide

theorem rxHalf_sound : rxHalf.Sound vp where
  slots_length := rfl
  ridx_lt := by decide
  widx_eq := by decide
  avail_le := by decide
  busy_free := by decide
  available_sound := by
    rintro (_ | _ | s) sl h ⟨j, hj, e⟩
    · obtain rfl : (⟨bytesMem (m1.bytes ++ m2.bytes), 8, 0⟩ : RxSlot) = sl := by simpa [rxHalf] using h
      exact ⟨⟨by decide, by decide, by decide, by unfold Memory.written; decide⟩, fun h => absurd rfl h⟩
    · obtain rfl : j = 0 := by simpa [rxHalf] using hj
      exact absurd e (by decide)
    · simp [rxHalf] at h
  rest_empty := by
    rintro (_ | _ | s) sl h ha
    · exact absurd ⟨0, by decide, by decide⟩ ha
    · obtain rfl : RxSlot.initial = sl := by simpa [rxHalf] using h
      decide
    · simp [rxHalf] at h
  size_le := by
    rintro (_ | _ | s) sl h
    · obtain rfl : (⟨bytesMem (m1.bytes ++ m2.bytes), 8, 0⟩ : RxSlot) = sl := by simpa [rxHalf] using h
      decide
    · obtain rfl : RxSlot.initial = sl := by simpa [rxHalf] using h
      decide
    · simp [rxHalf] at h
  buf_within := by
    rintro (_ | _ | s) sl h
    · obtain rfl : (⟨bytesMem (m1.bytes ++ m2.bytes), 8, 0⟩ : RxSlot) = sl := by simpa [rxHalf] using h
      exact ⟨by decide, by decide⟩
    · obtain rfl : RxSlot.initial = sl := by simpa [rxHalf] using h
      exact ⟨by decide, by decide⟩
    · simp [rxHalf] at h

theorem rxFull_sound : rxFull.Sound vp where
  slots_length := rfl
  ridx_lt := by decide
  widx_eq := by decide
  avail_le := by decide
  busy_free := by decide
  available_sound := by
    rintro (_ | _ | s) sl h -
    · obtain rfl : (⟨bytesMem (m1.bytes ++ m2.bytes), 8, 4⟩ : RxSlot) = sl := by simpa [rxFull] using h
      exact ⟨⟨by decide, by decide, by decide, by unfold Memory.written; decide⟩, fun h => absurd rfl h⟩
    · obtain rfl : (⟨bytesMem (m3.bytes ++ [0xAA, 0xBB]), 4, 0⟩ : RxSlot) = sl := by simpa [rxFull] using h
      exact ⟨⟨by decide, by decide, by decide, by unfold Memory.written; decide⟩, fun _ => rfl⟩
    · simp [rxFull] at h
  rest_empty := by
    rintro (_ | _ | s) sl h ha
    · exact absurd ⟨0, by decide, by decide⟩ ha
    · exact absurd ⟨1, by decide, by decide⟩ ha
    · simp [rxFull] at h
  size_le := by
    rintro (_ | _ | s) sl h
    · obtain rfl : (⟨bytesMem (m1.bytes ++ m2.bytes), 8, 4⟩ : RxSlot) = sl := by simpa [rxFull] using h
      decide
    · obtain rfl : (⟨bytesMem (m3.bytes ++ [0xAA, 0xBB]), 4, 0⟩ : RxSlot) = sl := by simpa [rxFull] using h
      decide
    · simp [rxFull] at h
  buf_within := by
    rintro (_ | _ | s) sl h
    · obtain rfl : (⟨bytesMem (m1.bytes ++ m2.bytes), 8, 4⟩ : RxSlot) = sl := by simpa [rxFull] using h
      exact ⟨by decide, by decide⟩
    · obtain rfl : (⟨bytesMem (m3.bytes ++ [0xAA, 0xBB]), 4, 0⟩ : RxSlot) = sl := by simpa [rxFull] using h
      exact ⟨by decide, by decide⟩
    · simp [rxFull] at h

/-- A busy block: a Continuation due inside a RSM_FETCH, a packet in the decoder, a TX_WRITE held, every receive slot full. -/
def vBusy : State :=
  { v0 with
    rb := ringDue, dec := decRow10, rsmBuf := bytesMem [0x61, 0x62], tx := txBusy, rx := rxFull
    io := { v0.io with
      fetch := some ⟨2, true⟩, write := some ⟨true, [m1], 0⟩, turns := [.ringConsumer, .txForeground, .rxForeground] } }

theorem vBusy_sound : vBusy.Sound where
  params_wf := vp_wf
  rb_sound := ringDue_sound
  dec_sound := decRow10_sound
  tx_sound := txBusy_sound
  rx_sound := rxFull_sound
  fetch_sound :=
    { staged := by
        intro f h
        obtain rfl : (⟨2, true⟩ : FetchProgress) = f := by simpa [vBusy] using h
        unfold Memory.written; decide
      due := fun _ _ _ => rfl
      rsm_within := ⟨by decide, by decide⟩ }

theorem vBusy_inv : vBusy.Inv := fun _ => vBusy_sound

/-! ### A witness for every statement with hypotheses -/

theorem witness_DecodeInvertsEncode : (Instr.bleEnc 0x3FFF [0x90, 0xFF]).wf = true ∧ (Instr.rxComplete true []).wf = true := by
  decide
theorem witness_EncodeInvertsDecode : decode [0x39, 0x00, 0x01, 0x00, 0xAB] = .ok (.rxComplete false [0xAB]) := by rfl
theorem witness_ResponseBytes : ([0x61, 0x62] : List Byte).length < 65536 ∧ ([] : List Byte).length < 65536 ∧ 65535 < 65536 := by
  decide
theorem witness_EventBytes : 65535 < 65536 ∧ 255 < 256 := by decide
theorem witness_PaddedSize : 12 % 2 = 0 ∧ 10 + 2 ≤ 12 ∧ 65536 % 2 = 0 ∧ 65534 + 2 ≤ 65536 := by decide
/-- Free space 4: a view of 2 bytes fits exactly, one of 3 does not. -/
theorem witness_PushStoresOrDeclines :
    2 + 2 + 2 % 2 ≤ vp.rbCap - ringStraddling.occ ∧ vp.rbCap - ringStraddling.occ < 2 + 3 + 3 % 2 := by decide
theorem witness_PopAnswersAndReleases_empty : v0.io.fetch = none ∧ v0.rb.occ = 0 := by decide
theorem witness_PopAnswersAndReleases_whole :
    ringPlain.occ ≠ 0 ∧ ringPlain.mem.read (0 % 12) = some 2 ∧ ringPlain.mem.read ((0 + 1) % 12) = some 0 ∧
      ringPlain.cont = false ∧ 0 + 2 + 2 ≤ 12 ∧ ringPlain.mem.read ((2 + 0) % 12) = some 0x61 ∧
      ringPlain.mem.read ((2 + 1) % 12) = some 0x62 := by decide
theorem witness_PopAnswersAndReleases_first :
    ringStraddling.occ ≠ 0 ∧ ringStraddling.mem.read (8 % 12) = some 6 ∧ ringStraddling.mem.read ((8 + 1) % 12) = some 0 ∧
      ringStraddling.cont = false ∧ 12 < 10 + 6 ∧ ringStraddling.mem.read ((10 + 0) % 12) = some 0x61 ∧
      ringStraddling.mem.read ((10 + 1) % 12) = some 0x62 := by decide
theorem witness_PopAnswersAndReleases_rest :
    ringDue.occ ≠ 0 ∧ ringDue.mem.read (8 % 12) = some 6 ∧ ringDue.mem.read ((8 + 1) % 12) = some 0 ∧ ringDue.cont = true ∧
      12 < 10 + 6 ∧ (List.range 4).map (fun j => ringDue.mem.read (j % 12)) = [some 0x63, some 0x64, some 0x65, some 0x66] := by
  decide
/-- An occupied ring without its first header byte; one without its second. -/
theorem witness_PopStops_header : v0.io.fetch = none ∧ ringPlain.occ ≠ 0 ∧
    Memory.read [] (0 % 12) = none ∧ Memory.read [(0, 0x02)] (0 % 12) = some 0x02 ∧ Memory.read [(0, 0x02)] ((0 + 1) % 12) = none := by
  decide
/-- The whole record of two bytes without its last; V3's first part without its second byte; V3's rest without its last. -/
theorem witness_PopStops_payload :
    ringPlain.cont = false ∧ 1 < min 2 (12 - payloadStart vp 0) ∧
      (let m : Memory := [(0, 0x02), (1, 0x00), (2, 0x61)]
       m.read ((2 + 0) % 12) ≠ none ∧ m.read ((2 + 1) % 12) = none) ∧
    ringStraddling.cont = false ∧ 1 < min 6 (12 - payloadStart vp 8) ∧
      (let m : Memory := [(8, 0x06), (9, 0x00), (10, 0x61)]
       m.read ((10 + 0) % 12) ≠ none ∧ m.read ((10 + 1) % 12) = none) ∧
    ringDue.cont = true ∧ 12 < payloadStart vp 8 + 6 ∧ 3 < 6 - (12 - payloadStart vp 8) ∧
      (let m : Memory := [(0, 0x63), (1, 0x64), (2, 0x65), (8, 0x06), (9, 0x00)]
       (∀ i < 3, m.read ((0 + i) % 12) ≠ none) ∧ m.read ((0 + 3) % 12) = none) := by decide
/-- A continuation due on a record that ends exactly at the physical end. -/
theorem witness_PopStops_notStraddling : ringPlain.occ ≠ 0 ∧ ringPlain.mem.read (0 % 4) = some 2 ∧
    ringPlain.mem.read ((0 + 1) % 4) = some 0 ∧ ({ ringPlain with cont := true } : Ring).cont = true ∧
    payloadStart { vp with rbCap := 4 } ringPlain.tail + 2 ≤ 4 := by decide
theorem witness_PushAppendsRecord : vp.wf = true ∧ ringStraddling.Sound vp ∧
    ringStraddling.records vp = some [[0x61, 0x62, 0x63, 0x64, 0x65, 0x66]] :=
  ⟨vp_wf, ringStraddling_sound, ringStraddling_records⟩
theorem witness_PopTakesOldestRecord_empty :
    vp.wf = true ∧ Ring.initial.Sound vp ∧ Ring.initial.records vp = some [] ∧ v0.io.fetch = none :=
  ⟨vp_wf, ringInitial_sound, by decide, rfl⟩
theorem witness_PopTakesOldestRecord_whole : ringPlain.Sound vp ∧ ringPlain.records vp = some [[0x61, 0x62]] ∧
    ringPlain.cont = false ∧ straddles vp ringPlain.tail 2 = false := ⟨ringPlain_sound, by decide, by decide, by decide⟩
theorem witness_PopTakesOldestRecord_first : ringStraddling.Sound vp ∧
    ringStraddling.records vp = some [[0x61, 0x62, 0x63, 0x64, 0x65, 0x66]] ∧
    ringStraddling.cont = false ∧ straddles vp ringStraddling.tail 6 = true :=
  ⟨ringStraddling_sound, ringStraddling_records, by decide, by decide⟩
theorem witness_PopTakesOldestRecord_rest : ringDue.Sound vp ∧
    ringDue.records vp = some [[0x61, 0x62, 0x63, 0x64, 0x65, 0x66]] ∧ ringDue.cont = true :=
  ⟨ringDue_sound, by decide, rfl⟩
/-- A packet of exactly BLE_PKT_MAX bytes. -/
theorem witness_LoadWellFormedPacket :
    ((0x80 : Byte) :: 0x80 :: List.replicate 18 0).length ≤ vp.blePktMax ∧ (0x80 : Byte).getLsbD 7 = true := by decide
theorem witness_LoadDiscardsMalformed : ([0x80] : List Byte).length < 2 ∧ (0x7F : Byte).getLsbD 7 = false ∧
    vp.blePktMax < (List.replicate 21 (0x80 : Byte)).length := by decide
/-- A packet of one byte, and one of BLE_PKT_MAX bytes whose first has its high bit clear. -/
theorem witness_MalformedLengthReadings : ([0x80] : List Byte).length ≤ vp.blePktMax ∧ ([0x80] : List Byte).length < 2 ∧
    (List.replicate 20 (0x7F : Byte)).length ≤ vp.blePktMax ∧ (0x7F : Byte).getLsbD 7 = false := by decide
theorem witness_NextByteCases :
    ({ decRow10 with pos := 8 } : Decoder).len ≤ 8 ∧ decRow10.pos < decRow10.len ∧
      decRow10.buf.read 7 = some 0x7F ∧ (0x7F : Byte).getLsbD 7 = false ∧ decRow10.buf.read decRow10.pos = some 0x90 ∧
      (0x90 : Byte).getLsbD 7 = true ∧ decRow10.prevTs = true ∧
      ({ decRow10 with pos := 5, prevTs := false } : Decoder).prevTs = false ∧ decRow10.buf.read 5 = some 0x91 ∧
      (0x91 : Byte).getLsbD 7 = true := by decide
theorem witness_NextNeverMovesBack : decRow10.buf.written decRow10.len := decRow10_sound.written
theorem witness_DecoderEmitsByRoles : (List.replicate 20 (0x80 : Byte)).length ≤ vp.blePktMax := by decide
theorem witness_FetchEmptyOrMixed :
    v0.io.fetch = none ∧ v0.rb.occ = 0 ∧ ringDue.Sound vp ∧ ringDue.cont = true := ⟨rfl, rfl, ringDue_sound, rfl⟩
theorem witness_FetchJoinsAndLoads : vp.wf = true ∧ v0.io.live = true ∧ v0.io.fetch = none ∧ ringStraddling.Sound vp ∧
    ringStraddling.records vp = some ([0x61, 0x62, 0x63, 0x64, 0x65, 0x66] :: []) ∧ ringStraddling.cont = false :=
  ⟨vp_wf, rfl, rfl, ringStraddling_sound, ringStraddling_records, rfl⟩
/-- 2.3 row 12: nine bytes 0x90 take 19 of 20; and a string without a status byte. -/
theorem witness_EncodeRoundTrip :
    List.replicate 9 (0x90 : Byte) ≠ [] ∧ 1 + 9 + (List.replicate 9 (0x90 : Byte)).countP hiBit ≤ vp.blePktMax ∧
      (List.replicate 9 (0x90 : Byte)).any hiBit = true ∧ [(0x41 : Byte)] ≠ [] ∧
      1 + 1 + [(0x41 : Byte)].countP hiBit ≤ vp.blePktMax ∧ [(0x41 : Byte)].any hiBit = false := by decide
/-- 2.3 row 11: ten bytes 0x90 need 21 of 20. -/
theorem witness_EncodeDeclines : vp.blePktMax < 1 + 10 + (List.replicate 10 (0x90 : Byte)).countP hiBit := by decide
/-- A Free slot, and a Filling one of a larger packet. -/
theorem witness_WriteAddsMessage :
    v0.io.write = none ∧ (v0.tx.slot v0.tx.active).st = .free ∧ 0 + 4 < vp.pktBytes ∧
      (txFirst.slot txFirst.active).st = .filling ∧ (txFirst.slot txFirst.active).size + 4 < ({ vp with pktBytes := 12 }).pktBytes ∧
      v0.io.caller = .ordinary := by decide
/-- A slot with one Message of two, the other slot InFlight or Free, and a packet of one Message. -/
theorem witness_WriteThatFillsFlushes :
    v0.io.write = none ∧ (txOpen.slot txOpen.active).st = .filling ∧ (txOpen.slot txOpen.active).size + 4 = vp.pktBytes ∧
      (txOpen.slot txOpen.active).buf.bytesAt (slotAddrs 0 4) = some m3.bytes ∧
      (txOpen.slot txOpen.active.other).st = .inFlight ∧ (txFirst.slot txFirst.active).st = .filling ∧
      (txFirst.slot txFirst.active).size + 4 = vp.pktBytes ∧
      (txFirst.slot txFirst.active).buf.bytesAt (slotAddrs 0 4) = some m1.bytes ∧
      (txFirst.slot txFirst.active.other).st ≠ .inFlight ∧
      (v0.tx.slot v0.tx.active).st = .free ∧ 0 + 4 = ({ vp with pktBytes := 4 }).pktBytes ∧
      (v0.tx.slot v0.tx.active).buf.bytesAt (slotAddrs 0 0) = some [] := by decide
/-- The later steps of a write: a progress with the Message to append first, where the slot does not fill and where it does. -/
theorem witness_WriteLaterSteps :
    let s : State := { v0 with tx := txFirst, io := { v0.io with write := some ⟨false, [m2, m3], 1⟩ } }
    s.io.write = some ⟨false, m2 :: [m3], 1⟩ ∧ (s.tx.slot s.tx.active).st = .filling ∧
      (s.tx.slot s.tx.active).size + 4 = s.params.pktBytes ∧
      (s.tx.slot s.tx.active).buf.bytesAt (slotAddrs 0 4) = some m1.bytes ∧
      (s.tx.slot s.tx.active).size + 4 < ({ vp with pktBytes := 12 }).pktBytes := by decide
theorem witness_BusyEngineBlocks : v0.io.write = none ∧ (txBusy.slot txBusy.active).st = .inFlight ∧
    (({ txBusy with active := .one } : Transmit).slot .one).st = .pending ∧ v0.io.caller = .ordinary := by decide
theorem witness_WriteAcceptsWhatFits : vp.wf = true ∧ txOpen.Sound vp ∧ v0.io.live = true ∧ v0.io.write = none ∧
    v0.nextCommand .txForeground = none ∧ v0.io.caller = .ordinary ∧ [m1].length ≤ txOpen.room vp :=
  ⟨vp_wf, txOpen_sound, rfl, rfl, rfl, rfl, by decide⟩
theorem witness_SendNowFlushes : v0.io.write = none ∧ (txOpen.slot txOpen.active).st = .filling ∧
    (txOpen.slot txOpen.active).buf.bytesAt (slotAddrs 0 (txOpen.slot txOpen.active).size) = some m3.bytes ∧
    (v0.tx.slot v0.tx.active).st = .free ∧ ({ vp with txSendEmpty := true } : Params).txSendEmpty = true ∧
    vp.txSendEmpty = false ∧ (txBusy.slot txBusy.active).st = .inFlight := by decide
theorem witness_IsDoneIffNothingQueued : v0.io.write = none := rfl
theorem witness_ErrorCountsArePureReads : v0.io.write = none := rfl
theorem witness_TimeoutFlushes : txBusy.timer = false ∧ txOpen.timer = true ∧
    (txOpen.slot txOpen.active).buf.bytesAt (slotAddrs 0 (txOpen.slot txOpen.active).size) = some m3.bytes := by decide
theorem witness_CompletionFreesAndStarts : (∀ i, (v0.tx.slot i).st ≠ .inFlight) ∧
    (txOpen.slot .zero).st = .inFlight ∧ (txOpen.slot TxIx.zero.other).st ≠ .inFlight ∧
    (txOpen.slot TxIx.zero.other).st ≠ .pending ∧
    (txBusy.slot .zero).st = .inFlight ∧ (txBusy.slot TxIx.zero.other).st = .pending ∧
    (txBusy.slot TxIx.zero.other).buf.bytesAt (slotAddrs 0 (txBusy.slot TxIx.zero.other).size) =
      some (m2.bytes ++ m3.bytes) :=
  ⟨forall_slot (by decide) (by decide), by decide⟩
theorem witness_SlotTransitions : txBusy.Sound vp ∧ (txBusy.slot .one).st = .pending ∧ (txBusy.slot .zero).st = .inFlight ∧
    (∃ t, exec (.txComplete true) { v0 with tx := txBusy } = .next t) ∧
    txOpen.Sound vp ∧ (txOpen.slot .one).st = .filling ∧ ∃ t, exec .txTimeout { v0 with tx := txOpen } = .next t :=
  ⟨txBusy_sound, rfl, rfl, ⟨_, rfl⟩, txOpen_sound, rfl, ⟨_, rfl⟩⟩
/-- The later step of a write: the Message that fills the Filling slot. -/
theorem witness_SlotTransitions_continue : txOpen.Sound vp ∧ (txOpen.slot .one).st = .filling ∧
    ∃ t, continueOperation .txForeground
      { v0 with tx := txOpen, io := { v0.io with write := some ⟨true, [m1], 3⟩ } } = .next t := ⟨txOpen_sound, rfl, _, rfl⟩
theorem witness_OnlyCompletionLiftsHold : v0.io.live = true ∧ txBusy.Sound vp ∧ (txBusy.slot txBusy.active).st.busy = true ∧
    ∃ t, exec .txSendNow { v0 with tx := txBusy } = .next t := ⟨rfl, txBusy_sound, rfl, _, rfl⟩
theorem witness_OnlyCompletionLiftsHold_continue : vBusy.io.live = true ∧ vBusy.tx.Sound vBusy.params ∧
    (vBusy.tx.slot vBusy.tx.active).st.busy = true ∧ ∃ t, continueOperation .txForeground vBusy = .next t :=
  ⟨rfl, txBusy_sound, rfl, _, rfl⟩
theorem witness_TransmitKeepsOrder : vp.wf = true ∧ txOpen.Sound vp ∧
    (∃ t, exec (.txWriteNb [m1]) { v0 with tx := txOpen } = .next t) ∧
    ∃ t, writeStep ⟨true, [m1, m2], 3⟩ { v0 with tx := txOpen } = .next t := ⟨vp_wf, txOpen_sound, ⟨_, rfl⟩, _, rfl⟩
theorem witness_TimeoutAndCompletionCommute :
    txOpen.Sound vp ∧ txOpen.timer = true ∧ (txOpen.slot txOpen.active.other).st = .inFlight := ⟨txOpen_sound, rfl, rfl⟩
theorem witness_SecondAgentsAreRefused :
    v0.io.write = none ∧ ({ v0.io with caller := .interrupt } : Interface).caller ≠ .ordinary ∧ vBusy.io.write ≠ none ∧
      vBusy.io.fetch ≠ none ∧ Instr.txIsDone.agent = .txForeground ∧ Instr.rbPop.agent = .ringConsumer := by decide
theorem witness_BeginStartsReception : rxHalf.busy = true ∧ rxFull.avail = vp.rxNslots ∧ v0.rx.busy = false ∧
    v0.rx.avail ≠ vp.rxNslots := by decide
/-- The slot at rx_ridx with a Message to read at its marker: its four bytes, and whether it is the last. -/
def readable (r : Receive) : Option (List (Option Byte) × Bool) :=
  r.slots[r.ridx]?.map fun sl => ([0, 1, 2, 3].map fun k => sl.buf.read (sl.off + k), decide (sl.off + 4 = sl.size))
theorem witness_ReadTakesNextMessage_none : v0.rx.avail = 0 := rfl
theorem witness_ReadTakesNextMessage_kept :
    rxHalf.avail ≠ 0 ∧ readable rxHalf = some ([some m1.b0, some m1.b1, some m1.b2, some m1.b3], false) := by decide
theorem witness_ReadTakesNextMessage_drained :
    rxFull.avail ≠ 0 ∧ readable rxFull = some ([some m2.b0, some m2.b1, some m2.b2, some m2.b3], true) ∧
      rxFull.busy = false ∧ ({ rxFull with busy := true } : Receive).busy = true := by decide
/-- No receive outstanding; 9 bytes for a slot of 8; 3 bytes; 8 bytes with a free slot left, and with none. -/
theorem witness_CompletionStoresPacket :
    rxFull.busy = false ∧ rxHalf.busy = true ∧ vp.pktBytes < (List.replicate 9 (0 : Byte)).length ∧
      (List.replicate 8 (0 : Byte)).length ≤ vp.pktBytes ∧ ([1, 2, 3] : List Byte).length < 4 ∧
      4 ≤ (List.replicate 8 (0 : Byte)).length ∧ rxHalf.slots[rxHalf.widx]? = some .initial ∧
      rxHalf.avail + 1 < ({ vp with rxNslots := 3 }).rxNslots ∧ vp.rxNslots ≤ rxHalf.avail + 1 := by decide
theorem witness_ReceiveIsFifo : vp.wf = true ∧ rxHalf.Sound vp ∧ rxHalf.avail ≠ 0 ∧
    (∃ t, exec .rxRead { v0 with rx := rxHalf } = .next t) ∧
    (∃ t, exec (.rxComplete true m3.bytes) { v0 with rx := rxHalf } = .next t) ∧
    (∃ t, exec .rxBegin { v0 with rx := rxHalf } = .next t) ∧ v0.rx.avail = 0 ∧ ∃ t, exec .rxRead v0 = .next t :=
  ⟨vp_wf, rxHalf_sound, by decide, ⟨_, rfl⟩, ⟨_, rfl⟩, ⟨_, rfl⟩, rfl, _, rfl⟩
/-- The read that drains a slot of a full engine, and the completion that fills the last slot. -/
theorem witness_ReceptionStaysOutstanding : rxFull.Sound vp ∧ rxFull.avail = vp.rxNslots ∧
    (∃ t, exec .rxRead { v0 with rx := rxFull } = .next t) ∧ rxHalf.Sound vp ∧ rxHalf.busy = true ∧
    ∃ t, exec (.rxComplete true m3.bytes) { v0 with rx := rxHalf } = .next t :=
  ⟨rxFull_sound, rfl, ⟨_, rfl⟩, rxHalf_sound, rfl, _, rfl⟩
theorem witness_ResetGivesResetValues : vp.wf = true ∧ ({ v0.io with live := false } : Interface).live = false ∧
    v0.io.fetch = none ∧ v0.io.write = none ∧ (∀ i, (txFirst.slot i).st ≠ .inFlight) ∧ rxFull.busy = false ∧
    ({ txFirst with timer := false } : Transmit).timer = false :=
  ⟨vp_wf, rfl, rfl, rfl, forall_slot (by decide) (by decide), rfl, rfl⟩
theorem witness_ResetRefusedUnlessIdle : ({ vp with rbCap := 13 } : Params).wf = false ∧ vp.wf = true ∧ v0.io.live = true ∧
    vBusy.io.fetch ≠ none ∧ vBusy.io.write ≠ none ∧ (∃ i, (txOpen.slot i).st = .inFlight) ∧ rxHalf.busy = true ∧
    txFirst.timer = true := ⟨by decide, vp_wf, rfl, by decide, by decide, ⟨.zero, rfl⟩, rfl, rfl⟩
/-- The codec user pulls a byte while the transmit foreground holds. -/
theorem witness_StepRunsDecodedOperation :
    let s : State := { vBusy with io := { vBusy.io with
      turns := [.codecUser], inbox := [⟨.rxForeground, .ordinary, [0x31]⟩, ⟨.codecUser, .ordinary, [0x11]⟩] } }
    s.io.turns = .codecUser :: [] ∧ s.inside .codecUser = false ∧
      s.io.inbox.find? (fun c => decide (c.agent = .codecUser)) = some ⟨.codecUser, .ordinary, [0x11]⟩ ∧
      decode [0x11] = .ok .decNext ∧ Instr.decNext.port = Agent.codecUser.port ∧ s.io.live = true :=
  ⟨rfl, rfl, rfl, rfl, rfl, rfl⟩
theorem witness_OtherTurns : v0.io.turns = [] ∧ vBusy.io.turns = .ringConsumer :: [.txForeground, .rxForeground] ∧
    vBusy.inside .ringConsumer = true ∧ vBusy.inside .rxForeground = false ∧ ∀ c ∈ vBusy.io.inbox, c.agent ≠ .rxForeground := by
  decide
/-- The ring producer's turn, with an ill-formed word, the ring consumer's RB_POP, or its own RB_PUSH before the first RESET. -/
theorem witness_RefusedWordsAreAnswered (w : List Byte) :
    let s : State := { v0 with io := { v0.io with
      live := false, turns := [.ringProducer], inbox := [⟨.rxForeground, .ordinary, [0x31]⟩, ⟨.ringProducer, .ordinary, w⟩] } }
    s.io.turns = .ringProducer :: [] ∧ s.inside .ringProducer = false ∧
      s.io.inbox.find? (fun c => decide (c.agent = .ringProducer)) = some ⟨.ringProducer, .ordinary, w⟩ ∧
      decode [0x29, 0x02] = .error .reservedBits ∧ decode [0x02] = .ok .rbPop ∧ Instr.rbPop.port ≠ Agent.ringProducer.port ∧
      decode [0x01, 0x00, 0x00] = .ok (.rbPush []) ∧ (Instr.rbPush []).port = Agent.ringProducer.port ∧ s.io.live = false ∧
      Instr.rbPush [] ≠ .reset :=
  ⟨rfl, rfl, rfl, rfl, rfl, by decide, rfl, rfl, rfl, by decide⟩
theorem witness_UnitsAreIsolated : ∃ t, exec (.rxComplete true m3.bytes) { vBusy with rx := rxHalf } = .next t := ⟨_, rfl⟩
/-- A held write, a RSM_FETCH with its Continuation due and with none, and an agent that is inside nothing. -/
theorem witness_UnitsAreIsolated_continue :
    (∃ t, continueOperation .txForeground vBusy = .next t) ∧ vBusy.io.fetch = some ⟨2, true⟩ ∧
    (∃ t, continueOperation .ringConsumer vBusy = .next t) ∧
    (∃ t, continueOperation .ringConsumer { vBusy with io := { vBusy.io with fetch := some ⟨2, false⟩ } } = .next t) ∧
    ∃ t, continueOperation .codecUser vBusy = .next t := ⟨⟨_, rfl⟩, rfl, ⟨_, rfl⟩, ⟨_, rfl⟩, _, rfl⟩
theorem witness_ParametersNeverChange : ∃ t, step vBusy = .next t := ⟨_, rfl⟩
theorem witness_MemoriesStayCanonical :
    (vBusy.rb.mem.wf ∧ vBusy.dec.buf.wf ∧ vBusy.rsmBuf.wf ∧ vBusy.tx.slot0.buf.wf ∧ vBusy.tx.slot1.buf.wf ∧
      ∀ sl ∈ vBusy.rx.slots, sl.buf.wf) ∧ ∃ t, step vBusy = .next t := ⟨by decide, _, rfl⟩
theorem witness_StepKeepsInvariant : vBusy.Inv ∧ ∃ t, step vBusy = .next t := ⟨vBusy_inv, _, rfl⟩
theorem witness_StepNeverStops : vBusy.Inv := vBusy_inv

end Sys2Proof.Tests
end

section
/-! What an answer ensures of its next state, and the first use of it: the parameters of R6 are written by nothing. -/

namespace Sys2Proof.Machine

/-- Whatever `o` answers has `P`; nothing is claimed where it faults or is refused. -/
def Ensures {α : Type} (P : α → Prop) (o : Answer α) : Prop := ∀ a, o = .next a → P a

@[simp] theorem ensures_next {α : Type} {P : α → Prop} {a : α} : Ensures P (.next a) ↔ P a := by simp [Ensures]

@[simp] theorem ensures_refused {α : Type} (P : α → Prop) (r : Refusal) : Ensures P (.refused r) := by simp [Ensures]

theorem ensures_andThen {α β : Type} {P : β → Prop} {o : Answer α} {f : α → Answer β}
    (hf : ∀ a, o = .next a → Ensures P (f a)) : Ensures P (andThen o f) := by
  intro b hb
  obtain ⟨a, ha, hfa⟩ := andThen_eq_next.mp hb
  exact hf a ha b hfa

theorem ensures_asConsumer {P : State → Prop} {s : State} {k : Answer State}
    (hk : s.io.fetch = none → Ensures P k) : Ensures P (asConsumer s k) := by
  cases hf : s.io.fetch with
  | none => simpa [asConsumer, hf] using hk hf
  | some f => simp [asConsumer, hf]

theorem ensures_asForeground {P : State → Prop} {s : State} {k : Answer State}
    (hk : s.io.write = none → Ensures P k) : Ensures P (asForeground s k) := by
  cases hw : s.io.write with
  | none => simpa [asForeground, hw] using hk hw
  | some w => simp [asForeground, hw]

/-- Everything a step can do (R75): with no turn left nothing, else the agent whose turn it is acts. -/
theorem step_cases {s t : State} (h : step s = .next t) :
    (s.io.turns = [] ∧ t = s) ∨
      ∃ a rest, s.io.turns = a :: rest ∧ actAs a { s with io := { s.io with turns := rest } } = .next t := by
  simp only [step, takeTurn] at h
  split at h
  · next ht => exact .inl ⟨ht, by simpa [eq_comm] using h⟩
  · next a rest ht => exact .inr ⟨a, rest, ht, h⟩

/-! ### The parameters -/

/-- The answered state has the parameters of `s`. -/
abbrev KeepsParams (s : State) (o : Answer State) : Prop := Ensures (fun t => t.params = s.params) o

theorem execRbPush_keepsParams (view : List Byte) (s : State) : KeepsParams s (execRbPush view s) := by
  unfold execRbPush
  split <;> simp

theorem execRsmFetch_keepsParams (s : State) : KeepsParams s (execRsmFetch s) := by
  refine ensures_asConsumer fun _ => ensures_andThen fun x _ => ?_
  cases x.tag with
  | none => simp
  | packet => simp [stagePacket]
  | continuation => simp

theorem continueFetch_keepsParams (f : FetchProgress) (s : State) : KeepsParams s (continueFetch f s) := by
  unfold continueFetch
  split
  · refine ensures_andThen fun x _ => ?_
    cases x.tag <;> simp
  · exact ensures_andThen fun d _ => by simp

theorem writeStep_keepsParams (w : WriteProgress) (s : State) : KeepsParams s (writeStep w s) := by
  intro t h
  obtain ⟨-, rfl⟩ | ⟨m, ms, -, ⟨x, -, rfl⟩ | ⟨-, ⟨-, rfl⟩ | ⟨-, rfl⟩⟩⟩ := writeStep_cases h
  · exact (finishWrite_keeps w s).1
  · exact (acceptedOne_keeps _ _).1
  · rfl
  · exact (finishWrite_keeps w s).1

theorem execTxWrite_keepsParams (msgs : List Message) (s : State) : KeepsParams s (execTxWrite msgs s) := by
  refine ensures_asForeground fun _ => ?_
  split
  · exact writeStep_keepsParams _ s
  · simp

theorem execReset_keepsParams (s : State) : KeepsParams s (execReset s) := by
  unfold execReset
  split
  · simp
  · split <;> simp

/-- No operation writes a parameter (log 1); RESET builds the new state of the old one's parameters (R250). -/
theorem exec_keepsParams (i : Instr) (s : State) : KeepsParams s (exec i s) := by
  cases i with
  | rbPush view => exact execRbPush_keepsParams view s
  | rbPop => exact ensures_asConsumer fun _ => ensures_andThen fun _ _ => ensures_next.mpr rfl
  | decLoad pkt => exact ensures_next.mpr rfl
  | decNext => exact ensures_andThen fun _ _ => ensures_next.mpr rfl
  | decTs => exact ensures_next.mpr rfl
  | rsmFetch => exact execRsmFetch_keepsParams s
  | bleEnc ts bytes => exact ensures_next.mpr rfl
  | txWrite msgs => exact execTxWrite_keepsParams msgs s
  | txWriteNb msgs => exact ensures_asForeground fun _ => writeStep_keepsParams _ s
  | txSendNow => exact ensures_asForeground fun _ => ensures_andThen fun _ _ => ensures_next.mpr rfl
  | txIsDone => exact ensures_asForeground fun _ => ensures_next.mpr rfl
  | txErrcnt => exact ensures_asForeground fun _ => ensures_next.mpr rfl
  | txTimeout => exact ensures_andThen fun _ _ => ensures_next.mpr rfl
  | txComplete ok => exact ensures_andThen fun _ _ => ensures_next.mpr rfl
  | rxBegin => exact ensures_next.mpr rfl
  | rxRead => exact ensures_andThen fun _ _ => ensures_next.mpr rfl
  | rxErrcnt => exact ensures_next.mpr rfl
  | rxComplete ok data => exact ensures_andThen fun _ _ => ensures_next.mpr rfl
  | reset => exact execReset_keepsParams s

theorem continueOperation_keepsParams (a : Agent) (s : State) : KeepsParams s (continueOperation a s) := by
  intro t h
  obtain ⟨-, f, -, hf⟩ | ⟨-, w, -, hw⟩ | rfl := continueOperation_cases h
  · exact continueFetch_keepsParams f s t hf
  · exact writeStep_keepsParams w s t hw
  · rfl

theorem serve_keepsParams (p : Port) (word : List Byte) (s : State) : KeepsParams s (serve p word s) := by
  intro t h
  obtain ⟨r, -, rfl⟩ | ⟨i, -, -, -, hi⟩ := serve_cases h
  · exact State.refuse_params s p r
  · exact exec_keepsParams i s t hi

theorem actAs_keepsParams (a : Agent) (s : State) : KeepsParams s (actAs a s) := by
  intro t h
  obtain ⟨-, hc⟩ | ⟨-, -, rfl⟩ | ⟨-, c, -, hs⟩ := actAs_cases h
  · exact continueOperation_keepsParams a s t hc
  · rfl
  · exact serve_keepsParams a.port c.word (s.issuing a c) t hs

theorem step_keepsParams (s : State) : KeepsParams s (step s) := by
  intro t h
  obtain ⟨-, rfl⟩ | ⟨a, rest, -, ha⟩ := step_cases h
  · rfl
  · exact (actAs_keepsParams a _ t ha :)

/-- Settles O48: every way a turn can end (an operation executed, one continued, a word refused) keeps the parameters. -/
theorem parametersNeverChange : Obligations.ParametersNeverChange :=
  fun s t h => step_keepsParams s t h

end Sys2Proof.Machine
end

section
/-! The ring as a queue. `HoldsRecords` says which payloads the occupied region holds, without `walkRecords`' fuel; a push extends
it at its far end, the release of the oldest record takes its first (R26, R90 to R94). -/

namespace Sys2Proof.Machine

/-- The parameter ranges of R6, by name. -/
theorem Params.wf_iff {p : Params} : p.wf = true ↔
    p.rbCap % 2 = 0 ∧ 2 ≤ p.rbCap ∧ p.rbCap ≤ 65536 ∧
      p.pktBytes % msgBytes = 0 ∧ 0 < p.pktBytes ∧ 2 ≤ p.rxNslots ∧ 2 ≤ p.blePktMax := by
  simp [Params.wf]

/-! ### What is read at consecutive ring addresses -/

theorem Memory.bytesAt_eq_some {m : Memory} {addrs : List Nat} {bs : List Byte} :
    m.bytesAt addrs = some bs ↔ addrs.map m.read = bs.map some := by
  induction addrs generalizing bs with
  | nil => cases bs <;> simp [Memory.bytesAt]
  | cons a addrs ih =>
    simp only [Memory.bytesAt] at ih
    cases bs with
    | nil => simp [Memory.bytesAt, List.mapM_cons, Option.bind_eq_some_iff]
    | cons b bs => simp [Memory.bytesAt, List.mapM_cons, Option.bind_eq_some_iff, ← ih]

theorem Memory.bytesAt_take {m : Memory} {addrs : List Nat} {bs : List Byte} (h : m.bytesAt addrs = some bs) (k : Nat) :
    m.bytesAt (addrs.take k) = some (bs.take k) := by
  rw [Memory.bytesAt_eq_some] at h ⊢
  rw [List.map_take, h, List.map_take]

theorem Memory.bytesAt_drop {m : Memory} {addrs : List Nat} {bs : List Byte} (h : m.bytesAt addrs = some bs) (k : Nat) :
    m.bytesAt (addrs.drop k) = some (bs.drop k) := by
  rw [Memory.bytesAt_eq_some] at h ⊢
  rw [List.map_drop, h, List.map_drop]

theorem Memory.length_of_bytesAt {m : Memory} {addrs : List Nat} {bs : List Byte} (h : m.bytesAt addrs = some bs) :
    bs.length = addrs.length := by
  simpa using (congrArg List.length (Memory.bytesAt_eq_some.mp h)).symm

/-- An access starts anew where its start is reduced modulo the capacity (R62). -/
theorem ringAddrs_congr {cap a b : Nat} (h : a ≡ b [MOD cap]) (n : Nat) : ringAddrs cap a n = ringAddrs cap b n :=
  List.ext_getElem (by simp) fun i _ _ => by simpa [Nat.ModEq] using h.add_right i

theorem ringAddrs_take (cap a : Nat) {k n : Nat} (h : k ≤ n) : (ringAddrs cap a n).take k = ringAddrs cap a k :=
  List.ext_getElem (by simp [h]) fun i _ _ => by simp

theorem ringAddrs_drop (cap a k n : Nat) : (ringAddrs cap a n).drop k = ringAddrs cap (a + k) (n - k) :=
  List.ext_getElem (by simp) fun i _ _ => by simp [Nat.add_assoc]

theorem ringAddrs_append (cap a k n : Nat) : ringAddrs cap a (k + n) = ringAddrs cap a k ++ ringAddrs cap (a + k) n := by
  rw [← List.take_append_drop k (ringAddrs cap a (k + n)), ringAddrs_take _ _ (by omega), ringAddrs_drop,
    Nat.add_sub_cancel_left]

/-- Offsets less than a capacity apart are distinct ring addresses. -/
theorem ringOffset_injective {cap a i j : Nat} (hi : i < cap) (hj : j < cap) (h : (a + i) % cap = (a + j) % cap) : i = j :=
  (Nat.ModEq.add_left_cancel' a h).eq_of_lt_of_lt hi hj

theorem writeAll_append (m : Memory) {xs ys : List Nat} {as bs : List Byte} (h : xs.length = as.length) :
    writeAll m (xs ++ ys) (as ++ bs) = writeAll (writeAll m xs as) ys bs := by
  induction xs generalizing m as with
  | nil => cases as <;> simp_all [writeAll]
  | cons x xs ih =>
    cases as with
    | nil => simp at h
    | cons a as => exact ih (m.write x a) (by simpa using h)

/-! ### One record -/

@[simp] theorem headerBytes_length (n : Nat) : (headerBytes n).length = hdrBytes := rfl

theorem psize_even (len : Nat) : psize len % 2 = 0 := by simp only [psize, hdrBytes]; omega

/-- A padded record holds its header and its payload (R92). -/
theorem le_psize (len : Nat) : hdrBytes + len ≤ psize len := Nat.le_add_right _ _

/-- The record with payload `v` is stored at offset `t`: its length in the header, then its bytes (R90, R91). -/
structure Memory.RecordAt (m : Memory) (cap t : Nat) (v : List Byte) : Prop where
  length_lt : v.length < 65536
  header : m.bytesAt (ringAddrs cap t hdrBytes) = some (headerBytes v.length)
  payload : m.bytesAt (ringAddrs cap (t + hdrBytes) v.length) = some v

theorem Memory.RecordAt.congr {m : Memory} {cap t u : Nat} {v : List Byte} (h : m.RecordAt cap t v) (e : t ≡ u [MOD cap]) :
    m.RecordAt cap u v where
  length_lt := h.length_lt
  header := ringAddrs_congr e _ ▸ h.header
  payload := ringAddrs_congr (e.add_right _) _ ▸ h.payload

/-- A record depends on the bytes of its padded size only. -/
theorem Memory.RecordAt.frame {m m' : Memory} {cap t : Nat} {v : List Byte} (h : m.RecordAt cap t v)
    (hm : ∀ i < psize v.length, m'.read ((t + i) % cap) = m.read ((t + i) % cap)) : m'.RecordAt cap t v where
  length_lt := h.length_lt
  header := by
    rw [← h.header]
    refine Memory.bytesAt_congr fun a ha => ?_
    obtain ⟨i, hi, rfl⟩ := mem_ringAddrs.mp ha
    exact hm i (by have := le_psize v.length; omega)
  payload := by
    rw [← h.payload]
    refine Memory.bytesAt_congr fun a ha => ?_
    obtain ⟨i, hi, rfl⟩ := mem_ringAddrs.mp ha
    rw [Nat.add_assoc]
    exact hm _ (by have := le_psize v.length; omega)

/-- The record at an offset is determined by its header and the bytes behind it. -/
theorem Memory.recordAt_of_bytes {m : Memory} {cap t : Nat} {b0 b1 : Byte} {v : List Byte}
    (hh : m.bytesAt (ringAddrs cap t hdrBytes) = some [b0, b1])
    (hv : m.bytesAt (ringAddrs cap (t + hdrBytes) (le16 b0 b1)) = some v) : v.length = le16 b0 b1 ∧ m.RecordAt cap t v := by
  have hl : v.length = le16 b0 b1 := by simpa using Memory.length_of_bytesAt hv
  exact ⟨hl, hl ▸ le16_lt b0 b1, by rw [hh, hl, headerBytes, toLe16_le16], hl ▸ hv⟩

/-! ### The records of the occupied region -/

/-- The `left` occupied bytes from offset `t` on are exactly the records with these payloads, oldest first (R26 (d), R94). -/
def Memory.HoldsRecords (m : Memory) (cap : Nat) : (t left : Nat) → List (List Byte) → Prop
  | _, left, [] => left = 0
  | t, left, v :: rest =>
    m.RecordAt cap t v ∧ psize v.length ≤ left ∧
      Memory.HoldsRecords m cap ((t + psize v.length) % cap) (left - psize v.length) rest

/-- No occupied byte, no record: a record has at least its header. -/
@[simp] theorem Memory.holdsRecords_zero {m : Memory} {cap t : Nat} {views : List (List Byte)} :
    m.HoldsRecords cap t 0 views ↔ views = [] := by
  cases views <;> simp [Memory.HoldsRecords, psize, hdrBytes]

/-- With fuel for every occupied byte the walk finds exactly the records that are held. -/
theorem walkRecords_eq_some {m : Memory} {cap fuel t left : Nat} {views : List (List Byte)} (hf : left ≤ fuel) :
    walkRecords cap m fuel t left = some views ↔ m.HoldsRecords cap t left views := by
  induction fuel generalizing t left views with
  | zero =>
    obtain rfl : left = 0 := by omega
    simp [walkRecords, eq_comm]
  | succ fuel ih =>
    by_cases h0 : left = 0
    · simp [h0, walkRecords, eq_comm]
    have hrest (n : Nat) : left - psize n ≤ fuel := by have := le_psize n; simp only [hdrBytes] at this; omega
    constructor
    · intro h
      simp only [walkRecords, h0, if_false] at h
      split at h
      · next b0 b1 hh =>
        split at h
        · simp at h
        · next hle =>
          split at h
          · next v hv =>
            split at h
            · next rest hw =>
              obtain rfl : v :: rest = views := by simpa using h
              obtain ⟨hl, hr⟩ := Memory.recordAt_of_bytes hh hv
              rw [← hl] at hle hw
              exact ⟨hr, Nat.le_of_not_lt hle, (ih (hrest _)).mp hw⟩
            · simp at h
          · simp at h
      · simp at h
    · intro h
      cases views with
      | nil => exact absurd h h0
      | cons v rest =>
        obtain ⟨hr, hle, hh⟩ := h
        simp [walkRecords, h0, hr.header, headerBytes, toLe16, le16_toLe16 hr.length_lt, Nat.not_lt.mpr hle, hr.payload,
          (ih (hrest _)).mpr hh]

/-- The records of a ring are those its occupied region holds. -/
theorem Ring.records_eq_some {p : Params} {r : Ring} {views : List (List Byte)} :
    r.records p = some views ↔ r.mem.HoldsRecords p.rbCap r.tail r.occ views :=
  walkRecords_eq_some le_rfl

/-- The records depend on the occupied bytes only. -/
theorem Memory.HoldsRecords.frame {m m' : Memory} {cap t left : Nat} {views : List (List Byte)}
    (h : m.HoldsRecords cap t left views) (hm : ∀ i < left, m'.read ((t + i) % cap) = m.read ((t + i) % cap)) :
    m'.HoldsRecords cap t left views := by
  induction views generalizing t left with
  | nil => exact h
  | cons v rest ih =>
    obtain ⟨hr, hle, hh⟩ := h
    refine ⟨hr.frame fun i hi => hm i (by omega), hle, ih hh fun i hi => ?_⟩
    rw [Nat.mod_add_mod, Nat.add_assoc]
    exact hm _ (by omega)

/-- A record stored directly behind the occupied region is held as the last one. -/
theorem Memory.HoldsRecords.append {m : Memory} {cap t left : Nat} {views : List (List Byte)} {v : List Byte}
    (h : m.HoldsRecords cap t left views) (hv : m.RecordAt cap (t + left) v) :
    m.HoldsRecords cap t (left + psize v.length) (views ++ [v]) := by
  induction views generalizing t left with
  | nil =>
    obtain rfl : left = 0 := h
    exact ⟨hv, by omega, by simp⟩
  | cons w rest ih =>
    obtain ⟨hr, hle, hh⟩ := h
    have hnext : m.RecordAt cap ((t + psize w.length) % cap + (left - psize w.length)) v := by
      refine hv.congr ?_
      rw [Nat.ModEq, Nat.mod_add_mod]
      congr 1; omega
    refine ⟨hr, by omega, ?_⟩
    rw [Nat.sub_add_comm hle]
    exact ih hh hnext

/-! ### A push -/

/-- The bytes a push writes: one access of header and payload, as the two do not overlap. -/
theorem Ring.pushed_mem (p : Params) (view : List Byte) (r : Ring) :
    (r.pushed p view).mem =
      writeAll r.mem (ringAddrs p.rbCap r.head (hdrBytes + view.length)) (headerBytes view.length ++ view) := by
  rw [ringAddrs_append, writeAll_append _ (by simp)]
  rfl

/-- A push that fits stores its record at rb_head. -/
theorem Ring.pushed_recordAt {p : Params} {view : List Byte} (r : Ring) (hlt : view.length < 65536)
    (hfit : psize view.length ≤ p.rbCap) : (r.pushed p view).mem.RecordAt p.rbCap r.head view := by
  have hall : (r.pushed p view).mem.bytesAt (ringAddrs p.rbCap r.head (hdrBytes + view.length)) =
      some (headerBytes view.length ++ view) := by
    rw [Ring.pushed_mem]
    exact Memory.bytesAt_writeAll _ (ringAddrs_nodup ((le_psize _).trans hfit)) (by simp)
  refine ⟨hlt, ?_, ?_⟩
  · simpa [ringAddrs_take, headerBytes, toLe16] using Memory.bytesAt_take hall hdrBytes
  · simpa [ringAddrs_drop, headerBytes, toLe16] using Memory.bytesAt_drop hall hdrBytes

/-- A push that fits leaves the occupied bytes alone. -/
theorem Ring.pushed_read_occupied {p : Params} {view : List Byte} {r : Ring} (h : r.Sound p)
    (hfit : psize view.length ≤ p.rbCap - r.occ) {i : Nat} (hi : i < r.occ) :
    (r.pushed p view).mem.read ((r.tail + i) % p.rbCap) = r.mem.read ((r.tail + i) % p.rbCap) := by
  rw [Ring.pushed_mem]
  refine Memory.read_writeAll_other _ _ fun hmem => ?_
  obtain ⟨j, hj, e⟩ := mem_ringAddrs.mp hmem
  rw [h.head_eq, Nat.mod_add_mod, Nat.add_assoc] at e
  have hps := le_psize view.length
  have := ringOffset_injective (by omega) (by omega) e
  omega

/-- A push that fits appends its view to the records. -/
theorem Ring.Sound.pushed_records {p : Params} {view : List Byte} {views : List (List Byte)} {r : Ring} (h : r.Sound p)
    (hp : p.wf = true) (hv : r.records p = some views) (hfit : psize view.length ≤ p.rbCap - r.occ) :
    (r.pushed p view).records p = some (views ++ [view]) := by
  obtain ⟨-, -, hcap, -⟩ := Params.wf_iff.mp hp
  have hps := le_psize view.length
  have hlt : view.length < 65536 := by simp only [hdrBytes] at hps; omega
  rw [Ring.records_eq_some] at hv ⊢
  refine (hv.frame fun i hi => Ring.pushed_read_occupied h hfit hi).append ?_
  refine (Ring.pushed_recordAt r hlt (by omega)).congr ?_
  rw [h.head_eq]
  exact Nat.mod_modEq _ _

/-- A push that fits keeps the ring sound (R26). -/
theorem Ring.Sound.pushed {p : Params} {view : List Byte} {r : Ring} (h : r.Sound p) (hp : p.wf = true)
    (hfit : psize view.length ≤ p.rbCap - r.occ) : (r.pushed p view).Sound p := by
  obtain ⟨views, hv⟩ := Option.isSome_iff_exists.mp h.records_some
  have hps := psize_even view.length
  have hocc := h.occ_le
  have heven := h.occ_even
  have hin (n : Nat) : ∀ a ∈ ringAddrs p.rbCap r.head n, a < p.rbCap := fun a ha => by
    obtain ⟨i, -, rfl⟩ := mem_ringAddrs.mp ha
    exact Nat.mod_lt _ (by have := h.tail_lt; omega)
  refine ⟨?_, h.tail_lt, ?_, h.tail_even, ?_, ?_, ?_, ?_⟩
  · simp only [Ring.pushed]; omega
  · simp only [Ring.pushed, h.head_eq, Nat.mod_add_mod, Nat.add_assoc]
  · simp only [Ring.pushed]; omega
  · simp [h.pushed_records hp hv hfit]
  · intro hc
    obtain ⟨hpos, v, rest, hvr, hs⟩ := h.cont_straddles hc
    exact ⟨Nat.add_pos_left hpos _, v, rest ++ [view], h.pushed_records hp hvr hfit, hs⟩
  · rw [Ring.pushed_mem]
    exact Memory.within_writeAll h.mem_within (hin _) _

/-! ### A pop -/

@[simp] theorem Ring.released_cont (p : Params) (len : Nat) (r : Ring) : (r.released p len).cont = false := rfl

/-- Releasing the oldest record takes it off the records and keeps the ring sound (R128). -/
theorem Ring.Sound.released {p : Params} {v : List Byte} {rest : List (List Byte)} {r : Ring} (h : r.Sound p)
    (hp : p.wf = true) (hv : r.records p = some (v :: rest)) :
    (r.released p v.length).records p = some rest ∧ (r.released p v.length).Sound p := by
  obtain ⟨hcap, -⟩ := Params.wf_iff.mp hp
  obtain ⟨-, hle, hh⟩ := Ring.records_eq_some.mp hv
  have hrest : (r.released p v.length).records p = some rest := Ring.records_eq_some.mpr hh
  have hps := psize_even v.length
  have hocc := h.occ_le
  have heven := h.occ_even
  have htail := h.tail_even
  refine ⟨hrest, ?_, ?_, ?_, ?_, ?_, ?_, ?_, ?_⟩
  · simp only [Ring.released]; omega
  · exact Nat.mod_lt _ (by have := h.tail_lt; omega)
  · simp only [Ring.released, h.head_eq, Nat.mod_add_mod]
    congr 1; omega
  · simp only [Ring.released]
    rw [Nat.mod_mod_of_dvd _ (Nat.dvd_of_mod_eq_zero hcap)]; omega
  · simp only [Ring.released]; omega
  · simp [hrest]
  · intro hc; simp [Ring.released] at hc
  · exact h.mem_within

/-- The header at rb_tail is the oldest record's length (R91, R94). -/
theorem Ring.headLength_of_recordAt {p : Params} {v : List Byte} {r : Ring} (h : r.mem.RecordAt p.rbCap r.tail v) :
    r.headLength p = .next v.length := by
  simp [Ring.headLength, readAll_eq_next.mpr h.header, headerBytes, toLe16, le16_toLe16 h.length_lt]

/-- The ring has a record exactly where it has an occupied byte. -/
theorem Ring.occ_eq_zero_iff {p : Params} {views : List (List Byte)} {r : Ring} (hv : r.records p = some views) :
    r.occ = 0 ↔ views = [] := by
  rw [Ring.records_eq_some] at hv
  constructor
  · intro h0; simpa [h0] using hv
  · rintro rfl; exact hv

/-- Where the payload of the record at an even offset begins: behind the header, or at 0 where the header ends at the
physical end (R125). -/
theorem payloadStart_le {p : Params} {t : Nat} (hp : p.wf = true) (ht : t < p.rbCap) (he : t % 2 = 0) :
    payloadStart p t ≤ p.rbCap ∧ payloadStart p t ≡ t + hdrBytes [MOD p.rbCap] := by
  obtain ⟨hcap, -⟩ := Params.wf_iff.mp hp
  unfold payloadStart
  split
  · next h => exact ⟨Nat.zero_le _, by simp [h.1, Nat.ModEq]⟩
  · exact ⟨by simp only [hdrBytes]; omega, rfl⟩

/-- What a pop answers on a ring with a record: the rest of the oldest record, its first part, or all of it (R127). -/
def Ring.popped (p : Params) (v : List Byte) (r : Ring) : Popped :=
  let k := p.rbCap - payloadStart p r.tail
  if r.cont then ⟨.continuation, false, v.drop k, r.released p v.length⟩
  else if straddles p r.tail v.length then ⟨.packet, true, v.take k, { r with cont := true }⟩
  else ⟨.packet, false, v, r.released p v.length⟩

/-- A pop of a sound ring with a record answers from its oldest record. -/
theorem Ring.Sound.pop_eq {p : Params} {v : List Byte} {rest : List (List Byte)} {r : Ring} (h : r.Sound p)
    (hp : p.wf = true) (hv : r.records p = some (v :: rest)) : r.pop p = .next (r.popped p v) := by
  have hocc : r.occ ≠ 0 := fun h0 => by simpa using (Ring.occ_eq_zero_iff hv).mp h0
  obtain ⟨hr, -, -⟩ := Ring.records_eq_some.mp hv
  obtain ⟨hq, hqt⟩ := payloadStart_le hp h.tail_lt h.tail_even
  have hall : r.mem.bytesAt (ringAddrs p.rbCap (payloadStart p r.tail) v.length) = some v := by
    rw [ringAddrs_congr hqt]; exact hr.payload
  have hcont : r.cont = true → straddles p r.tail v.length = true := fun hc => by
    obtain ⟨-, w, ws, hw, hs⟩ := h.cont_straddles hc
    obtain rfl : v = w := by simp_all
    exact hs
  cases hs : straddles p r.tail v.length with
  | false =>
    have hc : r.cont = false := by simpa [hs] using hcont
    simp [Ring.pop, Ring.popped, hocc, Ring.headLength_of_recordAt hr, hc, hs, readAll_eq_next.mpr hall]
  | true =>
    have hk : p.rbCap - payloadStart p r.tail ≤ v.length := by
      simp only [straddles, decide_eq_true_eq] at hs; omega
    have hfirst := Memory.bytesAt_take hall (p.rbCap - payloadStart p r.tail)
    have hlast := Memory.bytesAt_drop hall (p.rbCap - payloadStart p r.tail)
    rw [ringAddrs_take _ _ hk] at hfirst
    rw [ringAddrs_drop, Nat.add_sub_cancel' hq, ringAddrs_congr Nat.modulus_modEq_zero] at hlast
    cases hc : r.cont <;>
      simp [Ring.pop, Ring.popped, hocc, Ring.headLength_of_recordAt hr, hc, hs, readAll_eq_next.mpr hfirst,
        readAll_eq_next.mpr hlast]

/-- A pop of a ring with no record answers None (R126). -/
theorem Ring.pop_empty {p : Params} {r : Ring} (h : r.records p = some []) : r.pop p = .next ⟨.none, false, [], r⟩ := by
  simp [Ring.pop, (Ring.occ_eq_zero_iff h).mpr rfl]

/-- A pop keeps the ring sound. -/
theorem Ring.Sound.popped {p : Params} {v : List Byte} {rest : List (List Byte)} {r : Ring} (h : r.Sound p)
    (hp : p.wf = true) (hv : r.records p = some (v :: rest)) : (r.popped p v).ring.Sound p := by
  unfold Ring.popped
  split
  · exact (h.released hp hv).2
  · split
    · next hs =>
      exact { h with
        cont_straddles := fun _ =>
          ⟨Nat.pos_of_ne_zero fun h0 => by simpa using (Ring.occ_eq_zero_iff hv).mp h0, v, rest, hv, hs⟩ }
    · exact (h.released hp hv).2

theorem Ring.Sound.pop {p : Params} {r : Ring} {x : Popped} (h : r.Sound p) (hp : p.wf = true) (hx : r.pop p = .next x) :
    x.ring.Sound p := by
  obtain ⟨views, hv⟩ := Option.isSome_iff_exists.mp h.records_some
  cases views with
  | nil =>
    rw [Ring.pop_empty hv, Host.Outcome.next.injEq] at hx
    exact hx ▸ h
  | cons v rest =>
    rw [h.pop_eq hp hv, Host.Outcome.next.injEq] at hx
    exact hx ▸ h.popped hp hv

@[simp] theorem State.withRb_self (s : State) : s.withRb s.rb = s := rfl

/-- Settles O10: the two arms of a push (`Ring.push_cases`). -/
theorem pushAppendsRecord : Obligations.PushAppendsRecord := by
  intro s view views hp h hv
  obtain ⟨hfull, hpush⟩ | ⟨hfit, hpush⟩ := s.rb.push_cases (p := s.params) (view := view)
  · refine ⟨s.respond .rbp (.pushed false), by simp [exec, execRbPush, hpush], h, ?_⟩
    simpa [Nat.not_le.mpr hfull] using hv
  · refine ⟨(s.withRb (s.rb.pushed s.params view)).respond .rbp (.pushed true), by simp [exec, execRbPush, hpush],
      h.pushed hp hfit, ?_⟩
    simpa [hfit] using h.pushed_records hp hv hfit

/-- Settles O11: a ring with no record, and one with an oldest record (`Ring.Sound.pop_eq`). -/
theorem popTakesOldestRecord : Obligations.PopTakesOldestRecord := by
  intro s views hp h hv hf
  cases views with
  | nil =>
    refine ⟨s.respond .rbc (.popped .none false []), ?_, h, fun _ => rfl, by simp⟩
    simp [exec, execRbPop, asConsumer, hf, Ring.pop_empty hv]
  | cons v rest =>
    let x := s.rb.popped s.params v
    refine ⟨(s.withRb x.ring).respond .rbc (.popped x.tag x.more x.out), ?_, h.popped hp hv, by simp, ?_⟩
    · simp [exec, execRbPop, asConsumer, hf, h.pop_eq hp hv, x]
    · rintro v' rest' ⟨⟩
      obtain ⟨hrel, -⟩ := h.released hp hv
      refine ⟨fun hc => ?_, fun hc hs => ?_, fun hc hs => ?_⟩
      · simp [x, Ring.popped, hc, hrel]
      · simp [x, Ring.popped, hc, hs]
      · simp [x, Ring.popped, hc, hs, hrel]

end Sys2Proof.Machine
end

section
/-! Each unit's own operations keep its invariant: the decoder (R28), the transmit engine (R39), the receive engine (R47). -/

namespace Sys2Proof.Machine

/-! ### Bytes written one after the other -/

theorem Memory.written_zero (m : Memory) : m.written 0 := fun _ h => absurd h (Nat.not_lt_zero _)

theorem Memory.written.mono {m : Memory} {n k : Nat} (h : m.written n) (hk : k ≤ n) : m.written k :=
  fun a ha => h a (by omega)

/-- Bytes written directly behind written ones extend the written range. -/
theorem Memory.written.writeAll {m : Memory} {a : Nat} (h : m.written a) (bs : List Byte) :
    (writeAll m (slotAddrs a bs.length) bs).written (a + bs.length) := by
  intro x hx
  by_cases hxa : x < a
  · rw [Memory.read_writeAll_other _ _ (by simp [mem_slotAddrs, hxa])]
    exact h x hxa
  · have hi : x - a < bs.length := by omega
    have hr := Memory.read_writeAll_getElem m (slotAddrs_nodup a bs.length) (by simpa using hi) hi
    rw [slotAddrs_getElem, Nat.add_sub_cancel' (Nat.not_lt.mp hxa)] at hr
    simp [hr]

theorem Memory.within.writeAll_slot {m : Memory} {size a : Nat} (h : m.within size) (bs : List Byte)
    (hfit : a + bs.length ≤ size) : (writeAll m (slotAddrs a bs.length) bs).within size :=
  Memory.within_writeAll h (fun x hx => by have := mem_slotAddrs.mp hx; omega) bs

/-! ### The decoder -/

/-- Whatever its kind, a packet that fits leaves the cursor within it (R28, R141). -/
theorem Decoder.loaded_cursor (p : Params) (pkt : List Byte) (d : Decoder) :
    (d.loaded p pkt).pos ≤ (d.loaded p pkt).len ∧ (d.loaded p pkt).len ≤ pkt.length := by
  obtain ⟨b0, b1, rest, rfl, -, -, hlen, hpos, -⟩ | ⟨b0, b1, rest, rfl, -, -, hlen, hpos, -⟩ | ⟨-, hlen, hpos, -⟩ :=
    Decoder.loaded_cases p pkt d
  · simp [hlen, hpos]
  · simp [hlen, hpos]
  · simp [hlen, hpos, malformedLength_le]

theorem Decoder.Sound.load {p : Params} {d : Decoder} (h : d.Sound p) (pkt : List Byte) : (d.load p pkt).Sound p := by
  by_cases hl : p.blePktMax < pkt.length
  · rw [Decoder.load_tooLong d hl]
    exact ⟨Nat.zero_le _, le_rfl, Memory.written_zero _, h.buf_within⟩
  · have hfit : pkt.length ≤ p.blePktMax := Nat.not_lt.mp hl
    rw [Decoder.load_fits d hfit]
    obtain ⟨hpos, hlen⟩ := Decoder.loaded_cursor p pkt d
    have hw := (Memory.written_zero d.buf).writeAll pkt
    rw [Nat.zero_add] at hw
    refine ⟨hlen.trans hfit, hpos, ?_, ?_⟩
    · rw [Decoder.loaded_store]
      exact hw.mono hlen
    · rw [Decoder.loaded_store]
      exact h.buf_within.writeAll_slot pkt (by omega)

theorem Decoder.Sound.tooLong {p : Params} {d : Decoder} (h : d.Sound p) : d.tooLong.Sound p :=
  ⟨Nat.zero_le _, le_rfl, Memory.written_zero _, h.buf_within⟩

theorem Decoder.Sound.next {p : Params} {d d' : Decoder} {b : Option Byte} (h : d.Sound p) (hd : d.next = .next (b, d')) :
    d'.Sound p := by
  obtain ⟨hbuf, hlen, -, -, hpos⟩ := Decoder.nextWithin_keeps hd
  exact ⟨hlen ▸ h.len_le, hlen ▸ hpos h.pos_le, by rw [hbuf, hlen]; exact h.written, hbuf ▸ h.buf_within⟩

/-! ### The transmit engine -/

theorem TxSlot.fillSize_le (sl : TxSlot) : sl.fillSize ≤ sl.size := by unfold TxSlot.fillSize; split <;> omega

/-- A slot that takes a Message stays sound (R34, R174). -/
theorem TxSlot.Sound.appended {p : Params} {sl : TxSlot} (h : sl.Sound p) (m : Message)
    (hfit : sl.fillSize + msgBytes ≤ p.pktBytes) : (sl.appended m).Sound p where
  size_le := hfit
  size_mult := by
    have hmult := h.size_mult
    simp only [TxSlot.appended, TxSlot.fillSize, msgBytes] at *
    split <;> omega
  free_empty := fun hf => by simp [TxSlot.appended] at hf
  written := (h.written.mono sl.fillSize_le).writeAll m.bytes
  buf_within := h.buf_within.writeAll_slot m.bytes hfit

theorem TxSlot.Sound.withStatus {p : Params} {sl : TxSlot} (h : sl.Sound p) {st : SlotStatus} (hst : st ≠ .free) :
    ({ sl with st := st } : TxSlot).Sound p := { h with free_empty := fun e => absurd e hst }

theorem TxSlot.Sound.emptied {p : Params} {sl : TxSlot} (h : sl.Sound p) (st : SlotStatus) :
    ({ sl with st := st, size := 0 } : TxSlot).Sound p where
  size_le := Nat.zero_le _
  size_mult := rfl
  free_empty := fun _ => rfl
  written := Memory.written_zero _
  buf_within := h.buf_within

/-- What holds of one slot and of the other holds of both. -/
theorem TxIx.forall_of_other {i : TxIx} {P : TxIx → Prop} (h : P i) (ho : P i.other) (j : TxIx) : P j := by
  obtain rfl | rfl := TxIx.eq_or_other i j
  · exact h
  · exact ho

/-- The state pairs of R39, as (active slot, other slot): the active slot takes Messages while the other is Free or InFlight, or
both are busy, the active one InFlight and the other Pending. -/
def Transmit.StatusPair (active other : SlotStatus) : Prop :=
  ((active = .free ∨ active = .filling) ∧ (other = .free ∨ other = .inFlight)) ∨ (active = .inFlight ∧ other = .pending)

/-- A slot that takes Messages is Free or Filling (R174). -/
theorem SlotStatus.busy_eq_false {st : SlotStatus} : st.busy = false ↔ st = .free ∨ st = .filling := by
  cases st <;> simp [SlotStatus.busy]

theorem Transmit.Sound.statusPair {p : Params} {t : Transmit} (h : t.Sound p) :
    Transmit.StatusPair (t.slot t.active).st (t.slot t.active.other).st := by
  cases hb : (t.slot t.active).st.busy with
  | true => exact .inr (h.active_open hb)
  | false =>
    refine .inl ⟨SlotStatus.busy_eq_false.mp hb, ?_⟩
    cases ho : (t.slot t.active.other).st with
    | free => exact .inl rfl
    | inFlight => exact .inr rfl
    | filling => exact absurd (h.filling_active _ ho).1 (TxIx.other_ne _)
    | pending =>
      have hact := h.pending_waits _ ho
      rw [TxIx.other_other] at hact
      simp [hact, SlotStatus.busy] at hb

/-- R39 in terms of the active slot `a` and the other one `b`: each clause is read off their pair of states. -/
theorem Transmit.Sound.of_slots {p : Params} {t : Transmit} {i : TxIx} {a b : TxSlot} (hi : t.active = i)
    (hsa : t.slot i = a) (hsb : t.slot i.other = b) (ha : a.Sound p) (hb : b.Sound p)
    (hst : Transmit.StatusPair a.st b.st) (hfill : a.st = .filling → msgBytes ≤ a.size ∧ a.size < p.pktBytes)
    (htimer : t.timer = true → a.st = .filling) : t.Sound p := by
  subst hi hsa hsb
  have both := @TxIx.forall_of_other t.active
  obtain ⟨hact | hact, hoth | hoth⟩ | ⟨hact, hoth⟩ := hst
  all_goals
    refine ⟨both ha hb, both ?_ ?_, both ?_ ?_, both ?_ ?_, ?_, htimer⟩ <;> simp_all [SlotStatus.busy]

/-- A flush of the active slot keeps R39, whatever state that slot was in, if the other is Free or InFlight (R172). -/
theorem Transmit.flush_sound {p : Params} {ctx : Ctx} {t : Transmit} {x : Transmit × List Event}
    (ha : (t.slot t.active).Sound p) (hb : (t.slot t.active.other).Sound p)
    (hst : (t.slot t.active.other).st = .free ∨ (t.slot t.active.other).st = .inFlight)
    (hx : t.flush ctx t.active = .next x) : x.1.Sound p := by
  obtain ⟨hs, rfl⟩ | ⟨hs, data, -, rfl⟩ := Transmit.flush_cases hx
  · exact .of_slots (i := t.active.other) (by simp) (by simp) (by simp) hb (ha.withStatus (st := .pending) nofun)
      (.inr ⟨hs, rfl⟩) (by simp [hs]) (by simp)
  · have hs : (t.slot t.active.other).st = .free := hst.resolve_right hs
    exact .of_slots (i := t.active.other) (by simp) (by simp) (by simp) hb (ha.withStatus (st := .inFlight) nofun)
      (.inl ⟨.inl hs, .inr rfl⟩) (by simp [hs]) (by simp)

/-- An active slot that takes a Message leaves the other Free or InFlight. -/
theorem Transmit.Sound.other_of_not_busy {p : Params} {t : Transmit} (h : t.Sound p)
    (hb : (t.slot t.active).st.busy = false) :
    (t.slot t.active.other).st = .free ∨ (t.slot t.active.other).st = .inFlight := by
  obtain ⟨-, ho⟩ | ⟨ha, -⟩ := h.statusPair
  · exact ho
  · simp [ha, SlotStatus.busy] at hb

/-- The same of a flush of an active slot just filled with `sl`. -/
theorem Transmit.flush_setSlot_sound {p : Params} {ctx : Ctx} {t : Transmit} {sl : TxSlot} {x : Transmit × List Event}
    (h : t.Sound p) (hb : (t.slot t.active).st.busy = false) (hsl : sl.Sound p)
    (hx : (t.setSlot t.active sl).flush ctx t.active = .next x) : x.1.Sound p := by
  refine Transmit.flush_sound (t := t.setSlot t.active sl) (ctx := ctx) ?_ ?_ ?_ ?_
  · simpa using hsl
  · simpa using h.slot_sound t.active.other
  · simpa using h.other_of_not_busy hb
  · simpa using hx

/-- A Filling active slot with less than a packet in it keeps R39, if the slot took Messages before (R174). -/
theorem Transmit.setSlot_filling_sound {p : Params} {t : Transmit} {sl : TxSlot} (h : t.Sound p)
    (hb : (t.slot t.active).st.busy = false) (hsl : sl.Sound p) (hst : sl.st = .filling) (hge : msgBytes ≤ sl.size)
    (hlt : sl.size < p.pktBytes) (timer : Bool) : Transmit.Sound p { t.setSlot t.active sl with timer := timer } := by
  exact .of_slots (i := t.active) (by simp) (by rw [Transmit.slot_with_timer, Transmit.setSlot_slot])
    (by rw [Transmit.slot_with_timer, Transmit.setSlot_slot_other]) hsl (h.slot_sound _)
    (.inl ⟨.inr hst, h.other_of_not_busy hb⟩) (fun _ => ⟨hge, hlt⟩) (fun _ => hst)

theorem Transmit.Sound.append {p : Params} {m : Message} {t : Transmit} {x : Transmit × List Event} (h : t.Sound p)
    (hx : t.append p m = .next (some x)) : x.1.Sound p := by
  obtain ⟨-, hn⟩ | ⟨hb, hle, hx⟩ := Transmit.append_cases hx
  · simp at hn
  have ha := (h.slot_sound t.active).appended m hle
  have hopen (hne : (t.slot t.active).fillSize + msgBytes ≠ p.pktBytes) :=
    Transmit.setSlot_filling_sound h hb ha rfl (Nat.le_add_left _ _) (Nat.lt_of_le_of_ne hle hne)
  obtain ⟨-, y, hy, hxy⟩ | ⟨hne, -, hx⟩ | ⟨hne, -, hx⟩ := hx
  · obtain rfl : x = y := Option.some.inj hxy
    exact Transmit.flush_setSlot_sound h hb ha hy
  · obtain rfl := Option.some.inj hx
    exact hopen hne true
  · obtain rfl := Option.some.inj hx
    exact hopen hne (t.setSlot t.active _).timer

theorem Transmit.Sound.sendNow {p : Params} {t : Transmit} {x : Transmit × List Event} (h : t.Sound p)
    (hx : t.sendNow p = .next x) : x.1.Sound p := by
  have ha := h.slot_sound t.active
  obtain ⟨hf, hx⟩ | ⟨hf, -, hx⟩ | ⟨-, -, rfl⟩ := Transmit.sendNow_cases hx
  · exact Transmit.flush_sound ha (h.slot_sound _) (h.other_of_not_busy (SlotStatus.busy_eq_false.mpr (.inr hf))) hx
  · exact Transmit.flush_setSlot_sound h (SlotStatus.busy_eq_false.mpr (.inl hf)) (ha.emptied .filling) hx
  · exact h

theorem Transmit.Sound.timeout {p : Params} {t : Transmit} {x : Transmit × List Event} (h : t.Sound p)
    (hx : t.timeout = .next x) : x.1.Sound p := by
  obtain ⟨-, rfl⟩ | ⟨ht, hx⟩ := Transmit.timeout_cases hx
  · exact h
  · have hst := h.other_of_not_busy (SlotStatus.busy_eq_false.mpr (.inr (h.timer_filling ht)))
    refine Transmit.flush_sound (t := { t with timer := false }) ?_ ?_ ?_ hx
    · simpa using h.slot_sound t.active
    · simpa using h.slot_sound t.active.other
    · simpa using hst

@[simp] theorem Transmit.freed_slot (ok : Bool) (i : TxIx) (t : Transmit) :
    (t.freed ok i).slot i = { t.slot i with st := .free, size := 0 } := by cases i <;> rfl

@[simp] theorem Transmit.freed_slot_other (ok : Bool) (i : TxIx) (t : Transmit) :
    (t.freed ok i).slot i.other = t.slot i.other := by cases i <;> rfl

@[simp] theorem Transmit.freed_other_slot (ok : Bool) (i : TxIx) (t : Transmit) :
    (t.freed ok i.other).slot i = t.slot i := by cases i <;> rfl

@[simp] theorem Transmit.setStatus_other_slot (t : Transmit) (i : TxIx) (st : SlotStatus) :
    (t.setStatus i.other st).slot i = t.slot i := by cases i <;> rfl

@[simp] theorem Transmit.freed_active (ok : Bool) (i : TxIx) (t : Transmit) : (t.freed ok i).active = t.active := by
  simp [Transmit.freed]

@[simp] theorem Transmit.freed_timer (ok : Bool) (i : TxIx) (t : Transmit) : (t.freed ok i).timer = t.timer := by
  simp [Transmit.freed]

/-- A completion keeps R39: it frees the active slot and starts the Pending one, or it frees the other slot (R188). -/
theorem Transmit.Sound.complete {p : Params} {ok : Bool} {t : Transmit} {x : Transmit × List Event} (h : t.Sound p)
    (hx : t.complete ok = .next x) : x.1.Sound p := by
  have ha := h.slot_sound t.active
  have ho := h.slot_sound t.active.other
  obtain ⟨i, hi, hx⟩ := Transmit.complete_cases hx
  have hi := Transmit.inFlightSlot_some hi
  obtain rfl | rfl := TxIx.eq_or_other t.active i
  · have hp : (t.slot t.active.other).st = .pending := by simpa [hi, Transmit.StatusPair] using h.statusPair
    obtain ⟨-, data, -, rfl⟩ | ⟨hnp, -⟩ := hx
    · have htimer : t.timer = false := by simpa [hi] using h.timer_filling
      exact .of_slots (i := t.active) (by simp) (by simp) (by simp) (ha.emptied .free)
        (ho.withStatus (st := .inFlight) nofun) (.inl ⟨.inl rfl, .inr rfl⟩) nofun (by simp [htimer])
    · exact absurd hp hnp
  · have hact : (t.slot t.active).st = .free ∨ (t.slot t.active).st = .filling := by
      simpa [hi, Transmit.StatusPair] using h.statusPair
    rw [TxIx.other_other] at hx
    obtain ⟨hp, -⟩ | ⟨-, rfl⟩ := hx
    · simp [hp] at hact
    · exact .of_slots (i := t.active) (by simp) (by simp) (by simp) ha (ho.emptied .free) (.inl ⟨hact, .inl rfl⟩)
        (fun hf => (h.filling_active _ hf).2)
        (by simpa using h.timer_filling)

/-! ### The receive engine -/

/-- What R40 to R47 ask of slot `s`. -/
structure Receive.SlotSound (p : Params) (r : Receive) (s : Nat) (sl : RxSlot) : Prop where
  available : r.available p s → sl.Available ∧ (s ≠ r.ridx → sl.off = 0)
  rest_empty : ¬ r.available p s → sl.size = 0 ∧ sl.off = 0
  size_le : sl.size ≤ p.pktBytes
  buf_within : sl.buf.within p.pktBytes

theorem Receive.Sound.slot {p : Params} {r : Receive} {s : Nat} {sl : RxSlot} (h : r.Sound p) (hs : r.slots[s]? = some sl) :
    r.SlotSound p s sl :=
  ⟨h.available_sound s sl hs, h.rest_empty s sl hs, h.size_le s sl hs, h.buf_within s sl hs⟩

/-- R40 to R47 in terms of the indices and of each slot. -/
theorem Receive.Sound.of_slots {p : Params} {r : Receive} (hlen : r.slots.length = p.rxNslots) (hridx : r.ridx < p.rxNslots)
    (hwidx : r.widx = (r.ridx + r.avail) % p.rxNslots) (havail : r.avail ≤ p.rxNslots)
    (hbusy : r.busy = true → r.avail < p.rxNslots)
    (hslots : ∀ (s : Nat) (sl : RxSlot), r.slots[s]? = some sl → r.SlotSound p s sl) : r.Sound p where
  slots_length := hlen
  ridx_lt := hridx
  widx_eq := hwidx
  avail_le := havail
  busy_free := hbusy
  available_sound s sl hs := (hslots s sl hs).available
  rest_empty s sl hs := (hslots s sl hs).rest_empty
  size_le s sl hs := (hslots s sl hs).size_le
  buf_within s sl hs := (hslots s sl hs).buf_within

theorem Receive.Sound.ridx_available {p : Params} {r : Receive} (h : r.Sound p) (ha : r.avail ≠ 0) :
    r.available p r.ridx := ⟨0, by omega, by simp [Nat.mod_eq_of_lt h.ridx_lt]⟩

/-- While a slot is free, the write index names one (R44, R47). -/
theorem Receive.Sound.widx_not_available {p : Params} {r : Receive} (h : r.Sound p) (ha : r.avail < p.rxNslots) :
    ¬ r.available p r.widx := by
  rintro ⟨j, hj, e⟩
  rw [h.widx_eq] at e
  have := ringOffset_injective ha (by omega) e
  omega

/-- Lending a slot that is not available keeps R47 (R70). -/
theorem Receive.Sound.start {p : Params} {ctx : Ctx} {i : Nat} {r : Receive} (h : r.Sound p) (hi : ¬ r.available p i) :
    (r.start ctx i).1.Sound p := by
  refine .of_slots (by simpa using h.slots_length) h.ridx_lt h.widx_eq h.avail_le h.busy_free fun s sl hs => ?_
  rw [Receive.start_slots] at hs
  split at hs
  · next e =>
    subst e
    obtain ⟨old, hold, rfl⟩ := Option.map_eq_some_iff.mp hs
    have hsl := h.slot hold
    exact ⟨fun ha => absurd ha hi, hsl.rest_empty, hsl.size_le, Memory.within_nil _⟩
  · exact { h.slot hs with }

theorem Receive.Sound.begin {p : Params} {r : Receive} (h : r.Sound p) : (r.begin p).1.Sound p := by
  unfold Receive.begin
  split
  · exact h
  · next hn =>
    have ha : r.avail < p.rxNslots := Nat.lt_of_le_of_ne h.avail_le (not_or.mp hn).2
    exact Receive.Sound.start (r := { r with busy := true }) { h with busy_free := fun _ => ha }
      (h.widx_not_available ha)

theorem getElem?_set_eq_some {α : Type} {l : List α} {i j : Nat} {a b : α} (h : (l.set i a)[j]? = some b) :
    (j = i ∧ b = a) ∨ (j ≠ i ∧ l[j]? = some b) := by
  by_cases e : i = j
  · subst e
    rw [List.getElem?_set_self'] at h
    obtain ⟨-, -, rfl⟩ := Option.map_eq_some_iff.mp h
    exact .inl ⟨rfl, rfl⟩
  · rw [List.getElem?_set_ne e] at h
    exact .inr ⟨Ne.symm e, h⟩

/-- The engine with the drained slot at the read index free again, before reception restarts (R205). -/
def Receive.released (p : Params) (sl : RxSlot) (r : Receive) : Receive :=
  { r with
    slots := r.slots.set r.ridx { sl with off := 0, size := 0 }, ridx := (r.ridx + 1) % p.rxNslots, avail := r.avail - 1 }

theorem Receive.drained_eq (p : Params) (sl : RxSlot) (r : Receive) :
    r.drained p r.ridx sl =
      if r.busy then (r.released p sl, [])
      else Receive.start .ordinary r.widx { r.released p sl with busy := true } := rfl

theorem Receive.released_available {p : Params} {sl : RxSlot} {r : Receive} (h : r.Sound p) {s : Nat} :
    (r.released p sl).available p s ↔ r.available p s ∧ s ≠ r.ridx := by
  have hridx : (r.ridx + 0) % p.rxNslots = r.ridx := Nat.mod_eq_of_lt h.ridx_lt
  have havail := h.avail_le
  constructor
  · rintro ⟨j, hj, rfl⟩
    simp only [Receive.released, Nat.mod_add_mod, Nat.add_assoc] at hj ⊢
    refine ⟨⟨1 + j, by omega, rfl⟩, fun e => ?_⟩
    rw [← hridx, Nat.mod_add_mod] at e
    have := ringOffset_injective (by omega) (by omega) e
    omega
  · rintro ⟨⟨j, hj, rfl⟩, hne⟩
    cases j with
    | zero => exact absurd hridx hne
    | succ j =>
      refine ⟨j, by simp only [Receive.released]; omega, ?_⟩
      simp only [Receive.released, Nat.mod_add_mod, Nat.add_assoc, Nat.add_comm 1]

/-- Draining the slot at the read index keeps R47 (R205). -/
theorem Receive.Sound.released {p : Params} {sl : RxSlot} {r : Receive} (h : r.Sound p) (ha : r.avail ≠ 0)
    (hsl : r.slots[r.ridx]? = some sl) : (r.released p sl).Sound p := by
  have havail := h.avail_le
  refine .of_slots ?_ (Nat.mod_lt _ (Nat.zero_lt_of_lt h.ridx_lt)) ?_ ?_ ?_ fun s sl' hs => ?_
  · simpa [Receive.released] using h.slots_length
  · simp only [Receive.released, h.widx_eq, Nat.mod_add_mod]
    congr 1; omega
  · simp only [Receive.released]; omega
  · intro hb
    have := h.busy_free hb
    simp only [Receive.released]; omega
  · have hav := Receive.released_available (sl := sl) h (s := s)
    obtain ⟨rfl, rfl⟩ | ⟨hne, hs⟩ := getElem?_set_eq_some hs
    · have hold := h.slot hsl
      exact ⟨fun ha => absurd rfl (hav.mp ha).2, fun _ => ⟨rfl, rfl⟩, Nat.zero_le _, hold.buf_within⟩
    · have hold := h.slot hs
      refine ⟨fun ha => ?_, fun ha => hold.rest_empty fun ho => ha (hav.mpr ⟨ho, hne⟩), hold.size_le, hold.buf_within⟩
      obtain ⟨hA, hoff⟩ := hold.available (hav.mp ha).1
      exact ⟨hA, fun _ => hoff hne⟩

theorem Receive.Sound.drained {p : Params} {sl : RxSlot} {r : Receive} (h : r.Sound p) (ha : r.avail ≠ 0)
    (hsl : r.slots[r.ridx]? = some sl) : (r.drained p r.ridx sl).1.Sound p := by
  have hr := h.released ha hsl
  have hlt : (r.released p sl).avail < p.rxNslots := by have := h.avail_le; simp only [Receive.released]; omega
  rw [Receive.drained_eq]
  split
  · exact hr
  · exact Receive.Sound.start (r := { r.released p sl with busy := true }) { hr with busy_free := fun _ => hlt }
      (hr.widx_not_available hlt)

/-- A marker that moves on inside the slot at the read index keeps R47 (R205). -/
theorem Receive.Sound.advanced {p : Params} {sl : RxSlot} {r : Receive} (h : r.Sound p) (ha : r.avail ≠ 0)
    (hsl : r.slots[r.ridx]? = some sl) (hne : sl.off + msgBytes ≠ sl.size) :
    Receive.Sound p { r with slots := r.slots.set r.ridx { sl with off := sl.off + msgBytes } } := by
  refine .of_slots (by simpa using h.slots_length) h.ridx_lt h.widx_eq h.avail_le h.busy_free fun s sl' hs => ?_
  obtain ⟨rfl, rfl⟩ | ⟨-, hs⟩ := getElem?_set_eq_some hs
  · have hold := h.slot hsl
    have hav := h.ridx_available ha
    obtain ⟨hlt, hsize, hoff, hw⟩ := (hold.available hav).1
    refine ⟨fun _ => ⟨⟨?_, hsize, ?_, hw⟩, fun e => absurd rfl e⟩, fun hn => absurd hav hn, hold.size_le, hold.buf_within⟩
    · simp only [msgBytes] at *; omega
    · simp only [msgBytes] at *; omega
  · exact { h.slot hs with }

theorem Receive.Sound.read {p : Params} {r : Receive} {x : Option Message × (Receive × List Event)} (h : r.Sound p)
    (hx : r.read p = .next x) : x.2.1.Sound p := by
  obtain ⟨-, rfl⟩ | ⟨ha, sl, m, hsl, -, ⟨-, rfl⟩ | ⟨hne, rfl⟩⟩ := Receive.read_cases hx
  · exact h
  · exact h.drained ha hsl
  · exact h.advanced ha hsl hne

theorem Receive.stored_available {p : Params} {data : List Byte} {sl : RxSlot} {r : Receive} (h : r.Sound p) {s : Nat} :
    (r.stored p data sl).available p s ↔ r.available p s ∨ s = r.widx := by
  simp only [Receive.available, Receive.stored, h.widx_eq]
  constructor
  · rintro ⟨j, hj, rfl⟩
    obtain hj | rfl := Nat.lt_succ_iff_lt_or_eq.mp hj
    · exact .inl ⟨j, hj, rfl⟩
    · exact .inr rfl
  · rintro (⟨j, hj, rfl⟩ | rfl)
    · exact ⟨j, by omega, rfl⟩
    · exact ⟨r.avail, by omega, rfl⟩

/-- A slot filled with a packet that fits holds its whole Messages (R208, R209). -/
theorem RxSlot.filled_available (sl : RxSlot) {data : List Byte} (hw : wholeMessageBytes data.length ≠ 0) :
    (sl.filled data).Available where
  off_lt := Nat.pos_of_ne_zero hw
  size_mult := by simp only [RxSlot.filled, wholeMessageBytes, msgBytes]; omega
  off_mult := rfl
  written := by
    have h := (Memory.written_zero sl.buf).writeAll data
    rw [Nat.zero_add] at h
    exact h.mono (Nat.sub_le _ _)

/-- Storing a packet in the slot at the write index keeps R47 once the engine is no longer busy, or has a slot left to
receive into (R208). -/
theorem Receive.Sound.stored {p : Params} {data : List Byte} {sl : RxSlot} {r : Receive} (h : r.Sound p)
    (ha : r.avail < p.rxNslots) (hsl : r.slots[r.widx]? = some sl) (hfit : data.length ≤ p.pktBytes)
    (hw : wholeMessageBytes data.length ≠ 0) (busy : Bool) (hb : busy = true → r.avail + 1 < p.rxNslots) :
    Receive.Sound p { r.stored p data sl with busy := busy } := by
  refine .of_slots ?_ h.ridx_lt ?_ ha hb fun s sl' hs => ?_
  · simpa [Receive.stored] using h.slots_length
  · simp only [Receive.stored, h.widx_eq, Nat.mod_add_mod, Nat.add_assoc]
  · have hav : Receive.available p { r.stored p data sl with busy := busy } s ↔ r.available p s ∨ s = r.widx :=
      Receive.stored_available (data := data) (sl := sl) h
    obtain ⟨rfl, rfl⟩ | ⟨hne, hs⟩ := getElem?_set_eq_some hs
    · have hold := h.slot hsl
      refine ⟨fun _ => ⟨sl.filled_available hw, fun _ => rfl⟩, fun hn => absurd (hav.mpr (.inr rfl)) hn,
        (Nat.sub_le _ _).trans hfit, hold.buf_within.writeAll_slot data (by omega)⟩
    · have hold := h.slot hs
      exact ⟨fun ho => hold.available ((hav.mp ho).resolve_right hne),
        fun hn => hold.rest_empty fun ho => hn (hav.mpr (.inl ho)), hold.size_le, hold.buf_within⟩

theorem Receive.Sound.complete {p : Params} {ok : Bool} {data : List Byte} {r : Receive} {x : Receive × List Event}
    (h : r.Sound p) (hx : r.complete p ok data = .next x) : x.1.Sound p := by
  obtain ⟨hb, hfit, ⟨-, rfl⟩ | ⟨-, -, rfl⟩ | ⟨-, hw, sl, hsl, ⟨hlt, rfl⟩ | ⟨-, rfl⟩⟩⟩ := Receive.complete_cases hx
  · exact Receive.Sound.start (r := { r with err := r.err + 1 }) { h with } (h.widx_not_available (h.busy_free hb))
  · exact h.start (h.widx_not_available (h.busy_free hb))
  · have hs := h.stored (h.busy_free hb) hsl hfit hw r.busy fun _ => hlt
    exact Receive.Sound.start (r := r.stored p data sl) hs (hs.widx_not_available hlt)
  · exact h.stored (h.busy_free hb) hsl hfit hw false nofun

end Sys2Proof.Machine
end

section
/-! The whole invariant, operation by operation and step by step (R75, R252): what each operation writes is sound by its unit's own
law, and what it leaves alone stays so. -/

namespace Sys2Proof.Machine

/-! ### The named updates of the state -/

/-- The invariant reads nothing of the interface but the progress of a RSM_FETCH. -/
theorem State.Sound.withInterface {s : State} (h : s.Sound) {io : Interface} (hf : io.fetch = s.io.fetch) :
    ({ s with io := io } : State).Sound :=
  { h with fetch_sound :=
      { staged := fun f e => h.fetch_sound.staged f (hf ▸ e)
        due := fun f e => h.fetch_sound.due f (hf ▸ e)
        rsm_within := h.fetch_sound.rsm_within } }

theorem State.Sound.respond {s : State} (h : s.Sound) (p : Port) (r : Response) : (s.respond p r).Sound := h.withInterface rfl

theorem State.Sound.withWrite {s : State} (h : s.Sound) (w : Option WriteProgress) : (s.withWrite w).Sound :=
  h.withInterface rfl

theorem State.Sound.withDec {s : State} (h : s.Sound) {d : Decoder} (hd : d.Sound s.params) : (s.withDec d).Sound :=
  { h with dec_sound := hd, fetch_sound := { h.fetch_sound with } }

theorem State.Sound.withTx {s : State} (h : s.Sound) {x : Transmit × List Event} (hx : x.1.Sound s.params) :
    (s.withTx x).Sound :=
  { h with tx_sound := hx, fetch_sound := { h.fetch_sound with } }

theorem State.Sound.withRx {s : State} (h : s.Sound) {x : Receive × List Event} (hx : x.1.Sound s.params) :
    (s.withRx x).Sound :=
  { h with rx_sound := hx, fetch_sound := { h.fetch_sound with } }

/-- A RSM_FETCH in progress needs of a new ring that a Continuation due stays due (R131). -/
theorem State.Sound.withRb {s : State} (h : s.Sound) {r : Ring} (hr : r.Sound s.params)
    (hdue : s.io.fetch ≠ none → r.cont = s.rb.cont) : (s.withRb r).Sound :=
  { h with
    rb_sound := hr
    fetch_sound :=
      { h.fetch_sound with
        due := fun f e hm => (hdue fun hn => by simp [hn] at e).trans (h.fetch_sound.due f e hm) } }

/-! ### Reset -/

theorem Ring.initial_sound {p : Params} (hp : p.wf = true) : Ring.initial.Sound p := by
  obtain ⟨-, hcap, -⟩ := Params.wf_iff.mp hp
  exact ⟨Nat.zero_le _, show 0 < p.rbCap by omega, (Nat.zero_mod _).symm, rfl, rfl, rfl, nofun, Memory.within_nil _⟩

theorem Decoder.initial_sound (p : Params) : Decoder.initial.Sound p :=
  ⟨Nat.zero_le _, le_rfl, Memory.written_zero _, Memory.within_nil _⟩

theorem TxSlot.initial_sound (p : Params) : TxSlot.initial.Sound p :=
  ⟨Nat.zero_le _, rfl, fun _ => rfl, Memory.written_zero _, Memory.within_nil _⟩

theorem Transmit.initial_sound (p : Params) : Transmit.initial.Sound p :=
  .of_slots (i := .zero) rfl rfl rfl (TxSlot.initial_sound p) (TxSlot.initial_sound p) (.inl ⟨.inl rfl, .inl rfl⟩) nofun nofun

theorem Receive.initial_sound {p : Params} (hp : p.wf = true) : (Receive.initial p.rxNslots).Sound p := by
  obtain ⟨-, -, -, -, -, hn, -⟩ := Params.wf_iff.mp hp
  refine .of_slots (by simp [Receive.initial]) (show 0 < p.rxNslots by omega) (Nat.zero_mod _).symm (Nat.zero_le _) nofun
    fun s sl hs => ?_
  obtain rfl : sl = .initial := List.eq_of_mem_replicate (List.mem_of_getElem? hs)
  exact ⟨fun ⟨j, hj, _⟩ => absurd hj (Nat.not_lt_zero j), fun _ => ⟨rfl, rfl⟩, Nat.zero_le _, Memory.within_nil _⟩

/-- The block of legal parameters right after RESET is sound (R49, R253). -/
theorem State.resetWith_sound {p : Params} (hp : p.wf = true) : (State.resetWith p).Sound where
  params_wf := hp
  rb_sound := Ring.initial_sound hp
  dec_sound := Decoder.initial_sound p
  tx_sound := Transmit.initial_sound p
  rx_sound := Receive.initial_sound hp
  fetch_sound := ⟨nofun, nofun, Memory.within_nil _⟩

theorem execReset_sound (s : State) : Ensures State.Sound (execReset s) := by
  unfold execReset
  split
  · simp
  · next hp =>
    split
    · simp
    · exact ensures_next.mpr ((State.resetWith_sound (by simpa using hp)).withInterface rfl)

/-! ### The ring and the reassembler -/

theorem execRbPush_sound {s : State} (h : s.Sound) (view : List Byte) : Ensures State.Sound (execRbPush view s) := by
  unfold execRbPush
  obtain ⟨-, hpush⟩ | ⟨hfit, hpush⟩ := s.rb.push_cases (p := s.params) (view := view)
  · simpa [hpush] using h.respond .rbp (.pushed false)
  · simpa [hpush] using (h.withRb (h.rb_sound.pushed h.params_wf hfit) fun _ => rfl).respond .rbp (.pushed true)

theorem execRbPop_sound {s : State} (h : s.Sound) : Ensures State.Sound (execRbPop s) :=
  ensures_asConsumer fun hf => ensures_andThen fun _ hx =>
    ensures_next.mpr ((h.withRb (h.rb_sound.pop h.params_wf hx) fun hn => absurd hf hn).respond _ _)

/-- A staging store that is full takes nothing more (R153 (a)). -/
theorem roomFor_full {p : Params} {len : Nat} (h : p.blePktMax ≤ len) (out : List Byte) : roomFor p len out = [] := by
  simp [roomFor, Nat.sub_eq_zero_of_le h]

/-- What fits of a fragment joined at `len` is written behind what has been joined before (R152, R153 (a)). -/
theorem Memory.written.joinFragment {p : Params} {len : Nat} {m : Memory} (h : m.written (min len p.blePktMax))
    (out : List Byte) : (joinFragment p len out m).written (min (len + out.length) p.blePktMax) := by
  by_cases hl : len ≤ p.blePktMax
  · rw [Nat.min_eq_left hl] at h
    refine (h.writeAll (roomFor p len out)).mono ?_
    simp only [roomFor, List.length_take]; omega
  · simp only [Machine.joinFragment, roomFor_full (Nat.le_of_not_le hl), List.length_nil]
    exact h.mono (by omega)

theorem Memory.within.joinFragment {p : Params} {m : Memory} (h : m.within p.blePktMax) (len : Nat) (out : List Byte) :
    (joinFragment p len out m).within p.blePktMax := by
  by_cases hl : len ≤ p.blePktMax
  · exact h.writeAll_slot _ (by simp only [roomFor, List.length_take]; omega)
  · simpa [Machine.joinFragment, roomFor_full (Nat.le_of_not_le hl), slotAddrs, writeAll] using h

/-- The Continuation is due once a pop has answered a first part (R131). -/
theorem Ring.cont_of_pop_more {p : Params} {r : Ring} {x : Popped} (hx : r.pop p = .next x) (hm : x.more = true) :
    x.ring.cont = true := by
  obtain ⟨-, rfl⟩ | ⟨-, len, -, ⟨-, -, out, -, rfl⟩ | ⟨-, -, out, -, rfl⟩ | ⟨-, -, out, -, rfl⟩⟩ := Ring.pop_cases hx
  · simp at hm
  · simp at hm
  · rfl
  · simp at hm

/-- The state of a RSM_FETCH that goes on with a new ring and more bytes joined. -/
theorem State.Sound.fetching {s : State} (h : s.Sound) {r : Ring} (hr : r.Sound s.params) {g : FetchProgress} {m : Memory}
    (hm : m.written (min g.len s.params.blePktMax)) (hdue : g.more = true → r.cont = true)
    (hw : m.within s.params.blePktMax) : ({ (s.withRb r).withFetch (some g) with rsmBuf := m } : State).Sound :=
  { h with
    rb_sound := hr
    fetch_sound := ⟨fun _ e => Option.some.inj e ▸ hm, fun _ e => Option.some.inj e ▸ hdue, hw⟩ }

theorem execRsmFetch_sound {s : State} (h : s.Sound) : Ensures State.Sound (execRsmFetch s) := by
  refine ensures_asConsumer fun _ => ensures_andThen fun x hx => ?_
  cases x.tag with
  | none => exact ensures_next.mpr (h.respond _ _)
  | packet =>
    have hw := Memory.written.joinFragment (p := s.params) (len := 0) ((Memory.written_zero []).mono (by simp)) x.out
    rw [Nat.zero_add] at hw
    exact ensures_next.mpr (h.fetching (h.rb_sound.pop h.params_wf hx) hw (Ring.cont_of_pop_more hx)
      ((Memory.within_nil _).joinFragment 0 x.out))
  | continuation => simp

theorem loadJoined_sound {s : State} {f : FetchProgress} (h : s.dec.Sound s.params) :
    Ensures (Decoder.Sound s.params) (loadJoined f s) := by
  unfold loadJoined
  split
  · exact ensures_next.mpr h.tooLong
  · exact ensures_andThen fun pkt _ => ensures_next.mpr (h.load pkt)

theorem continueFetch_sound {s : State} {f : FetchProgress} (h : s.Sound) (hf : s.io.fetch = some f) :
    Ensures State.Sound (continueFetch f s) := by
  unfold continueFetch
  split
  · refine ensures_andThen fun x hx => ?_
    cases x.tag with
    | none => simp
    | packet => simp
    | continuation =>
      exact ensures_next.mpr (h.fetching (h.rb_sound.pop h.params_wf hx)
        ((h.fetch_sound.staged f hf).joinFragment x.out) nofun (h.fetch_sound.rsm_within.joinFragment f.len x.out))
  · refine ensures_andThen fun d hd => ensures_next.mpr ?_
    have hdec : d.Sound s.params := loadJoined_sound h.dec_sound d hd
    exact State.Sound.respond (s := { (s.withDec d).withFetch none with rsmBuf := [] })
      { h with dec_sound := hdec, fetch_sound := ⟨nofun, nofun, Memory.within_nil _⟩ } _ _

/-! ### The transmit engine -/

theorem State.Sound.finishWrite {s : State} (h : s.Sound) (w : WriteProgress) : (finishWrite w s).Sound := by
  unfold Machine.finishWrite
  split
  · exact h.withWrite none
  · exact (h.withWrite none).respond _ _

theorem State.Sound.acceptedOne {s : State} (h : s.Sound) (w : WriteProgress) : (acceptedOne w s).Sound := by
  unfold Machine.acceptedOne
  split
  · exact h.finishWrite w
  · exact h.withWrite (some w)

theorem writeStep_sound {s : State} (h : s.Sound) (w : WriteProgress) : Ensures State.Sound (writeStep w s) := by
  intro t ht
  obtain ⟨-, rfl⟩ | ⟨m, ms, -, ⟨x, hx, rfl⟩ | ⟨-, ⟨-, rfl⟩ | ⟨-, rfl⟩⟩⟩ := writeStep_cases ht
  · exact h.finishWrite w
  · exact (h.withTx (h.tx_sound.append hx)).acceptedOne _
  · exact h.withWrite (some w)
  · exact h.finishWrite w

theorem execTxWrite_sound {s : State} (h : s.Sound) (msgs : List Message) : Ensures State.Sound (execTxWrite msgs s) := by
  refine ensures_asForeground fun _ => ?_
  split
  · exact writeStep_sound h _
  · simp

/-- An operation on the transmit engine alone keeps the invariant if its engine stays sound. -/
theorem ensures_withTx {s : State} (h : s.Sound) {o : Answer (Transmit × List Event)}
    (ho : ∀ x, o = .next x → x.1.Sound s.params) : Ensures State.Sound (andThen o fun x => .next (s.withTx x)) :=
  ensures_andThen fun x hx => ensures_next.mpr (h.withTx (ho x hx))

/-! ### Every operation, every turn -/

/-- Every operation keeps a sound block sound. -/
theorem exec_sound {s : State} (h : s.Sound) (i : Instr) : Ensures State.Sound (exec i s) := by
  cases i with
  | rbPush view => exact execRbPush_sound h view
  | rbPop => exact execRbPop_sound h
  | decLoad pkt => exact ensures_next.mpr ((h.withDec (h.dec_sound.load pkt)).respond _ _)
  | decNext => exact ensures_andThen fun x hx => ensures_next.mpr ((h.withDec (h.dec_sound.next hx)).respond _ _)
  | decTs => exact ensures_next.mpr (h.respond _ _)
  | rsmFetch => exact execRsmFetch_sound h
  | bleEnc ts bytes => exact ensures_next.mpr (h.respond _ _)
  | txWrite msgs => exact execTxWrite_sound h msgs
  | txWriteNb msgs => exact ensures_asForeground fun _ => writeStep_sound h _
  | txSendNow => exact ensures_asForeground fun _ => ensures_withTx h fun _ => h.tx_sound.sendNow
  | txIsDone => exact ensures_asForeground fun _ => ensures_next.mpr (h.respond _ _)
  | txErrcnt => exact ensures_asForeground fun _ => ensures_next.mpr (h.respond _ _)
  | txTimeout => exact ensures_withTx h fun _ => h.tx_sound.timeout
  | txComplete ok => exact ensures_withTx h fun _ => h.tx_sound.complete
  | rxBegin => exact ensures_next.mpr (h.withRx h.rx_sound.begin)
  | rxRead => exact ensures_andThen fun x hx => ensures_next.mpr ((h.withRx (h.rx_sound.read hx)).respond _ _)
  | rxErrcnt => exact ensures_next.mpr (h.respond _ _)
  | rxComplete ok data => exact ensures_andThen fun x hx => ensures_next.mpr (h.withRx (h.rx_sound.complete hx))
  | reset => exact execReset_sound s

theorem continueOperation_sound {s : State} (h : s.Sound) (a : Agent) : Ensures State.Sound (continueOperation a s) := by
  intro t ht
  obtain ⟨-, f, hf, ht⟩ | ⟨-, w, -, ht⟩ | rfl := continueOperation_cases ht
  · exact continueFetch_sound h hf t ht
  · exact writeStep_sound h w t ht
  · exact h

/-- An agent is inside an operation only once the block has been constructed (R250). -/
theorem State.live_of_inside {s : State} {a : Agent} (h : s.inside a = true) : s.io.live = true := by
  cases a <;> simp_all [State.inside]

/-- The invariant speaks of the interface's `live` and progress of a RSM_FETCH only. -/
theorem State.Inv.withInterface {s : State} (h : s.Inv) {io : Interface} (hl : io.live = s.io.live)
    (hf : io.fetch = s.io.fetch) : ({ s with io := io } : State).Inv :=
  fun hlive => (h (hl ▸ hlive)).withInterface hf

/-- A word that arrives keeps the invariant; before the first RESET only RESET is executed, and it builds a sound block. -/
theorem serve_inv {s : State} (h : s.Inv) (p : Port) (word : List Byte) : Ensures State.Inv (serve p word s) := by
  intro t ht
  obtain ⟨r, -, rfl⟩ | ⟨i, -, -, hl | rfl, ht⟩ := serve_cases ht
  · exact h.withInterface rfl rfl
  · exact fun _ => exec_sound (h hl) i t ht
  · exact fun _ => execReset_sound s t ht

theorem actAs_inv {s : State} (h : s.Inv) (a : Agent) : Ensures State.Inv (actAs a s) := by
  intro t ht
  obtain ⟨hi, ht⟩ | ⟨-, -, rfl⟩ | ⟨-, c, -, ht⟩ := actAs_cases ht
  · exact fun _ => continueOperation_sound (h (State.live_of_inside hi)) a t ht
  · exact h
  · exact serve_inv (s := s.issuing a c) (h.withInterface rfl rfl) a.port c.word t ht

/-- Settles O50: every way a turn can end keeps the invariants of the four units. -/
theorem stepKeepsInvariant : Obligations.StepKeepsInvariant := by
  intro s t h ht
  obtain ⟨-, rfl⟩ | ⟨a, rest, -, ha⟩ := step_cases ht
  · exact h
  · have hturn := h.withInterface (io := { s.io with turns := rest }) rfl rfl
    exact actAs_inv hturn a t ha

/-- Settles O43: the reset state is `State.resetWith` of legal parameters, and its fields are read off. -/
theorem resetStateIsSound : Obligations.ResetStateIsSound := by
  have hslot (i : TxIx) : State.reset.tx.slot i = .initial := by cases i <;> rfl
  have hslots : State.reset.rx.slots = List.replicate 2 .initial := rfl
  refine ⟨fun _ => State.resetWith_sound (by decide), rfl, ⟨rfl, rfl, rfl, rfl⟩, ⟨rfl, rfl, rfl, rfl, rfl⟩, ⟨?_, rfl, rfl, rfl⟩,
    ⟨rfl, ?_, rfl, rfl, rfl, rfl, rfl⟩, rfl, rfl, rfl, ?_, ?_⟩
  · simp [hslot, TxSlot.initial]
  · simp [hslots, RxSlot.initial]
  · simp [hslot, TxSlot.initial]
  · simp [hslots, RxSlot.initial]

end Sys2Proof.Machine
end

section
/-! Which units an operation, and a later step of one, may write (R60, R61, R226): the frame of every operation, once. -/

namespace Sys2Proof.Machine

/-- The units and the memory that an operation can change; each of the four units holds its own memory (R60). -/
inductive StatePart where
  | rb
  | dec
  | rsm
  | tx
  | rx
deriving DecidableEq

/-- From `s` to `t` no part but those listed has changed. -/
structure ChangesOnly (parts : List StatePart) (s t : State) : Prop where
  rb : .rb ∉ parts → t.rb = s.rb
  dec : .dec ∉ parts → t.dec = s.dec
  rsm : .rsm ∉ parts → t.rsmBuf = s.rsmBuf
  tx : .tx ∉ parts → t.tx = s.tx
  rx : .rx ∉ parts → t.rx = s.rx

/-! ### The named updates of the state -/

theorem ChangesOnly.refl (parts : List StatePart) (s : State) : ChangesOnly parts s s :=
  ⟨fun _ => rfl, fun _ => rfl, fun _ => rfl, fun _ => rfl, fun _ => rfl⟩

theorem ChangesOnly.withInterface {parts : List StatePart} {s t : State} (h : ChangesOnly parts s t) (io : Interface) :
    ChangesOnly parts s { t with io := io } := { h with }

theorem ChangesOnly.respond {parts : List StatePart} {s t : State} (h : ChangesOnly parts s t) (p : Port) (r : Response) :
    ChangesOnly parts s (t.respond p r) := h.withInterface _

theorem changesOnly_respond (s : State) (p : Port) (r : Response) : ChangesOnly [] s (s.respond p r) :=
  (ChangesOnly.refl [] s).respond p r

theorem changesOnly_withRb (s : State) (r : Ring) : ChangesOnly [.rb] s (s.withRb r) :=
  { ChangesOnly.refl [.rb] s with rb := fun h => absurd (by simp) h }

theorem changesOnly_withDec (s : State) (d : Decoder) : ChangesOnly [.dec] s (s.withDec d) :=
  { ChangesOnly.refl [.dec] s with dec := fun h => absurd (by simp) h }

theorem changesOnly_withTx (s : State) (x : Transmit × List Event) : ChangesOnly [.tx] s (s.withTx x) :=
  { ChangesOnly.refl [.tx] s with tx := fun h => absurd (by simp) h }

theorem changesOnly_withRx (s : State) (x : Receive × List Event) : ChangesOnly [.rx] s (s.withRx x) :=
  { ChangesOnly.refl [.rx] s with rx := fun h => absurd (by simp) h }

theorem ChangesOnly.mono {parts more : List StatePart} {s t : State} (h : ChangesOnly parts s t) (hsub : parts ⊆ more) :
    ChangesOnly more s t where
  rb hn := h.rb (mt (@hsub _) hn)
  dec hn := h.dec (mt (@hsub _) hn)
  rsm hn := h.rsm (mt (@hsub _) hn)
  tx hn := h.tx (mt (@hsub _) hn)
  rx hn := h.rx (mt (@hsub _) hn)

/-- A step of a RSM_FETCH writes rsm_buf and its own progress beside the unit it works on (R32, R152). -/
theorem ChangesOnly.fetching {part : StatePart} {s t : State} (h : ChangesOnly [part] s t) (f : Option FetchProgress)
    (m : Memory) : ChangesOnly [part, .rsm] s { t.withFetch f with rsmBuf := m } :=
  { h.mono (by simp : [part] ⊆ [part, .rsm]) with rsm := fun hn => absurd (by simp) hn }

/-! ### The operations with more than one arm, and the later steps -/

theorem execRbPush_changesOnly (view : List Byte) (s : State) : Ensures (ChangesOnly [.rb] s) (execRbPush view s) := by
  unfold execRbPush
  split
  · exact ensures_next.mpr ((ChangesOnly.refl _ s).respond _ _)
  · next r _ => exact ensures_next.mpr ((changesOnly_withRb s r).respond _ _)

theorem execRsmFetch_changesOnly (s : State) : Ensures (ChangesOnly [.rb, .rsm] s) (execRsmFetch s) := by
  refine ensures_asConsumer fun _ => ensures_andThen fun x _ => ?_
  cases x.tag with
  | none => exact ensures_next.mpr ((ChangesOnly.refl _ s).respond _ _)
  | packet => exact ensures_next.mpr ((changesOnly_withRb s x.ring).fetching _ _)
  | continuation => simp

theorem fetchContinuation_changesOnly (f : FetchProgress) (s : State) :
    Ensures (ChangesOnly [.rb, .rsm] s) (fetchContinuation f s) := by
  refine ensures_andThen fun x _ => ?_
  cases x.tag with
  | none => simp
  | packet => simp
  | continuation => exact ensures_next.mpr ((changesOnly_withRb s x.ring).fetching _ _)

theorem fetchLoad_changesOnly (f : FetchProgress) (s : State) : Ensures (ChangesOnly [.dec, .rsm] s) (fetchLoad f s) :=
  ensures_andThen fun d _ => ensures_next.mpr (((changesOnly_withDec s d).fetching none []).respond _ _)

/-- A later step of a RSM_FETCH pops the Continuation while it is due, and then loads the joined record (R152). -/
theorem continueFetch_changesOnly (f : FetchProgress) (s : State) :
    Ensures (ChangesOnly (if f.more then [.rb, .rsm] else [.dec, .rsm]) s) (continueFetch f s) := by
  unfold continueFetch
  split
  · exact fetchContinuation_changesOnly f s
  · exact fetchLoad_changesOnly f s

theorem ChangesOnly.finishWrite {parts : List StatePart} {s t : State} (h : ChangesOnly parts s t) (w : WriteProgress) :
    ChangesOnly parts s (finishWrite w t) := by
  unfold Machine.finishWrite
  split
  · exact h.withInterface _
  · exact (h.withInterface _).respond _ _

theorem ChangesOnly.acceptedOne {parts : List StatePart} {s t : State} (h : ChangesOnly parts s t) (w : WriteProgress) :
    ChangesOnly parts s (acceptedOne w t) := by
  unfold Machine.acceptedOne
  split
  · exact h.finishWrite w
  · exact h.withInterface _

theorem writeStep_changesOnly (w : WriteProgress) (s : State) : Ensures (ChangesOnly [.tx] s) (writeStep w s) := by
  intro t ht
  obtain ⟨-, rfl⟩ | ⟨m, ms, -, ⟨x, -, rfl⟩ | ⟨-, ⟨-, rfl⟩ | ⟨-, rfl⟩⟩⟩ := writeStep_cases ht
  · exact (ChangesOnly.refl _ s).finishWrite w
  · exact (changesOnly_withTx s x).acceptedOne _
  · exact (ChangesOnly.refl _ s).withInterface _
  · exact (ChangesOnly.refl _ s).finishWrite w

theorem execTxWrite_changesOnly (msgs : List Message) (s : State) :
    Ensures (ChangesOnly [.tx] s) (execTxWrite msgs s) := by
  refine ensures_asForeground fun _ => ?_
  split
  · exact writeStep_changesOnly _ s
  · simp

/-! ### Every operation -/

/-- What each operation writes (R60, R61, R226); a RSM_FETCH in its first step, RESET everything. -/
def writtenParts : Instr → List StatePart
  | .rbPush _ => [.rb]
  | .rbPop => [.rb]
  | .decLoad _ => [.dec]
  | .decNext => [.dec]
  | .decTs => []
  | .rsmFetch => [.rb, .rsm]
  | .bleEnc _ _ => []
  | .txWrite _ => [.tx]
  | .txWriteNb _ => [.tx]
  | .txSendNow => [.tx]
  | .txIsDone => []
  | .txErrcnt => []
  | .txTimeout => [.tx]
  | .txComplete _ => [.tx]
  | .rxBegin => [.rx]
  | .rxRead => [.rx]
  | .rxErrcnt => []
  | .rxComplete _ _ => [.rx]
  | .reset => [.rb, .dec, .rsm, .tx, .rx]

theorem exec_changesOnly (i : Instr) (s : State) : Ensures (ChangesOnly (writtenParts i) s) (exec i s) := by
  cases i with
  | rbPush view => exact execRbPush_changesOnly view s
  | rbPop =>
    exact ensures_asConsumer fun _ => ensures_andThen fun x _ => ensures_next.mpr ((changesOnly_withRb s _).respond _ _)
  | decLoad pkt => exact ensures_next.mpr ((changesOnly_withDec s _).respond _ _)
  | decNext => exact ensures_andThen fun x _ => ensures_next.mpr ((changesOnly_withDec s _).respond _ _)
  | decTs => exact ensures_next.mpr (changesOnly_respond s _ _)
  | rsmFetch => exact execRsmFetch_changesOnly s
  | bleEnc ts bytes => exact ensures_next.mpr (changesOnly_respond s _ _)
  | txWrite msgs => exact execTxWrite_changesOnly msgs s
  | txWriteNb msgs => exact ensures_asForeground fun _ => writeStep_changesOnly _ s
  | txSendNow =>
    exact ensures_asForeground fun _ => ensures_andThen fun x _ => ensures_next.mpr (changesOnly_withTx s x)
  | txIsDone => exact ensures_asForeground fun _ => ensures_next.mpr (changesOnly_respond s _ _)
  | txErrcnt => exact ensures_asForeground fun _ => ensures_next.mpr (changesOnly_respond s _ _)
  | txTimeout => exact ensures_andThen fun x _ => ensures_next.mpr (changesOnly_withTx s x)
  | txComplete ok => exact ensures_andThen fun x _ => ensures_next.mpr (changesOnly_withTx s x)
  | rxBegin => exact ensures_next.mpr (changesOnly_withRx s _)
  | rxRead => exact ensures_andThen fun x _ => ensures_next.mpr ((changesOnly_withRx s _).respond _ _)
  | rxErrcnt => exact ensures_next.mpr (changesOnly_respond s _ _)
  | rxComplete ok data => exact ensures_andThen fun x _ => ensures_next.mpr (changesOnly_withRx s x)
  | reset => exact fun t _ => by constructor <;> simp [writtenParts]

/-- The operations a part belongs to (R60, R226). -/
def Owns (i : Instr) : StatePart → Prop
  | .rb => i.port = .rbp ∨ i.port = .rbc
  | .dec => (∃ pkt, i = .decLoad pkt) ∨ i = .decNext
  | .rsm => i = .rsmFetch
  | .tx => i.port = .txf ∨ i.port = .txb
  | .rx => i.port = .rxf ∨ i.port = .rxb

theorem owns_of_mem_writtenParts {i : Instr} (hi : i ≠ .reset) : ∀ part ∈ writtenParts i, Owns i part := by
  cases i with
  | reset => exact absurd rfl hi
  | _ => simp [writtenParts, Owns, Instr.port, Instr.agent, Agent.port]

/-- An agent inside no operation of several steps changes nothing by going on. -/
theorem continueOperation_eq_next {a : Agent} {s : State} (ht : a ≠ .txForeground) (hr : a ≠ .ringConsumer) :
    continueOperation a s = .next s := by
  cases a <;> simp [continueOperation] at ht hr ⊢

/-- Settles O47: what an operation writes belongs to it, and a later step writes the parts of its own sub-step. -/
theorem unitsAreIsolated : Obligations.UnitsAreIsolated := by
  intro s t
  refine ⟨fun i hi ht => ?_, fun ht => ?_, fun ht => ?_, fun a h1 h2 ht => ?_⟩
  · have h := exec_changesOnly i s t ht
    have howns := owns_of_mem_writtenParts hi
    exact ⟨fun h1 h2 => h.rb fun hm => (howns _ hm).elim h1 h2,
      fun h1 h2 => h.dec fun hm => (howns _ hm).elim (fun ⟨pkt, e⟩ => h1 pkt e) h2,
      fun h1 => h.rsm fun hm => h1 (howns _ hm),
      fun h1 h2 => h.tx fun hm => (howns _ hm).elim h1 h2,
      fun h1 h2 => h.rx fun hm => (howns _ hm).elim h1 h2⟩
  · have h : ChangesOnly [.tx] s t := by
      obtain ⟨e, -⟩ | ⟨-, w, -, hw⟩ | rfl := continueOperation_cases ht
      · cases e
      · exact writeStep_changesOnly w s t hw
      · exact .refl _ t
    exact ⟨h.rb (by decide), h.dec (by decide), h.rsm (by decide), h.rx (by decide)⟩
  · obtain ⟨-, f, hf, ht⟩ | ⟨e, -⟩ | rfl := continueOperation_cases ht
    · have h := continueFetch_changesOnly f s t ht
      refine ⟨h.tx (by split <;> decide), h.rx (by split <;> decide), fun g hg => ?_⟩
      obtain rfl : f = g := Option.some.inj (hf.symm.trans hg)
      exact ⟨fun hm => h.dec (by simp [hm]), fun hm => h.rb (by simp [hm])⟩
    · cases e
    · exact ⟨rfl, rfl, fun _ _ => ⟨fun _ => rfl, fun _ => rfl⟩⟩
  · rw [continueOperation_eq_next h1 h2] at ht
    exact (Host.Outcome.next.inj ht).symm

end Sys2Proof.Machine
end

section
/-! Every memory stays canonical (R60, log 10): each unit's operations write through `writeAll`, empty a memory, or leave it. -/

namespace Sys2Proof.Machine

/-! ### The units -/

theorem Ring.pushed_wf {p : Params} {view : List Byte} {r : Ring} (h : r.mem.wf) : (r.pushed p view).mem.wf :=
  Memory.wf_writeAll (Memory.wf_writeAll h _ _) _ _

theorem Decoder.load_wf {p : Params} {pkt : List Byte} {d : Decoder} (h : d.buf.wf) : (d.load p pkt).buf.wf := by
  unfold Decoder.load
  split
  · exact h
  · exact Decoder.loaded_store p pkt d ▸ Memory.wf_writeAll h _ _

theorem loadJoined_wf {f : FetchProgress} {s : State} (h : s.dec.buf.wf) :
    Ensures (fun d => d.buf.wf) (loadJoined f s) := by
  unfold loadJoined
  split
  · exact ensures_next.mpr h
  · exact ensures_andThen fun pkt _ => ensures_next.mpr (Decoder.load_wf h)

/-- Both slots of the transmit engine are canonical. -/
def Transmit.Canonical (t : Transmit) : Prop := ∀ i, (t.slot i).buf.wf

theorem Transmit.canonical_iff {t : Transmit} : t.Canonical ↔ t.slot0.buf.wf ∧ t.slot1.buf.wf :=
  ⟨fun h => ⟨h .zero, h .one⟩, fun h i => by cases i; exacts [h.1, h.2]⟩

theorem Transmit.Canonical.setSlot {t : Transmit} (h : t.Canonical) (i : TxIx) {sl : TxSlot} (hsl : sl.buf.wf) :
    (t.setSlot i sl).Canonical :=
  TxIx.forall_of_other (i := i) (by simpa using hsl) (by simpa using h i.other)

theorem Transmit.Canonical.setStatus {t : Transmit} (h : t.Canonical) (i : TxIx) (st : SlotStatus) :
    (t.setStatus i st).Canonical := h.setSlot i (h i)

theorem Transmit.Canonical.withTimer {t : Transmit} (h : t.Canonical) (b : Bool) :
    Transmit.Canonical { t with timer := b } := fun i => by simpa using h i

theorem Transmit.Canonical.flush {ctx : Ctx} {i : TxIx} {t : Transmit} {x : Transmit × List Event} (h : t.Canonical)
    (hx : t.flush ctx i = .next x) : x.1.Canonical := by
  have hleft : Transmit.Canonical { t with timer := false, active := i.other } := fun j => by simpa using h j
  obtain ⟨-, rfl⟩ | ⟨-, data, -, rfl⟩ := Transmit.flush_cases hx
  · exact hleft.setStatus i .pending
  · exact hleft.setStatus i .inFlight

theorem Transmit.Canonical.append {p : Params} {m : Message} {t : Transmit} {x : Transmit × List Event}
    (h : t.Canonical) (hx : t.append p m = .next (some x)) : x.1.Canonical := by
  have happ : (t.setSlot t.active ((t.slot t.active).appended m)).Canonical :=
    h.setSlot _ (Memory.wf_writeAll (h _) _ _)
  obtain ⟨-, hn⟩ | ⟨-, -, ⟨-, y, hy, e⟩ | ⟨-, -, e⟩ | ⟨-, -, e⟩⟩ := Transmit.append_cases hx
  · cases hn
  · cases e; exact happ.flush hy
  · cases e; exact happ.withTimer true
  · cases e; exact happ

theorem Transmit.Canonical.sendNow {p : Params} {t : Transmit} {x : Transmit × List Event} (h : t.Canonical)
    (hx : t.sendNow p = .next x) : x.1.Canonical := by
  obtain ⟨-, hx⟩ | ⟨-, -, hx⟩ | ⟨-, -, rfl⟩ := Transmit.sendNow_cases hx
  · exact h.flush hx
  · exact (h.setSlot t.active (sl := { t.slot t.active with st := .filling, size := 0 }) (h _)).flush hx
  · exact h

theorem Transmit.Canonical.timeout {t : Transmit} {x : Transmit × List Event} (h : t.Canonical)
    (hx : t.timeout = .next x) : x.1.Canonical := by
  obtain ⟨-, rfl⟩ | ⟨-, hx⟩ := Transmit.timeout_cases hx
  · exact h
  · exact (h.withTimer false).flush hx

theorem Transmit.Canonical.freed {t : Transmit} (h : t.Canonical) (ok : Bool) (i : TxIx) : (t.freed ok i).Canonical :=
  TxIx.forall_of_other (i := i) (by simpa using h i) (by simpa using h i.other)

theorem Transmit.Canonical.complete {ok : Bool} {t : Transmit} {x : Transmit × List Event} (h : t.Canonical)
    (hx : t.complete ok = .next x) : x.1.Canonical := by
  obtain ⟨i, -, ⟨-, data, -, rfl⟩ | ⟨-, rfl⟩⟩ := Transmit.complete_cases hx
  · exact (h.freed ok i).setStatus i.other .inFlight
  · exact h.freed ok i

/-- Every slot of the receive engine is canonical. -/
def Receive.Canonical (r : Receive) : Prop := ∀ sl ∈ r.slots, sl.buf.wf

theorem Receive.Canonical.start {r : Receive} (h : r.Canonical) (ctx : Ctx) (i : Nat) : (r.start ctx i).1.Canonical := by
  intro sl hsl
  obtain ⟨j, hj⟩ := List.mem_iff_getElem?.mp hsl
  rw [Receive.start_slots] at hj
  split at hj
  · obtain ⟨old, -, rfl⟩ := Option.map_eq_some_iff.mp hj
    exact List.Pairwise.nil
  · exact h sl (List.mem_of_getElem? hj)

/-- The rest of the engine, the indices and flags, may change with the slot that is set. -/
theorem Receive.Canonical.set {r r' : Receive} (h : r.Canonical) {i : Nat} {sl : RxSlot}
    (hr : r'.slots = r.slots.set i sl) (hsl : sl.buf.wf) : r'.Canonical := by
  intro x hx
  rw [hr] at hx
  obtain hx | rfl := List.mem_or_eq_of_mem_set hx
  · exact h x hx
  · exact hsl

theorem Receive.Canonical.begin {p : Params} {r : Receive} (h : r.Canonical) : (r.begin p).1.Canonical := by
  unfold Receive.begin
  split
  · exact h
  · exact Receive.Canonical.start (r := { r with busy := true }) h _ _

theorem Receive.Canonical.drained {p : Params} {sl : RxSlot} {r : Receive} (h : r.Canonical) (hsl : sl.buf.wf) :
    (r.drained p r.ridx sl).1.Canonical := by
  have hr : (r.released p sl).Canonical := h.set rfl hsl
  rw [Receive.drained_eq]
  split
  · exact hr
  · exact Receive.Canonical.start (r := { r.released p sl with busy := true }) hr _ _

theorem Receive.Canonical.read {p : Params} {r : Receive} {x : Option Message × (Receive × List Event)}
    (h : r.Canonical) (hx : r.read p = .next x) : x.2.1.Canonical := by
  obtain ⟨-, rfl⟩ | ⟨-, sl, m, hsl, -, ⟨-, rfl⟩ | ⟨-, rfl⟩⟩ := Receive.read_cases hx
  · exact h
  · exact h.drained (h sl (List.mem_of_getElem? hsl))
  · exact h.set rfl (h sl (List.mem_of_getElem? hsl))

theorem Receive.Canonical.complete {p : Params} {ok : Bool} {data : List Byte} {r : Receive}
    {x : Receive × List Event} (h : r.Canonical) (hx : r.complete p ok data = .next x) : x.1.Canonical := by
  have hstored {sl : RxSlot} (hsl : r.slots[r.widx]? = some sl) : (r.stored p data sl).Canonical :=
    h.set rfl (Memory.wf_writeAll (h sl (List.mem_of_getElem? hsl)) _ _)
  obtain ⟨-, -, ⟨-, rfl⟩ | ⟨-, -, rfl⟩ | ⟨-, -, sl, hsl, ⟨-, rfl⟩ | ⟨-, rfl⟩⟩⟩ := Receive.complete_cases hx
  · exact Receive.Canonical.start (r := { r with err := r.err + 1 }) h _ _
  · exact h.start _ _
  · exact (hstored hsl).start _ _
  · exact hstored hsl

/-! ### The machine -/

/-- Every memory of R60 is in its canonical form. -/
structure State.Canonical (s : State) : Prop where
  rb : s.rb.mem.wf
  dec : s.dec.buf.wf
  rsm : s.rsmBuf.wf
  tx : s.tx.Canonical
  rx : s.rx.Canonical

theorem State.canonical_iff {s : State} : s.Canonical ↔
    s.rb.mem.wf ∧ s.dec.buf.wf ∧ s.rsmBuf.wf ∧ s.tx.slot0.buf.wf ∧ s.tx.slot1.buf.wf ∧ ∀ sl ∈ s.rx.slots, sl.buf.wf := by
  constructor
  · rintro ⟨hrb, hdec, hrsm, htx, hrx⟩
    obtain ⟨h0, h1⟩ := Transmit.canonical_iff.mp htx
    exact ⟨hrb, hdec, hrsm, h0, h1, hrx⟩
  · rintro ⟨hrb, hdec, hrsm, h0, h1, hrx⟩
    exact ⟨hrb, hdec, hrsm, Transmit.canonical_iff.mpr ⟨h0, h1⟩, hrx⟩

theorem State.Canonical.withInterface {s : State} (h : s.Canonical) (io : Interface) :
    ({ s with io := io } : State).Canonical := { h with }

theorem State.Canonical.respond {s : State} (h : s.Canonical) (p : Port) (r : Response) : (s.respond p r).Canonical :=
  h.withInterface _

theorem State.Canonical.withRb {s : State} (h : s.Canonical) {r : Ring} (hr : r.mem.wf) : (s.withRb r).Canonical :=
  { h with rb := hr }

theorem State.Canonical.withDec {s : State} (h : s.Canonical) {d : Decoder} (hd : d.buf.wf) : (s.withDec d).Canonical :=
  { h with dec := hd }

theorem State.Canonical.withTx {s : State} (h : s.Canonical) {x : Transmit × List Event} (hx : x.1.Canonical) :
    (s.withTx x).Canonical := { h with tx := hx }

theorem State.Canonical.withRx {s : State} (h : s.Canonical) {x : Receive × List Event} (hx : x.1.Canonical) :
    (s.withRx x).Canonical := { h with rx := hx }

theorem State.Canonical.fetching {s : State} (h : s.Canonical) (f : Option FetchProgress) {m : Memory} (hm : m.wf) :
    ({ s.withFetch f with rsmBuf := m } : State).Canonical := { h with rsm := hm }

/-- The ring after a pop has the old memory (R127). -/
theorem State.Canonical.popped {s : State} (h : s.Canonical) {x : Popped} (hx : s.rb.pop s.params = .next x) :
    (s.withRb x.ring).Canonical := h.withRb ((Ring.pop_keeps hx).2 ▸ h.rb)

theorem State.constructed_canonical (s : State) : s.constructed.Canonical where
  rb := List.Pairwise.nil
  dec := List.Pairwise.nil
  rsm := List.Pairwise.nil
  tx := fun i => by cases i <;> exact List.Pairwise.nil
  rx := fun sl hsl => by
    obtain rfl : sl = .initial := List.eq_of_mem_replicate hsl
    exact List.Pairwise.nil

theorem execReset_canonical (s : State) : Ensures State.Canonical (execReset s) := by
  unfold execReset
  split
  · simp
  · split
    · simp
    · exact ensures_next.mpr s.constructed_canonical

theorem execRbPush_canonical {s : State} (h : s.Canonical) (view : List Byte) :
    Ensures State.Canonical (execRbPush view s) := by
  unfold execRbPush
  obtain ⟨-, hpush⟩ | ⟨-, hpush⟩ := s.rb.push_cases (p := s.params) (view := view)
  · simpa [hpush] using h.respond .rbp (.pushed false)
  · simpa [hpush] using (h.withRb (Ring.pushed_wf h.rb)).respond .rbp (.pushed true)

theorem execRsmFetch_canonical {s : State} (h : s.Canonical) : Ensures State.Canonical (execRsmFetch s) := by
  refine ensures_asConsumer fun _ => ensures_andThen fun x hx => ?_
  cases x.tag with
  | none => exact ensures_next.mpr (h.respond _ _)
  | packet => exact ensures_next.mpr ((h.popped hx).fetching _ (Memory.wf_writeAll List.Pairwise.nil _ _))
  | continuation => simp

theorem continueFetch_canonical {s : State} (h : s.Canonical) (f : FetchProgress) :
    Ensures State.Canonical (continueFetch f s) := by
  unfold continueFetch
  split
  · refine ensures_andThen fun x hx => ?_
    cases x.tag with
    | none => simp
    | packet => simp
    | continuation => exact ensures_next.mpr ((h.popped hx).fetching _ (Memory.wf_writeAll h.rsm _ _))
  · refine ensures_andThen fun d hd => ensures_next.mpr ?_
    exact ((h.withDec (loadJoined_wf h.dec d hd)).fetching none List.Pairwise.nil).respond _ _

theorem State.Canonical.finishWrite {s : State} (h : s.Canonical) (w : WriteProgress) : (finishWrite w s).Canonical := by
  obtain ⟨-, hrb, hdec, hrsm, htx, hrx⟩ := finishWrite_keeps w s
  exact ⟨hrb ▸ h.rb, hdec ▸ h.dec, hrsm ▸ h.rsm, htx ▸ h.tx, hrx ▸ h.rx⟩

theorem State.Canonical.acceptedOne {s : State} (h : s.Canonical) (w : WriteProgress) : (acceptedOne w s).Canonical := by
  obtain ⟨-, hrb, hdec, hrsm, htx, hrx⟩ := acceptedOne_keeps w s
  exact ⟨hrb ▸ h.rb, hdec ▸ h.dec, hrsm ▸ h.rsm, htx ▸ h.tx, hrx ▸ h.rx⟩

theorem writeStep_canonical {s : State} (h : s.Canonical) (w : WriteProgress) :
    Ensures State.Canonical (writeStep w s) := by
  intro t ht
  obtain ⟨-, rfl⟩ | ⟨m, ms, -, ⟨x, hx, rfl⟩ | ⟨-, ⟨-, rfl⟩ | ⟨-, rfl⟩⟩⟩ := writeStep_cases ht
  · exact h.finishWrite w
  · exact (h.withTx (h.tx.append hx)).acceptedOne _
  · exact h.withInterface _
  · exact h.finishWrite w

theorem execTxWrite_canonical {s : State} (h : s.Canonical) (msgs : List Message) :
    Ensures State.Canonical (execTxWrite msgs s) := by
  refine ensures_asForeground fun _ => ?_
  split
  · exact writeStep_canonical h _
  · simp

/-- DEC_NEXT writes no byte (R145). -/
theorem Decoder.next_wf {d : Decoder} {x : Option Byte × Decoder} (h : d.buf.wf) (hx : d.next = .next x) : x.2.buf.wf :=
  (Decoder.nextWithin_keeps hx).1 ▸ h

theorem exec_canonical {s : State} (h : s.Canonical) (i : Instr) : Ensures State.Canonical (exec i s) := by
  cases i with
  | rbPush view => exact execRbPush_canonical h view
  | rbPop =>
    exact ensures_asConsumer fun _ => ensures_andThen fun x hx => ensures_next.mpr ((h.popped hx).respond _ _)
  | decLoad pkt => exact ensures_next.mpr ((h.withDec (Decoder.load_wf h.dec)).respond _ _)
  | decNext =>
    exact ensures_andThen fun x hx => ensures_next.mpr ((h.withDec (Decoder.next_wf h.dec hx)).respond _ _)
  | decTs => exact ensures_next.mpr (h.respond _ _)
  | rsmFetch => exact execRsmFetch_canonical h
  | bleEnc ts bytes => exact ensures_next.mpr (h.respond _ _)
  | txWrite msgs => exact execTxWrite_canonical h msgs
  | txWriteNb msgs => exact ensures_asForeground fun _ => writeStep_canonical h _
  | txSendNow =>
    exact ensures_asForeground fun _ => ensures_andThen fun x hx => ensures_next.mpr (h.withTx (h.tx.sendNow hx))
  | txIsDone => exact ensures_asForeground fun _ => ensures_next.mpr (h.respond _ _)
  | txErrcnt => exact ensures_asForeground fun _ => ensures_next.mpr (h.respond _ _)
  | txTimeout => exact ensures_andThen fun x hx => ensures_next.mpr (h.withTx (h.tx.timeout hx))
  | txComplete ok => exact ensures_andThen fun x hx => ensures_next.mpr (h.withTx (h.tx.complete hx))
  | rxBegin => exact ensures_next.mpr (h.withRx h.rx.begin)
  | rxRead => exact ensures_andThen fun x hx => ensures_next.mpr ((h.withRx (h.rx.read hx)).respond _ _)
  | rxErrcnt => exact ensures_next.mpr (h.respond _ _)
  | rxComplete ok data => exact ensures_andThen fun x hx => ensures_next.mpr (h.withRx (h.rx.complete hx))
  | reset => exact execReset_canonical s

theorem continueOperation_canonical {s : State} (h : s.Canonical) (a : Agent) :
    Ensures State.Canonical (continueOperation a s) := by
  intro t ht
  obtain ⟨-, f, -, ht⟩ | ⟨-, w, -, ht⟩ | rfl := continueOperation_cases ht
  · exact continueFetch_canonical h f t ht
  · exact writeStep_canonical h w t ht
  · exact h

/-! ### Every turn -/

/-- What the interface's own data do not show, and every operation and every later step of one keeps, every turn keeps. -/
theorem ensures_step {P : State → Prop} (hio : ∀ s io, P s → P { s with io := io })
    (hexec : ∀ s i, P s → Ensures P (exec i s)) (hcont : ∀ s a, P s → Ensures P (continueOperation a s)) {s : State}
    (h : P s) : Ensures P (step s) := by
  intro t ht
  obtain ⟨-, rfl⟩ | ⟨a, rest, -, ht⟩ := step_cases ht
  · exact h
  have hturn := hio s { s.io with turns := rest } h
  obtain ⟨-, ht⟩ | ⟨-, -, rfl⟩ | ⟨-, c, -, ht⟩ := actAs_cases ht
  · exact hcont _ a hturn t ht
  · exact hturn
  have hissue := hio _ (State.issuing { s with io := { s.io with turns := rest } } a c).io hturn
  obtain ⟨r, -, rfl⟩ | ⟨i, -, -, -, ht⟩ := serve_cases ht
  · exact hio _ _ hissue
  · exact hexec _ i hissue t ht

/-- Settles O49: every operation and every later step of one keeps all memories canonical. -/
theorem memoriesStayCanonical : Obligations.MemoriesStayCanonical := by
  intro s t h ht
  rw [← State.canonical_iff] at h ⊢
  exact ensures_step (fun _ io h => h.withInterface io) (fun _ i h => exec_canonical h i)
    (fun _ a h => continueOperation_canonical h a) h t ht

end Sys2Proof.Machine
end

section
/-! A step as an equation, for each kind of turn (R75, R103, R104, R230). -/

namespace Sys2Proof.Machine

theorem step_of_no_turn {s : State} (h : s.io.turns = []) : step s = .next s := by simp [step, takeTurn, h]

theorem step_of_turn {s : State} {a : Agent} {rest : List Agent} (h : s.io.turns = a :: rest) :
    step s = actAs a { s with io := { s.io with turns := rest } } := by simp [step, takeTurn, h]

theorem actAs_of_inside {s : State} {a : Agent} (h : s.inside a = true) : actAs a s = continueOperation a s := by
  simp [actAs, h]

theorem actAs_of_no_command {s : State} {a : Agent} (h : s.inside a = false) (hc : s.nextCommand a = none) :
    actAs a s = .next s := by simp [actAs, h, hc]

theorem actAs_of_command {s : State} {a : Agent} {c : Command} (h : s.inside a = false)
    (hc : s.nextCommand a = some c) : actAs a s = serve a.port c.word (s.issuing a c) := by simp [actAs, h, hc]

/-- A word of an operation of this port is executed, once the block has been constructed or to construct it. -/
theorem serve_of_decode {p : Port} {word : List Byte} {i : Instr} {s : State} (hd : decode word = .ok i) (hp : i.port = p)
    (hl : s.io.live = true ∨ i = .reset) : serve p word s = settle p s (exec i s) := by
  have hlive : ¬ (s.io.live = false ∧ i ≠ .reset) := by
    rintro ⟨hf, hi⟩
    exact hl.elim (by simp [hf]) hi
  simp [serve, hd, hp, hlive]

/-- Settles O44: the turn, the command and the word pick the operation (`step_of_turn`, `actAs_of_command`, `serve_of_decode`). -/
theorem stepRunsDecodedOperation : Obligations.StepRunsDecodedOperation := by
  intro s a rest c i hturn hin hc hd hp hl s0
  calc step s = actAs a { s with io := { s.io with turns := rest } } := step_of_turn hturn
    _ = serve a.port c.word s0 := actAs_of_command hin hc
    _ = settle a.port s0 (exec i s0) := serve_of_decode hd hp hl

/-- Settles O45: no turn, a turn inside an operation, a turn with nothing to issue. -/
theorem otherTurns : Obligations.OtherTurns := by
  intro s
  refine ⟨step_of_no_turn, ?_⟩
  intro a rest hturn s0
  refine ⟨fun hin => ?_, fun hin hbox => ?_⟩
  · exact (step_of_turn hturn).trans (actAs_of_inside hin)
  · have hnone : s0.nextCommand a = none := List.find?_eq_none.mpr fun c hc => by simpa using hbox c hc
    exact (step_of_turn hturn).trans (actAs_of_no_command hin hnone)

end Sys2Proof.Machine
end

section
/-! The command word both ways (R104 to R106): the bodies each format accepts are exactly the operand layouts of the encoder. -/

namespace Sys2Proof

/-! ### The fields -/

/-- Any two bytes are a 16-bit field (R104). -/
theorem cons_cons_eq_toLe16_append (lo hi : Byte) (data : List Byte) :
    lo :: hi :: data = toLe16 (le16 lo hi) ++ data := by simp [toLe16_le16]

/-- The flags byte of R104 has one form for each value of `ok`. -/
theorem parseFlags_eq_ok {b : Byte} {ok : Bool} : parseFlags b = .ok ok ↔ b = flagsByte ok := by
  unfold parseFlags
  split
  · next h => subst h; cases ok <;> simp [flagsByte]
  · next h0 =>
    split
    · next h => subst h; cases ok <;> simp [flagsByte]
    · next h1 => cases ok <;> simp [flagsByte, h0, h1]

/-- A byte string is a list of whole Messages exactly where it is their bytes. -/
theorem messagesOf_eq_some {bs : List Byte} {ms : List Message} :
    messagesOf bs = some ms ↔ bs = ms.flatMap Message.bytes := by
  constructor
  · intro h
    induction bs using messagesOf.induct generalizing ms with
    | case1 => simp_all [messagesOf]
    | case2 a b c d rest ms' hrest ih =>
      simp only [messagesOf, hrest, Option.some.injEq] at h
      subst h
      simp [Message.bytes, ← ih hrest]
    | case3 a b c d rest hrest ih => simp [messagesOf, hrest] at h
    | case4 bs h0 h4 => simp [messagesOf] at h
  · rintro rfl
    exact messagesOf_flatMap ms

/-! ### The formats -/

theorem parseN_eq_ok {i j : Instr} {body : List Byte} : parseN i body = .ok j ↔ body = [] ∧ i = j := by
  cases body <;> simp [parseN]

theorem parseV_eq_ok {f : List Byte → Instr} {body : List Byte} {i : Instr} :
    parseV f body = .ok i ↔ ∃ data, data.length < 65536 ∧ body = toLe16 data.length ++ data ∧ f data = i := by
  constructor
  · intro h
    match body with
    | [] | [_] => simp [parseV] at h
    | l0 :: l1 :: data =>
      simp only [parseV] at h
      split at h
      · next hlen =>
        exact ⟨data, hlen ▸ le16_lt l0 l1, hlen ▸ cons_cons_eq_toLe16_append l0 l1 data, by simpa using h⟩
      · simp at h
  · rintro ⟨data, hlt, rfl, rfl⟩
    simp [parseV, toLe16, le16_toLe16 hlt]

theorem parseE_eq_ok {f : Timestamp → List Byte → Instr} {body : List Byte} {i : Instr} :
    parseE f body = .ok i ↔ ∃ ts data, data.length < 65536 ∧
      body = toLe16 ts.toNat ++ (toLe16 data.length ++ data) ∧ f ts data = i := by
  constructor
  · intro h
    match body with
    | [] | [_] | [_, _] | [_, _, _] => simp [parseE] at h
    | t0 :: t1 :: l0 :: l1 :: data =>
      simp only [parseE] at h
      split at h
      · simp at h
      · next hts =>
        split at h
        · next hlen =>
          have hval : (BitVec.ofNat 14 (le16 t0 t1)).toNat = le16 t0 t1 := by
            simp only [BitVec.toNat_ofNat]; omega
          refine ⟨BitVec.ofNat 14 (le16 t0 t1), data, hlen ▸ le16_lt l0 l1, ?_, by simpa using h⟩
          rw [hval, hlen, ← cons_cons_eq_toLe16_append, ← cons_cons_eq_toLe16_append]
        · simp at h
  · rintro ⟨ts, data, hlt, rfl, rfl⟩
    have hts : ts.toNat < 16384 := ts.isLt
    have hval : le16 (BitVec.ofNat 8 ts.toNat) (BitVec.ofNat 8 (ts.toNat / 256)) = ts.toNat := le16_toLe16 (by omega)
    simp only [parseE, toLe16, List.cons_append, List.nil_append, hval, le16_toLe16 hlt, if_true,
      if_neg (Nat.not_le.mpr hts)]
    rw [BitVec.ofNat_toNat, BitVec.setWidth_eq]

theorem parseM_eq_ok {f : List Message → Instr} {body : List Byte} {i : Instr} :
    parseM f body = .ok i ↔ ∃ ms, ms.length < 65536 ∧
      body = toLe16 ms.length ++ ms.flatMap Message.bytes ∧ f ms = i := by
  constructor
  · intro h
    match body with
    | [] | [_] => simp [parseM] at h
    | n0 :: n1 :: data =>
      simp only [parseM] at h
      split at h
      · next hlen =>
        split at h
        · next ms hms =>
          obtain rfl := messagesOf_eq_some.mp hms
          have hn : ms.length = le16 n0 n1 :=
            Nat.eq_of_mul_eq_mul_right (by decide) ((flatMap_bytes_length ms).symm.trans hlen)
          exact ⟨ms, hn ▸ le16_lt n0 n1, hn ▸ cons_cons_eq_toLe16_append n0 n1 _, by simpa using h⟩
        · simp at h
      · simp at h
  · rintro ⟨ms, hlt, rfl, rfl⟩
    simp only [parseM, toLe16, List.cons_append, List.nil_append, le16_toLe16 hlt, flatMap_bytes_length, if_true,
      messagesOf_flatMap]

theorem parseC_eq_ok {f : Bool → Instr} {body : List Byte} {i : Instr} :
    parseC f body = .ok i ↔ ∃ ok, body = [flagsByte ok] ∧ f ok = i := by
  constructor
  · intro h
    match body with
    | [] => simp [parseC] at h
    | b :: rest =>
      simp only [parseC] at h
      split at h
      · simp at h
      · next ok hb =>
        obtain ⟨rfl, rfl⟩ := parseN_eq_ok.mp h
        exact ⟨ok, by rw [parseFlags_eq_ok.mp hb], rfl⟩
  · rintro ⟨ok, rfl, rfl⟩
    simp only [parseC, parseFlags_eq_ok.mpr rfl, parseN]

theorem parseR_eq_ok {f : Bool → List Byte → Instr} {body : List Byte} {i : Instr} :
    parseR f body = .ok i ↔ ∃ ok data, data.length < 65536 ∧
      body = flagsByte ok :: (toLe16 data.length ++ data) ∧ f ok data = i := by
  constructor
  · intro h
    match body with
    | [] => simp [parseR] at h
    | b :: rest =>
      simp only [parseR] at h
      split at h
      · simp at h
      · next ok hb =>
        obtain ⟨data, hlt, rfl, rfl⟩ := parseV_eq_ok.mp h
        exact ⟨ok, data, hlt, by rw [parseFlags_eq_ok.mp hb], rfl⟩
  · rintro ⟨ok, data, hlt, rfl, rfl⟩
    simp only [parseR, parseFlags_eq_ok.mpr rfl]
    exact parseV_eq_ok.mpr ⟨data, hlt, rfl, rfl⟩

/-! ### The operations -/

theorem encode_eq_cons {op : Byte} {i : Instr} (h : op.toNat = i.opcode.toNat) : encode i = op :: i.operandBytes := by
  rw [encode, BitVec.eq_of_toNat_eq h]

/-- What the table of R105 makes of a body is the operation of that opcode whose operands the body lays out. -/
theorem encode_of_decodeBody {op : Byte} {body : List Byte} {i : Instr} (h : decodeBody op body = .ok i) :
    encode i = op :: body ∧ i.wf = true := by
  unfold decodeBody at h
  -- the table's twenty rows in its order, taken format by format: V, E, M, C, R, N, and the opcodes it does not list
  split at h
  case h_1 e | h_3 e =>
    obtain ⟨data, hlt, rfl, rfl⟩ := parseV_eq_ok.mp h
    exact ⟨encode_eq_cons e, decide_eq_true hlt⟩
  case h_7 e =>
    obtain ⟨ts, data, hlt, rfl, rfl⟩ := parseE_eq_ok.mp h
    exact ⟨encode_eq_cons e, decide_eq_true hlt⟩
  case h_8 e | h_9 e =>
    obtain ⟨ms, hlt, rfl, rfl⟩ := parseM_eq_ok.mp h
    exact ⟨encode_eq_cons e, decide_eq_true hlt⟩
  case h_14 e =>
    obtain ⟨ok, rfl, rfl⟩ := parseC_eq_ok.mp h
    exact ⟨encode_eq_cons e, rfl⟩
  case h_18 e =>
    obtain ⟨ok, data, hlt, rfl, rfl⟩ := parseR_eq_ok.mp h
    exact ⟨encode_eq_cons e, decide_eq_true hlt⟩
  case h_2 e | h_4 e | h_5 e | h_6 e | h_10 e | h_11 e | h_12 e | h_13 e | h_15 e | h_16 e | h_17 e | h_19 e =>
    obtain ⟨rfl, rfl⟩ := parseN_eq_ok.mp h
    exact ⟨encode_eq_cons e, rfl⟩
  case h_20 => simp at h

/-- The table of R105 reads back the operands it lays out. -/
theorem decodeBody_operandBytes {i : Instr} (h : i.wf = true) : decodeBody i.opcode i.operandBytes = .ok i := by
  cases i with
  | rbPush view => exact parseV_eq_ok.mpr ⟨view, of_decide_eq_true h, rfl, rfl⟩
  | decLoad pkt => exact parseV_eq_ok.mpr ⟨pkt, of_decide_eq_true h, rfl, rfl⟩
  | bleEnc ts bytes => exact parseE_eq_ok.mpr ⟨ts, bytes, of_decide_eq_true h, rfl, rfl⟩
  | txWrite msgs => exact parseM_eq_ok.mpr ⟨msgs, of_decide_eq_true h, rfl, rfl⟩
  | txWriteNb msgs => exact parseM_eq_ok.mpr ⟨msgs, of_decide_eq_true h, rfl, rfl⟩
  | txComplete ok => exact parseC_eq_ok.mpr ⟨ok, rfl, rfl⟩
  | rxComplete ok data => exact parseR_eq_ok.mpr ⟨ok, data, of_decide_eq_true h, rfl, rfl⟩
  | _ => exact parseN_eq_ok.mpr ⟨rfl, rfl⟩

/-- Settles O2: the body of the word is what its opcode's format accepts (`decodeBody_operandBytes`). -/
theorem decodeInvertsEncode : Obligations.DecodeInvertsEncode := fun _ h => decodeBody_operandBytes h

/-- Settles O3: no word is empty, and a body its opcode's format accepts is the encoder's (`encode_of_decodeBody`). -/
theorem encodeInvertsDecode : Obligations.EncodeInvertsDecode := by
  intro w i h
  cases w with
  | nil => simp [decode] at h
  | cons op body => exact encode_of_decodeBody h

end Sys2Proof
end

section
/-! The decoder as R99's role function run lazily (R99, R145, R148): DEC_NEXT case by case on the bytes that are left, then the
induction over them. -/

namespace Sys2Proof.Machine

/-! ### The reference -/

/-- The bytes whose role is status or data. -/
def emitted (bytes : List Byte) (rs : List Role) : List Byte :=
  ((bytes.zip rs).filter (fun br => br.2.emitted)).map (·.1)

theorem midiBytes_eq_emitted (pkt : List Byte) : midiBytes pkt = emitted pkt (roles pkt) := rfl

@[simp] theorem emitted_no_roles (bytes : List Byte) : emitted bytes [] = [] := by simp [emitted]

theorem emitted_cons_of_emitted {b : Byte} {bytes : List Byte} {r : Role} {rs : List Role} (h : r.emitted = true) :
    emitted (b :: bytes) (r :: rs) = b :: emitted bytes rs := by simp [emitted, h]

theorem emitted_cons_of_skipped {b : Byte} {bytes : List Byte} {r : Role} {rs : List Role} (h : r.emitted = false) :
    emitted (b :: bytes) (r :: rs) = emitted bytes rs := by simp [emitted, h]

/-! ### The bytes that are left -/

theorem slotAddrs_succ (a n : Nat) : slotAddrs a (n + 1) = a :: slotAddrs (a + 1) n := List.range'_succ

theorem slotAddrs_drop (a k n : Nat) : (slotAddrs a n).drop k = slotAddrs (a + k) (n - k) :=
  List.ext_getElem (by simp) fun i _ _ => by simp [Nat.add_assoc]

theorem Memory.bytesAt_cons_eq_some {m : Memory} {a : Nat} {addrs : List Nat} {b : Byte} {bs : List Byte} :
    m.bytesAt (a :: addrs) = some (b :: bs) ↔ m.read a = some b ∧ m.bytesAt addrs = some bs := by
  simp [Memory.bytesAt_eq_some]

/-- The bytes of the packet from the cursor on are `rest` (R27, R28). -/
structure Decoder.Left (d : Decoder) (rest : List Byte) : Prop where
  len_eq : d.len = d.pos + rest.length
  stored : d.buf.bytesAt (slotAddrs d.pos rest.length) = some rest

theorem Decoder.Left.head {d : Decoder} {b : Byte} {rest : List Byte} (h : d.Left (b :: rest)) :
    d.buf.read d.pos = some b :=
  (Memory.bytesAt_cons_eq_some.mp (slotAddrs_succ d.pos rest.length ▸ h.stored)).1

/-- Whatever becomes of the flag and the timestamp, one byte less is left behind the first. -/
theorem Decoder.Left.tail {d : Decoder} {b : Byte} {rest : List Byte} (h : d.Left (b :: rest)) (prevTs : Bool)
    (ts : Timestamp) : Decoder.Left { d with pos := d.pos + 1, prevTs := prevTs, ts := ts } rest where
  len_eq := by simp only [h.len_eq, List.length_cons]; omega
  stored := (Memory.bytesAt_cons_eq_some.mp (slotAddrs_succ d.pos rest.length ▸ h.stored)).2

/-! ### DEC_NEXT on them -/

theorem Decoder.next_of_exhausted {d : Decoder} (h : d.len ≤ d.pos) : d.next = .next (none, d) := by
  simp [Decoder.next, Nat.sub_eq_zero_of_le h, Decoder.nextWithin]

section
variable {d : Decoder} {b : Byte} (hlt : d.pos < d.len) (hb : d.buf.read d.pos = some b)
include hlt hb

/-- With a byte left the loop of R145 looks at it first. -/
theorem Decoder.next_of_byte : d.next =
    if hiBit b = false then .next (some b, { d with pos := d.pos + 1 })
    else if d.prevTs then .next (some b, { d with pos := d.pos + 1, prevTs := false })
    else Decoder.next { d with pos := d.pos + 1, prevTs := true, ts := tsReplaceLow d.ts b } := by
  obtain ⟨n, hn⟩ : ∃ n, d.len - d.pos = n + 1 := ⟨d.len - d.pos - 1, by omega⟩
  have hn' : d.len - (d.pos + 1) = n := by omega
  simp only [Decoder.next, hn, hn', Decoder.nextWithin, if_neg (Nat.not_le.mpr hlt), hb]

theorem Decoder.next_of_data (h : hiBit b = false) : d.next = .next (some b, { d with pos := d.pos + 1 }) := by
  rw [Decoder.next_of_byte hlt hb, if_pos h]

theorem Decoder.next_of_status (h : hiBit b = true) (hp : d.prevTs = true) :
    d.next = .next (some b, { d with pos := d.pos + 1, prevTs := false }) := by
  rw [Decoder.next_of_byte hlt hb, if_neg (by simp [h]), if_pos hp]

/-- A timestamp byte is consumed and the loop goes on (R145). -/
theorem Decoder.next_of_timestamp (h : hiBit b = true) (hp : d.prevTs = false) :
    d.next = Decoder.next { d with pos := d.pos + 1, prevTs := true, ts := tsReplaceLow d.ts b } := by
  rw [Decoder.next_of_byte hlt hb, if_neg (by simp [h]), if_neg (by simp [hp])]

end

/-! ### Pulling to the end -/

theorem Decoder.drain_of_none {d d' : Decoder} (h : d.next = .next (none, d')) (n : Nat) :
    d.drain (n + 1) = some ([], d') := by simp [Decoder.drain, h]

theorem Decoder.drain_of_some {d d' d'' : Decoder} {b : Byte} {bs : List Byte} {n : Nat}
    (h : d.next = .next (some b, d')) (hd : d'.drain n = some (bs, d'')) : d.drain (n + 1) = some (b :: bs, d'') := by
  simp [Decoder.drain, h, hd]

/-- Draining depends on the decoder through what DEC_NEXT answers only. -/
theorem Decoder.drain_congr {d d' : Decoder} (h : d.next = d'.next) (n : Nat) : d.drain (n + 1) = d'.drain (n + 1) := by
  simp [Decoder.drain, h]

/-- The decoder emits from the bytes left what R99's roles emit from them: its flag is the roles' flag. -/
theorem Decoder.Left.drain {d : Decoder} {rest : List Byte} (h : d.Left rest) {n : Nat} (hn : rest.length < n) :
    ∃ d', d.drain n = some (emitted rest (rolesFrom d.prevTs rest), d') ∧ d'.pos = d'.len := by
  induction rest generalizing d n with
  | nil =>
    obtain ⟨n, rfl⟩ := Nat.exists_eq_add_one.mpr hn
    have hend : d.len = d.pos := h.len_eq
    exact ⟨d, Decoder.drain_of_none (Decoder.next_of_exhausted hend.le) n, hend.symm⟩
  | cons b rest ih =>
    obtain ⟨n, rfl⟩ := Nat.exists_eq_add_one.mpr (Nat.zero_lt_of_lt hn)
    have hn : rest.length < n := Nat.lt_of_succ_lt_succ hn
    have hlt : d.pos < d.len := by simp [h.len_eq]
    cases hhi : hiBit b with
    | false =>
      obtain ⟨d', hd, hend⟩ := ih (h.tail d.prevTs d.ts) hn
      simp only [rolesFrom, hhi, if_true, emitted_cons_of_emitted (r := .data) rfl]
      exact ⟨d', Decoder.drain_of_some (Decoder.next_of_data hlt h.head hhi) hd, hend⟩
    | true =>
      cases hp : d.prevTs with
      | true =>
        obtain ⟨d', hd, hend⟩ := ih (h.tail false d.ts) hn
        simp only [rolesFrom, hhi, Bool.true_eq_false, if_false, if_true, emitted_cons_of_emitted (r := .status) rfl]
        exact ⟨d', Decoder.drain_of_some (Decoder.next_of_status hlt h.head hhi hp) hd, hend⟩
      | false =>
        obtain ⟨d', hd, hend⟩ := ih (h.tail true (tsReplaceLow d.ts b)) (hn.trans (Nat.lt_succ_self n))
        simp only [rolesFrom, hhi, Bool.true_eq_false, Bool.false_eq_true, if_false,
          emitted_cons_of_skipped (r := .timestamp) rfl]
        exact ⟨d', (Decoder.drain_congr (Decoder.next_of_timestamp hlt h.head hhi hp) n).trans hd, hend⟩

/-! ### After a load -/

/-- A well-formed packet is left from the cursor on (R141, R144). -/
theorem Decoder.loaded_left {p : Params} {pkt : List Byte} {d : Decoder} {k : Nat}
    (hlen : (d.loaded p pkt).len = pkt.length) (hpos : (d.loaded p pkt).pos = k) (hk : k ≤ pkt.length) :
    (d.loaded p pkt).Left (pkt.drop k) where
  len_eq := by simp only [hlen, hpos, List.length_drop]; omega
  stored := by
    have hall := Memory.bytesAt_writeAll d.buf (slotAddrs_nodup 0 pkt.length) (slotAddrs_length 0 pkt.length)
    rw [Decoder.loaded_store, hpos, List.length_drop]
    simpa [slotAddrs_drop] using Memory.bytesAt_drop hall k

/-- A malformed packet has no roles (R142). -/
theorem midiBytes_of_malformed {pkt : List Byte} (h : pkt.length < 2 ∨ ∃ b0 rest, pkt = b0 :: rest ∧ hiBit b0 = false) :
    midiBytes pkt = [] := by
  rw [midiBytes_eq_emitted]
  match pkt with
  | [] | [_] => rfl
  | b0 :: b1 :: rest => simp_all [roles]

/-- What a load leaves to be drained emits the packet's MIDI bytes: the flag and the cursor stand as the roles do behind the
header and the timestamp-low byte (R141, R144). -/
theorem Decoder.loaded_emits (p : Params) (pkt : List Byte) (d : Decoder) :
    ∃ rest, (d.loaded p pkt).Left rest ∧ rest.length ≤ pkt.length ∧
      emitted rest (rolesFrom (d.loaded p pkt).prevTs rest) = midiBytes pkt := by
  obtain ⟨b0, b1, rest, rfl, h0, h1, hlen, hpos, -, hprev, -⟩ | ⟨b0, b1, rest, rfl, h0, h1, hlen, hpos, -, hprev, -⟩ |
    ⟨hmal, hlen, hpos, -⟩ := Decoder.loaded_cases p pkt d
  · refine ⟨rest, Decoder.loaded_left hlen hpos (by simp), by simp; omega, ?_⟩
    simp only [hprev, midiBytes_eq_emitted, roles, h0, h1, Bool.true_eq_false, if_false, if_true,
      emitted_cons_of_skipped (r := .header) rfl, emitted_cons_of_skipped (r := .timestampLow) rfl]
  · refine ⟨b1 :: rest, Decoder.loaded_left hlen hpos (by simp), by simp, ?_⟩
    simp only [hprev, midiBytes_eq_emitted, roles, h0, h1, Bool.true_eq_false, Bool.false_eq_true, if_false,
      emitted_cons_of_skipped (r := .header) rfl]
  · refine ⟨[], ⟨by simp [hlen, hpos], rfl⟩, Nat.zero_le _, ?_⟩
    rw [midiBytes_of_malformed hmal, rolesFrom, emitted_no_roles]

/-- Settles O16: what the load leaves (`Decoder.loaded_emits`) is drained by the roles (`Decoder.Left.drain`). -/
theorem decoderEmitsByRoles : Obligations.DecoderEmitsByRoles := by
  intro s pkt hfit
  obtain ⟨rest, hleft, hle, hemit⟩ := Decoder.loaded_emits s.params pkt s.dec
  obtain ⟨d, hdrain, hend⟩ := hleft.drain (Nat.lt_succ_of_le hle)
  refine ⟨_, d, rfl, ?_, hend⟩
  simp only [State.respond_dec, State.withDec_dec, Decoder.load_fits s.dec hfit, hdrain, hemit]

end Sys2Proof.Machine
end

section
/-! The bytes of responses and outward events (R107, R110), the words of the test vectors, the padded size, and the words that are
refused before any operation is executed. -/

namespace Sys2Proof.Machine

/-! ### The number fields of R104, for numbers they hold -/

theorem fieldBytes_of_lt {width n : Nat} (h : n < 256 ^ width) : fieldBytes width n = leBytes width n := if_pos h

theorem fieldBytes_one {n : Nat} (h : n < 256) : fieldBytes 1 n = [BitVec.ofNat 8 n] := fieldBytes_of_lt (width := 1) h

theorem fieldBytes_two {n : Nat} (h : n < 65536) : fieldBytes 2 n = toLe16 n := fieldBytes_of_lt (width := 2) h

theorem fieldBytes_four {n : Nat} (h : n < 4294967296) : fieldBytes 4 n =
    [BitVec.ofNat 8 n, BitVec.ofNat 8 (n / 256), BitVec.ofNat 8 (n / 65536), BitVec.ofNat 8 (n / 16777216)] := by
  simp only [fieldBytes_of_lt (width := 4) h, leBytes, Nat.div_div_eq_div_mul, Nat.reduceMul]

/-- The context's code in its one-byte field (R109). -/
theorem fieldBytes_ctxCode (ctx : Ctx) : fieldBytes 1 ctx.code = [BitVec.ofNat 8 ctx.code] :=
  fieldBytes_one (by cases ctx <;> decide)

/-- The slot's number in its one-byte field (R110). -/
theorem fieldBytes_slotCode (i : TxIx) : fieldBytes 1 i.code = [BitVec.ofNat 8 i.code] :=
  fieldBytes_one (by cases i <;> decide)

/-- Settles O4: each response's fields, by `fieldBytes_two` and `fieldBytes_four`. -/
theorem responseBytes : Obligations.ResponseBytes := by
  refine ⟨?popped, ?encoded, ?declined, ?flag, ?fetched, ?byte, rfl, ?timestamp, ?accepted, ?errorCount, ?message, rfl, rfl⟩
  case popped =>
    intro tag more out h
    simp only [Response.bytes, fieldBytes_two h, toLe16, List.cons_append, List.nil_append]
    cases tag <;> cases more <;> rfl
  case encoded =>
    intro pkt h
    simp only [Response.bytes, fieldBytes_two h, toLe16, List.cons_append, List.nil_append]
  case declined => simp only [Response.bytes, fieldBytes_two (show 0 < 65536 by decide)]; rfl
  case flag => exact fun b => ⟨rfl, rfl, rfl⟩
  case fetched => exact fun b c => rfl
  case byte => exact fun b => rfl
  case timestamp => exact fun ts => fieldBytes_two (ts.isLt.trans (by decide))
  case accepted => exact fun n h => fieldBytes_two h
  case errorCount => exact fun c => fieldBytes_four c.isLt
  case message => exact fun m => rfl

/-- Settles O5: each event's fields, by `fieldBytes_ctxCode`, `fieldBytes_slotCode`, `fieldBytes_one` and `fieldBytes_two`. -/
theorem eventBytes : Obligations.EventBytes := by
  refine ⟨fun ctx i size data h => ?_, rfl, rfl, fun ctx i h => ?_⟩
  · simp only [Event.bytes, fieldBytes_ctxCode, fieldBytes_slotCode, fieldBytes_two h, toLe16, List.cons_append, List.nil_append]
    cases ctx <;> cases i <;> rfl
  · simp only [Event.bytes, fieldBytes_ctxCode, fieldBytes_one h, List.cons_append, List.nil_append]
    cases ctx <;> rfl

/-- Settles O1: each word is decoded as written out. -/
theorem specWordsDecode : Obligations.SpecWordsDecode :=
  ⟨rfl, rfl, rfl, rfl, rfl, rfl, rfl, rfl, rfl, rfl, rfl⟩

/-- An even capacity that holds a record's header and payload holds its pad too (R92). -/
theorem psize_le {len cap : Nat} (hcap : cap % 2 = 0) (h : len + 2 ≤ cap) : psize len ≤ cap := by
  simp only [psize, hdrBytes]; omega

/-- Settles O6: even by `psize_even`, bounded by `le_psize` and `psize_le`. -/
theorem paddedSize : Obligations.PaddedSize :=
  ⟨fun len => ⟨rfl, psize_even len, (Nat.le_add_right _ _).trans (le_psize len), fun _ => psize_le⟩, rfl, rfl, rfl, rfl, rfl⟩

/-! ### Words refused before any operation is executed -/

section
variable {p : Port} {word : List Byte} {s : State}

theorem serve_of_badWord {e : Reject} (h : decode word = .error e) : serve p word s = .next (s.refuse p (.badWord e)) := by
  simp [serve, h]

theorem serve_of_wrongPort {i : Instr} (h : decode word = .ok i) (hp : i.port ≠ p) :
    serve p word s = .next (s.refuse p .wrongPort) := by simp [serve, h, hp]

theorem serve_of_notConstructed {i : Instr} (h : decode word = .ok i) (hp : i.port = p) (hl : s.io.live = false)
    (hi : i ≠ .reset) : serve p word s = .next (s.refuse p .notConstructed) := by simp [serve, h, hp, hl, hi]

end

/-- Settles O46: the step serves the word (`step_of_turn`, `actAs_of_command`), which is refused on one of three grounds. -/
theorem refusedWordsAreAnswered : Obligations.RefusedWordsAreAnswered := by
  intro s a rest c hturn hin hc s0 answered
  have hserve : step s = serve a.port c.word s0 := (step_of_turn hturn).trans (actAs_of_command hin hc)
  exact ⟨hserve, fun e he => hserve.trans (serve_of_badWord he),
    fun i hi hp => hserve.trans (serve_of_wrongPort hi hp),
    fun i hi hp hl hr => hserve.trans (serve_of_notConstructed hi hp hl hr)⟩

end Sys2Proof.Machine
end

section
/-! The operations of the ring in every state: what RB_PUSH stores, what RB_POP answers and where it stops at a byte nothing has
written, and the refusal of a second agent while an operation is in progress (R122 to R134, R194). -/

namespace Sys2Proof.Machine

/-! ### A second agent -/

theorem asConsumer_of_none {s : State} (h : s.io.fetch = none) (k : Answer State) : asConsumer s k = k := by
  simp [asConsumer, h]

theorem asConsumer_of_fetching {s : State} (h : s.io.fetch ≠ none) (k : Answer State) :
    asConsumer s k = .refused .overlappingConsumer := by
  simp [asConsumer, Option.isSome_iff_ne_none.mpr h]

theorem asForeground_of_none {s : State} (h : s.io.write = none) (k : Answer State) : asForeground s k = k := by
  simp [asForeground, h]

theorem asForeground_of_writing {s : State} (h : s.io.write ≠ none) (k : Answer State) :
    asForeground s k = .refused .overlappingForeground := by
  simp [asForeground, Option.isSome_iff_ne_none.mpr h]

/-- Settles O35: every operation of the two agents begins with the test of `asForeground` or `asConsumer`. -/
theorem secondAgentsAreRefused : Obligations.SecondAgentsAreRefused := by
  intro s
  refine ⟨fun hw hctx msgs => ?_, fun hw i hi => ?_, fun hf i hi => ?_⟩
  · exact (asForeground_of_none hw _).trans (if_neg hctx)
  · cases i with
    | txWrite | txWriteNb | txSendNow | txIsDone | txErrcnt => exact asForeground_of_writing hw _
    | _ => exact absurd hi (by simp [Instr.agent])
  · cases i with
    | rbPop | rsmFetch => exact asConsumer_of_fetching hf _
    | _ => exact absurd hi (by simp [Instr.agent])

/-! ### A push -/

/-- A push that fits stores the byte of index `j` of header and payload `j` bytes behind rb_head (R122). -/
theorem Ring.pushed_read_record {p : Params} {view : List Byte} (r : Ring) (hfit : psize view.length ≤ p.rbCap) {j : Nat}
    (hj : j < (headerBytes view.length ++ view).length) :
    (r.pushed p view).mem.read ((r.head + j) % p.rbCap) = some (headerBytes view.length ++ view)[j] := by
  rw [Ring.pushed_mem]
  have hnodup : (ringAddrs p.rbCap r.head (hdrBytes + view.length)).Nodup := ringAddrs_nodup ((le_psize _).trans hfit)
  have hread := Memory.read_writeAll_getElem r.mem hnodup (by simpa using hj) hj
  rwa [ringAddrs_getElem] at hread

/-- A push writes no byte but those of header and payload: not the pad, nothing else (R122). -/
theorem Ring.pushed_read_other (p : Params) (view : List Byte) (r : Ring) {a : Nat}
    (ha : ∀ j < hdrBytes + view.length, a ≠ (r.head + j) % p.rbCap) : (r.pushed p view).mem.read a = r.mem.read a := by
  rw [Ring.pushed_mem]
  refine Memory.read_writeAll_other _ _ fun hmem => ?_
  obtain ⟨j, hj, hja⟩ := mem_ringAddrs.mp hmem
  exact ha j hj hja

theorem exec_rbPush_of_full {s : State} {view : List Byte} (h : s.params.rbCap - s.rb.occ < psize view.length) :
    exec (.rbPush view) s = .next (s.respond .rbp (.pushed false)) := by
  simp [exec, execRbPush, Ring.push, h]

theorem exec_rbPush_of_fits {s : State} {view : List Byte} (h : psize view.length ≤ s.params.rbCap - s.rb.occ) :
    exec (.rbPush view) s = .next ((s.withRb (s.rb.pushed s.params view)).respond .rbp (.pushed true)) := by
  simp [exec, execRbPush, Ring.push, Nat.not_lt.mpr h]

/-- Settles O7: the two arms of a push; the record's bytes by `Ring.pushed_read_record`, the rest by `Ring.pushed_read_other`. -/
theorem pushStoresOrDeclines : Obligations.PushStoresOrDeclines := by
  intro s view ps
  refine ⟨exec_rbPush_of_full, fun hfit => ⟨(s.rb.pushed s.params view).mem, exec_rbPush_of_fits hfit, ?_⟩⟩
  have hread {j : Nat} := s.rb.pushed_read_record (p := s.params) (view := view) (hfit.trans (Nat.sub_le _ _)) (j := j)
  have hlen : (headerBytes view.length ++ view).length = 2 + view.length := by simp
  refine ⟨hread (j := 0) (by omega), hread (j := 1) (by omega), fun k hk => ?_, fun a ha => ?_⟩
  · have hpayload := hread (j := 2 + k) (by omega)
    rw [List.getElem_append_right (by simp), ← Nat.add_assoc] at hpayload
    simpa using hpayload
  · exact s.rb.pushed_read_other _ _ fun j hj => ha j (by rwa [Nat.add_comm])

/-! ### What a pop reads -/

/-- A multi-byte read faults at its first address that nothing has written (R49). -/
theorem readAll_of_unwritten {sp : Space} {m : Memory} {addrs : List Nat} {j : Nat} (hj : j < addrs.length)
    (hbefore : ∀ (i : Nat) (hi : i < j), m.read addrs[i] ≠ none) (hnone : m.read addrs[j] = none) :
    readAll sp m addrs = .fault (.unwritten sp addrs[j]) := by
  induction addrs generalizing j with
  | nil => simp at hj
  | cons a addrs ih =>
    cases j with
    | zero => simp_all [readAll]
    | succ j =>
      obtain ⟨b, hb⟩ := Option.ne_none_iff_exists'.mp (hbefore 0 (by omega))
      have hj' : j < addrs.length := by simpa using hj
      have htail : readAll sp m addrs = .fault (.unwritten sp addrs[j]) :=
        ih hj' (fun i hi => hbefore (i + 1) (by omega)) hnone
      rw [List.getElem_cons_zero] at hb
      simp [readAll, hb, htail]

/-- The same at consecutive ring addresses (R62). -/
theorem readAll_ringAddrs_of_unwritten {sp : Space} {m : Memory} {cap a n j : Nat} (hj : j < n)
    (hbefore : ∀ i < j, m.read ((a + i) % cap) ≠ none) (hnone : m.read ((a + j) % cap) = none) :
    readAll sp m (ringAddrs cap a n) = .fault (.unwritten sp ((a + j) % cap)) := by
  have hread := readAll_of_unwritten (sp := sp) (m := m) (addrs := ringAddrs cap a n) (j := j) (by simpa using hj)
    (fun i hi => by simpa using hbefore i hi) (by simpa using hnone)
  rwa [ringAddrs_getElem] at hread

/-- Bytes are read at consecutive ring addresses when each is at its own (R62). -/
theorem Memory.bytesAt_ringAddrs {m : Memory} {cap a n : Nat} {bs : List Byte} (hn : bs.length = n)
    (h : ∀ (j : Nat) (hj : j < bs.length), m.read ((a + j) % cap) = some bs[j]) :
    m.bytesAt (ringAddrs cap a n) = some bs := by
  rw [Memory.bytesAt_eq_some]
  exact List.ext_getElem (by simp [hn]) fun j _ hj => by simpa using h j (by simpa using hj)

/-- Where the payload bytes that a pop returns begin: a Continuation's at the physical start (R127). -/
def Ring.partStart (p : Params) (r : Ring) : Nat := if r.cont then 0 else payloadStart p r.tail

/-- How many of a record's `len` payload bytes a pop returns: what is left of a straddling record, or what lies before the physical end (R127). -/
def Ring.partLength (p : Params) (len : Nat) (r : Ring) : Nat :=
  let k := p.rbCap - payloadStart p r.tail
  if r.cont then len - k else min len k

/-- What a pop that has read `out` answers (R127). -/
def Ring.poppedPart (p : Params) (len : Nat) (out : List Byte) (r : Ring) : Popped :=
  if r.cont then ⟨.continuation, false, out, r.released p len⟩
  else if straddles p r.tail len then ⟨.packet, true, out, { r with cont := true }⟩
  else ⟨.packet, false, out, r.released p len⟩

theorem straddles_iff {p : Params} {t len : Nat} : straddles p t len = true ↔ p.rbCap < payloadStart p t + len := by
  simp [straddles]

theorem straddles_eq_false_iff {p : Params} {t len : Nat} : straddles p t len = false ↔ payloadStart p t + len ≤ p.rbCap := by
  simp [straddles]

section
variable {p : Params} {r : Ring} {len : Nat}

theorem Ring.partStart_of_rest (hc : r.cont = true) : r.partStart p = 0 := by simp [Ring.partStart, hc]

theorem Ring.partStart_of_packet (hc : r.cont = false) : r.partStart p = payloadStart p r.tail := by simp [Ring.partStart, hc]

theorem Ring.partLength_of_rest (hc : r.cont = true) : r.partLength p len = len - (p.rbCap - payloadStart p r.tail) := by
  simp [Ring.partLength, hc]

theorem Ring.partLength_of_first (hc : r.cont = false) (hs : straddles p r.tail len = true) :
    r.partLength p len = p.rbCap - payloadStart p r.tail := by
  have := straddles_iff.mp hs
  simp only [Ring.partLength, hc, Bool.false_eq_true, if_false]; omega

theorem Ring.partLength_of_whole (hc : r.cont = false) (hs : straddles p r.tail len = false) : r.partLength p len = len := by
  have := straddles_eq_false_iff.mp hs
  simp only [Ring.partLength, hc, Bool.false_eq_true, if_false]; omega

/-- A pop of an occupied ring reads one part of its oldest record, in every arm of R127. -/
theorem Ring.pop_eq_readPart (ho : r.occ ≠ 0) (hlen : r.headLength p = .next len)
    (hcont : r.cont = true → straddles p r.tail len = true) :
    r.pop p = andThen (readAll .rb r.mem (ringAddrs p.rbCap (r.partStart p) (r.partLength p len)))
      fun out => .next (r.poppedPart p len out) := by
  cases hc : r.cont with
  | true => simp [Ring.pop, Ring.poppedPart, ho, hlen, hc, hcont hc, Ring.partStart_of_rest hc, Ring.partLength_of_rest hc]
  | false =>
    cases hs : straddles p r.tail len with
    | true => simp [Ring.pop, Ring.poppedPart, ho, hlen, hc, hs, Ring.partStart_of_packet hc, Ring.partLength_of_first hc hs]
    | false => simp [Ring.pop, Ring.poppedPart, ho, hlen, hc, hs, Ring.partStart_of_packet hc, Ring.partLength_of_whole hc hs]

theorem Ring.pop_of_notStraddling (ho : r.occ ≠ 0) (hlen : r.headLength p = .next len) (hc : r.cont = true)
    (hs : straddles p r.tail len = false) : r.pop p = .refused .notStraddling := by
  simp [Ring.pop, ho, hlen, hc, hs]

/-- A pop that cannot read the header stops as that read does (R133). -/
theorem Ring.pop_of_headLength_fault {f : Fault} (ho : r.occ ≠ 0) (hlen : r.headLength p = .fault f) :
    r.pop p = .fault f := by
  simp [Ring.pop, ho, hlen]

/-- The header is read before it is used: its first byte, then its second (R49). -/
theorem Ring.headLength_of_unwritten {j : Nat} (hj : j < hdrBytes)
    (hbefore : ∀ i < j, r.mem.read ((r.tail + i) % p.rbCap) ≠ none) (hnone : r.mem.read ((r.tail + j) % p.rbCap) = none) :
    r.headLength p = .fault (.unwritten .rb ((r.tail + j) % p.rbCap)) := by
  simp [Ring.headLength, readAll_ringAddrs_of_unwritten hj hbefore hnone]

end

/-! ### A pop as an operation -/

section
variable {s : State} {len : Nat}

theorem exec_rbPop (hf : s.io.fetch = none) :
    exec .rbPop s = andThen (s.rb.pop s.params) fun x =>
      .next ((s.withRb x.ring).respond .rbc (.popped x.tag x.more x.out)) :=
  asConsumer_of_none hf _

theorem exec_rbPop_of_fault {f : Fault} (hf : s.io.fetch = none) (h : s.rb.pop s.params = .fault f) :
    exec .rbPop s = .fault f := by simp [exec_rbPop hf, h]

theorem exec_rbPop_of_refused {c : Refusal} (hf : s.io.fetch = none) (h : s.rb.pop s.params = .refused c) :
    exec .rbPop s = .refused c := by simp [exec_rbPop hf, h]

/-- A pop whose part of the record has been written answers it. -/
theorem exec_rbPop_of_part {out : List Byte} (hf : s.io.fetch = none) (ho : s.rb.occ ≠ 0)
    (hlen : s.rb.headLength s.params = .next len) (hcont : s.rb.cont = true → straddles s.params s.rb.tail len = true)
    (hn : out.length = s.rb.partLength s.params len)
    (hout : ∀ (j : Nat) (h : j < out.length), s.rb.mem.read ((s.rb.partStart s.params + j) % s.params.rbCap) = some out[j]) :
    let x := s.rb.poppedPart s.params len out
    exec .rbPop s = .next ((s.withRb x.ring).respond .rbc (.popped x.tag x.more x.out)) := by
  have hread := readAll_eq_next (sp := .rb) |>.mpr (Memory.bytesAt_ringAddrs hn hout)
  simp [exec_rbPop hf, Ring.pop_eq_readPart ho hlen hcont, hread]

end

/-- Settles O8: an empty ring, and the three parts a pop returns (`exec_rbPop_of_part`). -/
theorem popAnswersAndReleases : Obligations.PopAnswersAndReleases := by
  intro s hf
  refine ⟨fun h0 => by simp [exec_rbPop hf, Ring.pop, h0], ?_⟩
  intro b0 b1 out ho hb0 hb1 len ps q k
  have hlen : s.rb.headLength s.params = .next len := Ring.headLength_eq_next.mpr ⟨b0, b1, hb0, hb1, rfl⟩
  have hps : psize len = ps := rfl
  refine ⟨?whole, ?first, ?rest⟩ <;> intro hc hq hn hout
  case whole =>
    have hs : straddles s.params s.rb.tail len = false := straddles_eq_false_iff.mpr hq
    have hpop := exec_rbPop_of_part hf ho hlen (by simp [hc]) (hn.trans (Ring.partLength_of_whole hc hs).symm)
      (by rw [Ring.partStart_of_packet hc]; exact hout)
    simpa [Ring.poppedPart, Ring.released, State.withRb, hps, hc, hs] using hpop
  case first =>
    have hs : straddles s.params s.rb.tail len = true := straddles_iff.mpr hq
    have hpop := exec_rbPop_of_part hf ho hlen (by simp [hc]) (hn.trans (Ring.partLength_of_first hc hs).symm)
      (by rw [Ring.partStart_of_packet hc]; exact hout)
    simpa [Ring.poppedPart, State.withRb, hc, hs] using hpop
  case rest =>
    have hs : straddles s.params s.rb.tail len = true := straddles_iff.mpr hq
    have hpop := exec_rbPop_of_part hf ho hlen (fun _ => hs) (hn.trans (Ring.partLength_of_rest hc).symm)
      (by simpa [Ring.partStart_of_rest hc] using hout)
    simpa [Ring.poppedPart, Ring.released, State.withRb, hps, hc] using hpop

/-- Settles O9: the header's read stops, the continuation is refused, or the part's read stops (`Ring.pop_eq_readPart`). -/
theorem popStops : Obligations.PopStops := by
  intro s hf ho h0 h1
  have hheader {j : Nat} := Ring.headLength_of_unwritten (r := s.rb) (p := s.params) (j := j)
  refine ⟨fun hnone => ?_, fun b0 hb0 => ⟨fun hnone => ?_, ?_⟩⟩
  · have hlen := hheader (j := 0) (by decide) (by simp) hnone
    exact exec_rbPop_of_fault hf (Ring.pop_of_headLength_fault ho hlen)
  · have hlen := hheader (j := 1) (by decide) (by simp [h0, hb0]) hnone
    exact exec_rbPop_of_fault hf (Ring.pop_of_headLength_fault ho hlen)
  · intro b1 hb1 len q k start count
    have hlen : s.rb.headLength s.params = .next len := Ring.headLength_eq_next.mpr ⟨b0, b1, hb0, hb1, rfl⟩
    refine ⟨fun hc hq => ?_, fun j hj hcont hbefore hnone => ?_⟩
    · exact exec_rbPop_of_refused hf (Ring.pop_of_notStraddling ho hlen hc (straddles_eq_false_iff.mpr hq))
    · have hread : readAll .rb s.rb.mem (ringAddrs s.params.rbCap (s.rb.partStart s.params) (s.rb.partLength s.params len)) =
          .fault (.unwritten .rb ((start + j) % s.params.rbCap)) :=
        readAll_ringAddrs_of_unwritten hj hbefore hnone
      have hpop := Ring.pop_eq_readPart ho hlen fun hc => straddles_iff.mpr (hcont hc)
      exact exec_rbPop_of_fault hf (by rw [hpop, hread, andThen_fault])

end Sys2Proof.Machine
end

section
/-! The reassembler (R151 to R153): the bytes of the oldest record in any sound ring, the staging of its parts, and a RSM_FETCH
run to its end. -/

namespace Sys2Proof.Machine

/-! ### The first pop -/

/-- Header and payload of a record are read at consecutive offsets (R90, R91). -/
theorem Memory.RecordAt.bytes {m : Memory} {cap t : Nat} {v : List Byte} (h : m.RecordAt cap t v) :
    m.bytesAt (ringAddrs cap t (hdrBytes + v.length)) = some (headerBytes v.length ++ v) := by
  have hheader := Memory.bytesAt_eq_some.mp h.header
  have hpayload := Memory.bytesAt_eq_some.mp h.payload
  rw [Memory.bytesAt_eq_some, ringAddrs_append, List.map_append, List.map_append, hheader, hpayload]

theorem Memory.isSome_of_bytesAt {m : Memory} {addrs : List Nat} {bs : List Byte} (h : m.bytesAt addrs = some bs) {a : Nat}
    (ha : a ∈ addrs) : (m.read a).isSome = true := by
  have hmem := List.mem_map_of_mem (f := m.read) ha
  rw [Memory.bytesAt_eq_some.mp h] at hmem
  obtain ⟨b, -, hb⟩ := List.mem_map.mp hmem
  simp [← hb]

theorem Memory.RecordAt.read_isSome {m : Memory} {cap t i : Nat} {v : List Byte} (h : m.RecordAt cap t v)
    (hi : i < hdrBytes + v.length) : (m.read ((t + i) % cap)).isSome = true :=
  Memory.isSome_of_bytesAt h.bytes (mem_ringAddrs.mpr ⟨i, hi, rfl⟩)

/-- The rest of a straddling record lies behind the physical end, within the record, whatever the capacity. -/
theorem Memory.RecordAt.rest_isSome {p : Params} {m : Memory} {t i : Nat} {v : List Byte} (h : m.RecordAt p.rbCap t v)
    (ht : t < p.rbCap) (hi : i < v.length - (p.rbCap - payloadStart p t)) : (m.read (i % p.rbCap)).isSome = true := by
  have hwithin : p.rbCap - t + i < hdrBytes + v.length := by
    simp only [payloadStart, hdrBytes] at hi ⊢
    split at hi <;> omega
  have hread := h.read_isSome hwithin
  rwa [← Nat.add_assoc, Nat.add_sub_cancel' ht.le, Nat.add_mod_left] at hread

/-- Where a continuation is due a pop of a sound ring answers Continuation, whatever the parameters (R26 (e), R131). -/
theorem Ring.Sound.pop_continuation {p : Params} {r : Ring} (h : r.Sound p) (hc : r.cont = true) :
    ∃ x, r.pop p = .next x ∧ x.tag = .continuation := by
  obtain ⟨hpos, v, rest, hv, hs⟩ := h.cont_straddles hc
  obtain ⟨hr, -, -⟩ := Ring.records_eq_some.mp hv
  have hwritten : ∀ a ∈ ringAddrs p.rbCap (r.partStart p) (r.partLength p v.length), (r.mem.read a).isSome = true := by
    intro a ha
    rw [Ring.partStart_of_rest hc, Ring.partLength_of_rest hc] at ha
    obtain ⟨i, hi, rfl⟩ := mem_ringAddrs.mp ha
    rw [Nat.zero_add]
    exact hr.rest_isSome h.tail_lt hi
  obtain ⟨out, hout, -⟩ := Memory.bytesAt_isSome hwritten
  refine ⟨r.poppedPart p v.length out, ?_, by simp [Ring.poppedPart, hc]⟩
  rw [Ring.pop_eq_readPart hpos.ne' (Ring.headLength_of_recordAt hr) fun _ => hs, readAll_eq_next.mpr hout, andThen_next]

section
variable {s : State} {x : Popped} (hf : s.io.fetch = none) (hx : s.rb.pop s.params = .next x)
include hf hx

theorem exec_rsmFetch_of_none (ht : x.tag = .none) : exec .rsmFetch s = .next (s.respond .rbc (.fetched false false)) := by
  simp [exec, execRsmFetch, asConsumer_of_none hf, hx, ht]

theorem exec_rsmFetch_of_continuation (ht : x.tag = .continuation) : exec .rsmFetch s = .refused .mixedConsumer := by
  simp [exec, execRsmFetch, asConsumer_of_none hf, hx, ht]

theorem exec_rsmFetch_of_packet (ht : x.tag = .packet) : exec .rsmFetch s = .next (stagePacket x s) := by
  simp [exec, execRsmFetch, asConsumer_of_none hf, hx, ht]

end

/-- Settles O18: the pop of an empty ring answers None; where a continuation is due, `Ring.Sound.pop_continuation`. -/
theorem fetchEmptyOrMixed : Obligations.FetchEmptyOrMixed := by
  intro s hf
  refine ⟨fun h0 => ?_, fun h hc => ?_⟩
  · have hpop : s.rb.pop s.params = .next ⟨.none, false, [], s.rb⟩ := by simp [Ring.pop, h0]
    exact exec_rsmFetch_of_none hf hpop rfl
  · obtain ⟨x, hx, ht⟩ := h.pop_continuation hc
    exact exec_rsmFetch_of_continuation hf hx ht

/-! ### Joining the parts -/

/-- The joined bytes are at the beginning of the staging store, if they fit there; of a record that is too long only the length
counts (R153 (a)). -/
def Staged (p : Params) (m : Memory) (joined : List Byte) : Prop :=
  joined.length ≤ p.blePktMax → m.bytesAt (slotAddrs 0 joined.length) = some joined

theorem staged_nil (p : Params) (m : Memory) : Staged p m [] := fun _ => rfl

theorem slotAddrs_append (a k n : Nat) : slotAddrs a (k + n) = slotAddrs a k ++ slotAddrs (a + k) n :=
  List.range'_append_1.symm

/-- A fragment joined behind the staged bytes (R152). -/
theorem Staged.joinFragment {p : Params} {m : Memory} {joined : List Byte} (h : Staged p m joined) (fragment : List Byte) :
    Staged p (joinFragment p joined.length fragment m) (joined ++ fragment) := by
  intro hfit
  rw [List.length_append] at hfit ⊢
  have hall : roomFor p joined.length fragment = fragment := List.take_of_length_le (by omega)
  have hold : (writeAll m (slotAddrs joined.length fragment.length) fragment).bytesAt (slotAddrs 0 joined.length) =
      some joined := by
    rw [← h (by omega)]
    refine Memory.bytesAt_congr fun a ha => Memory.read_writeAll_other _ _ fun ha' => ?_
    rw [mem_slotAddrs] at ha ha'
    omega
  have hnew := Memory.bytesAt_writeAll m (slotAddrs_nodup joined.length fragment.length) (slotAddrs_length _ _)
  rw [Memory.bytesAt_eq_some] at hold hnew ⊢
  simp only [Machine.joinFragment, hall, slotAddrs_append, Nat.zero_add, List.map_append, hold, hnew]

/-! ### The later steps -/

theorem actAs_of_fetching {s : State} {f : FetchProgress} (hl : s.io.live = true) (hf : s.io.fetch = some f) :
    actAs .ringConsumer s = continueFetch f s := by
  rw [actAs_of_inside (by simp [State.inside, hl, hf])]
  simp [continueOperation, hf]

/-- The state once the Continuation has been popped and joined to `n` bytes (R152, step 2). -/
def stageContinuation (n : Nat) (x : Popped) (s : State) : State :=
  { (s.withRb x.ring).withFetch (some ⟨n + x.out.length, false⟩) with
    rsmBuf := joinFragment s.params n x.out s.rsmBuf }

theorem actAs_of_continuation {s : State} {n : Nat} {x : Popped} (hl : s.io.live = true)
    (hf : s.io.fetch = some ⟨n, true⟩) (hx : s.rb.pop s.params = .next x) (ht : x.tag = .continuation) :
    actAs .ringConsumer s = .next (stageContinuation n x s) := by
  simp [actAs_of_fetching hl hf, continueFetch, fetchContinuation, stageContinuation, hx, ht]

/-- The decoder is loaded as by DEC_LOAD of the joined bytes, also where they do not fit (R153 (a)). -/
theorem loadJoined_of_staged {s : State} {joined : List Byte} (more : Bool) (h : Staged s.params s.rsmBuf joined) :
    loadJoined ⟨joined.length, more⟩ s = .next (s.dec.load s.params joined) := by
  unfold loadJoined
  split
  · next hlong => rw [Decoder.load_tooLong s.dec hlong]
  · next hfit => rw [readAll_eq_next.mpr (h (Nat.le_of_not_lt hfit)), andThen_next]

/-- Step 3 loads what is staged and answers (R152). -/
theorem actAs_of_staged {s : State} {joined : List Byte} (hl : s.io.live = true)
    (hf : s.io.fetch = some ⟨joined.length, false⟩) (h : Staged s.params s.rsmBuf joined) :
    actAs .ringConsumer s =
      .next ({ (s.withDec (s.dec.load s.params joined)).withFetch none with rsmBuf := [] }.respond .rbc
        (.fetched true (s.dec.load s.params joined).ok)) := by
  simp [actAs_of_fetching hl hf, continueFetch, fetchLoad, loadJoined_of_staged false h]

/-! ### A fetch run to its end -/

/-- The state once a RSM_FETCH has taken the record `v` off the ring and loaded it. -/
def State.fetched (v : List Byte) (s : State) : State :=
  { ((s.withRb (s.rb.released s.params v.length)).withDec (s.dec.load s.params v)).withFetch none with
    rsmBuf := [] }.respond .rbc (.fetched true (s.dec.load s.params v).ok)

theorem Ring.released_of_no_cont {p : Params} {len : Nat} {r : Ring} (h : r.cont = false) :
    r.released p len = { r with tail := (r.tail + psize len) % p.rbCap, occ := r.occ - psize len } := by
  rw [Ring.released, ← h]

theorem State.fetched_eq {v : List Byte} {s : State} (hc : s.rb.cont = false) (hf : s.io.fetch = none) :
    s.fetched v = { s with
      rb := { s.rb with
        tail := (s.rb.tail + psize v.length) % s.params.rbCap, occ := s.rb.occ - psize v.length },
      dec := s.dec.load s.params v,
      rsmBuf := [],
      io := { s.io with
        outbox := s.io.outbox ++ [.response .rbc (.fetched true (s.dec.load s.params v).ok)] } } := by
  rw [State.fetched, Ring.released_of_no_cont hc, ← hf]
  rfl

section
variable {s : State} {v : List Byte} {rest : List (List Byte)} (hp : s.params.wf = true) (hl : s.io.live = true)
  (h : s.rb.Sound s.params) (hv : s.rb.records s.params = some (v :: rest)) (hc : s.rb.cont = false)
  (hf : s.io.fetch = none)
include hp hl h hv hc hf

/-- A record that does not straddle: one pop, then the load. -/
theorem fetch_whole (hs : straddles s.params s.rb.tail v.length = false) :
    ∃ t, exec .rsmFetch s = .next t ∧ turnsOf .ringConsumer 1 t = .next (s.fetched v) := by
  have hpop : s.rb.pop s.params = .next ⟨.packet, false, v, s.rb.released s.params v.length⟩ := by
    simp [h.pop_eq hp hv, Ring.popped, hc, hs]
  refine ⟨_, exec_rsmFetch_of_packet hf hpop rfl, ?_⟩
  rw [turnsOf, actAs_of_staged (s := stagePacket _ s) (joined := v) hl rfl ((staged_nil _ []).joinFragment v)]
  rfl

/-- A record that straddles: two pops of the same record, then the load of the two parts joined. -/
theorem fetch_straddling (hs : straddles s.params s.rb.tail v.length = true) :
    ∃ t, exec .rsmFetch s = .next t ∧ turnsOf .ringConsumer 2 t = .next (s.fetched v) := by
  let k := s.params.rbCap - payloadStart s.params s.rb.tail
  let first : Popped := ⟨.packet, true, v.take k, { s.rb with cont := true }⟩
  have hfirst : s.rb.pop s.params = .next first := by simp [h.pop_eq hp hv, Ring.popped, hc, hs, k, first]
  let last : Popped := ⟨.continuation, false, v.drop k, s.rb.released s.params v.length⟩
  have hlast : first.ring.pop s.params = .next last := (h.pop hp hfirst).pop_eq hp hv
  have hstaged : Staged s.params _ (v.take k ++ v.drop k) :=
    ((staged_nil _ []).joinFragment (v.take k)).joinFragment (v.drop k)
  rw [List.nil_append, List.take_append_drop] at hstaged
  have hlen : (v.take k).length + (v.drop k).length = v.length := by
    rw [← List.length_append, List.take_append_drop]
  refine ⟨_, exec_rsmFetch_of_packet hf hfirst rfl, ?_⟩
  rw [turnsOf, actAs_of_continuation (s := stagePacket first s) hl rfl hlast rfl, andThen_next, turnsOf,
    actAs_of_staged (s := stageContinuation _ last (stagePacket first s)) (joined := v) hl (by rw [← hlen]; rfl) hstaged]
  rfl

end

/-- Settles O19: `fetch_whole`, `fetch_straddling`; the ring without its oldest record is `Ring.Sound.released`. -/
theorem fetchJoinsAndLoads : Obligations.FetchJoinsAndLoads := by
  intro s v rest hp hl h hv hc hf
  have hrun : ∃ t, exec .rsmFetch s = .next t ∧
      turnsOf .ringConsumer (if straddles s.params s.rb.tail v.length then 2 else 1) t = .next (s.fetched v) := by
    cases hs : straddles s.params s.rb.tail v.length with
    | true => exact fetch_straddling hp hl h hv hc hf hs
    | false => exact fetch_whole hp hl h hv hc hf hs
  obtain ⟨t, ht, hu⟩ := hrun
  exact ⟨t, s.fetched v, ht, hu, (h.released hp hv).1, State.fetched_eq hc hf⟩

end Sys2Proof.Machine
end

section
/-! The timestamps of a packet as bits and as numbers (R96 to R100, R149, R160): six high bits from the header, seven low bits
from the last timestamp byte. -/

namespace Sys2Proof.Machine

theorem eq_ofNat_of_toNat_eq {w n : Nat} {x : BitVec w} (h : x.toNat = n) : x = BitVec.ofNat w n := by
  rw [← h, BitVec.ofNat_toNat, BitVec.setWidth_eq]

/-! ### Assembled from the bytes of a packet -/

theorem tsLow_toNat (b : Byte) : (tsLow b).toNat = b.toNat % 128 := by
  simp only [tsLow, BitVec.toNat_setWidth, BitVec.extractLsb'_toNat, Nat.shiftRight_zero]
  omega

theorem tsHigh_toNat (b : Byte) : (tsHigh b).toNat = b.toNat % 64 := by
  simp only [tsHigh, BitVec.toNat_setWidth, BitVec.extractLsb'_toNat, Nat.shiftRight_zero]
  omega

theorem tsFromHeader_toNat (sh : TsShift) (b : Byte) : (tsFromHeader sh b).toNat = b.toNat % 64 * 2 ^ sh.bits := by
  rw [tsFromHeader, BitVec.toNat_shiftLeft, tsHigh_toNat, Nat.shiftLeft_eq]
  cases sh <;> simp only [TsShift.bits] <;> omega

/-- The header leaves the low seven bits clear, whatever the shift. -/
theorem tsFromHeader_mod (sh : TsShift) (b : Byte) : (tsFromHeader sh b).toNat % 128 = 0 := by
  rw [tsFromHeader_toNat]
  cases sh <;> simp only [TsShift.bits] <;> omega

/-- Low bits joined to a timestamp that has none are added to it. -/
theorem or_tsLow_toNat {ts : Timestamp} (h : ts.toNat % 128 = 0) (b : Byte) :
    (ts ||| tsLow b).toNat = ts.toNat + b.toNat % 128 := by
  obtain ⟨k, hk⟩ := Nat.dvd_of_mod_eq_zero h
  have hlt : b.toNat % 128 < 2 ^ 7 := Nat.mod_lt _ (by decide)
  rw [BitVec.toNat_or, tsLow_toNat, hk, ← Nat.two_pow_add_eq_or_of_lt hlt]

/-- The mask of R149 clears the low seven bits. -/
theorem and_highMask (ts : Timestamp) : ts &&& 0x3F80#14 = (ts >>> 7) <<< 7 := by
  refine BitVec.eq_of_getLsbD_eq fun i hi => ?_
  interval_cases i <;> simp

/-- `dec_ts[6:0] <- b[6:0]` as a number: no carry (R149). -/
theorem tsReplaceLow_toNat (ts : Timestamp) (b : Byte) :
    (tsReplaceLow ts b).toNat = ts.toNat - ts.toNat % 128 + b.toNat % 128 := by
  have hmask : (ts &&& 0x3F80#14).toNat = ts.toNat - ts.toNat % 128 := by
    rw [and_highMask, BitVec.toNat_shiftLeft, BitVec.toNat_ushiftRight, Nat.shiftLeft_eq, Nat.shiftRight_eq_div_pow]
    omega
  rw [tsReplaceLow, or_tsLow_toNat (by omega), hmask]

/-- A load joins the timestamp-low byte to the header as DEC_NEXT would consume it (R97, R149). -/
theorem tsReplaceLow_tsFromHeader (sh : TsShift) (b0 b1 : Byte) :
    tsReplaceLow (tsFromHeader sh b0) b1 = tsFromHeader sh b0 ||| tsLow b1 := by
  have hlow := tsFromHeader_mod sh b0
  refine BitVec.eq_of_toNat_eq ?_
  rw [tsReplaceLow_toNat, or_tsLow_toNat hlow, hlow, Nat.sub_zero]

/-- A timestamp byte that comes again changes nothing. -/
theorem tsReplaceLow_tsReplaceLow (ts : Timestamp) (b : Byte) : tsReplaceLow (tsReplaceLow ts b) b = tsReplaceLow ts b := by
  refine BitVec.eq_of_toNat_eq ?_
  rw [tsReplaceLow_toNat, tsReplaceLow_toNat]
  omega

/-! ### Split into the bytes of a packet -/

theorem setHighBit_toNat {x : Byte} (h : x.toNat < 128) : (0x80#8 ||| x).toNat = 128 + x.toNat := by
  rw [BitVec.toNat_or]
  exact (Nat.two_pow_add_eq_or_of_lt (i := 7) h 1).symm

theorem headerByte_toNat (sh : TsShift) (ts : Timestamp) :
    (headerByte sh ts).toNat = 128 + ts.toNat / 2 ^ sh.bits % 64 := by
  have hx : ((ts.extractLsb' sh.bits 6).setWidth 8).toNat = ts.toNat / 2 ^ sh.bits % 64 := by
    simp only [BitVec.toNat_setWidth, BitVec.extractLsb'_toNat, Nat.shiftRight_eq_div_pow]
    omega
  rw [headerByte, setHighBit_toNat (by omega), hx]

theorem timestampByte_toNat (ts : Timestamp) : (timestampByte ts).toNat = 128 + ts.toNat % 128 := by
  have hx : ((ts.extractLsb' 0 7).setWidth 8).toNat = ts.toNat % 128 := by
    simp only [BitVec.toNat_setWidth, BitVec.extractLsb'_toNat, Nat.shiftRight_zero]
    omega
  rw [timestampByte, setHighBit_toNat (by omega), hx]

theorem hiBit_headerByte (sh : TsShift) (ts : Timestamp) : hiBit (headerByte sh ts) = true := by simp [hiBit, headerByte]

theorem hiBit_timestampByte (ts : Timestamp) : hiBit (timestampByte ts) = true := by simp [hiBit, timestampByte]

/-! ### There and back, bit by bit -/

theorem tsLow_timestampByte (ts : Timestamp) : tsLow (timestampByte ts) = ts &&& 0x7F#14 := by
  refine BitVec.eq_of_getLsbD_eq fun i hi => ?_
  interval_cases i <;> simp [tsLow, timestampByte]

/-- The header carries six bits from the shift on (R160). -/
theorem tsFromHeader_headerByte (sh : TsShift) (ts : Timestamp) :
    tsFromHeader sh (headerByte sh ts) = ts &&& (if sh = .seven then 0x1F80#14 else 0x3F00#14) := by
  refine BitVec.eq_of_getLsbD_eq fun i hi => ?_
  cases sh <;> interval_cases i <;> simp [tsFromHeader, tsHigh, headerByte, TsShift.bits]

/-- Header and timestamp byte together carry all bits but one (R161 (c)). -/
theorem tsReplaceLow_headerByte (sh : TsShift) (ts : Timestamp) :
    tsReplaceLow (tsFromHeader sh (headerByte sh ts)) (timestampByte ts) =
      ts &&& (if sh = .seven then 0x1FFF#14 else 0x3F7F#14) := by
  rw [tsReplaceLow, tsFromHeader_headerByte, tsLow_timestampByte, BitVec.and_assoc, ← BitVec.and_or_distrib_left]
  cases sh <;> rfl

end Sys2Proof.Machine
end

section
/-! The operations of the decoder in every state: DEC_LOAD by the kinds of packet (R141 to R144), DEC_NEXT byte by byte and to
the end of the packet (R145 to R149), DEC_TS (R150). -/

namespace Sys2Proof.Machine

/-! ### Loading a packet -/

theorem exec_decLoad (pkt : List Byte) (s : State) : exec (.decLoad pkt) s =
    .next ((s.withDec (s.dec.load s.params pkt)).respond .cod (.loaded (s.dec.load s.params pkt).ok)) := rfl

section
variable {p : Params} {d : Decoder} {b0 b1 : Byte} {rest : List Byte} (h0 : hiBit b0 = true)
include h0

/-- A normal packet: its timestamp-low byte is consumed (R141). -/
theorem Decoder.loaded_normal (h1 : hiBit b1 = true) : d.loaded p (b0 :: b1 :: rest) =
    { buf := writeAll d.buf (slotAddrs 0 (rest.length + 2)) (b0 :: b1 :: rest), len := rest.length + 2, pos := 2, ok := true,
      prevTs := true, ts := tsFromHeader p.tsHiShift b0 ||| tsLow b1 } := by
  simp [Decoder.loaded, h0, h1]

/-- A continuation packet: its byte 1 is a data byte (R144). -/
theorem Decoder.loaded_continuation (h1 : hiBit b1 = false) : d.loaded p (b0 :: b1 :: rest) =
    { buf := writeAll d.buf (slotAddrs 0 (rest.length + 2)) (b0 :: b1 :: rest), len := rest.length + 2, pos := 1, ok := true,
      prevTs := false, ts := tsFromHeader p.tsHiShift b0 } := by
  simp [Decoder.loaded, h0, h1]

end

/-- Settles O12: a continuation packet and a normal one, the timestamp of each as a number. -/
theorem loadWellFormedPacket : Obligations.LoadWellFormedPacket := by
  intro s b0 b1 rest pkt shift hfit h0
  have hbits : s.params.tsHiShift.bits = shift := by cases hs : s.params.tsHiShift <;> simp [shift, hs, TsShift.bits]
  have hhigh := tsFromHeader_toNat s.params.tsHiShift b0
  have hlow := or_tsLow_toNat (tsFromHeader_mod s.params.tsHiShift b0) b1
  rw [hhigh] at hlow
  refine ⟨writeAll s.dec.buf (slotAddrs 0 pkt.length) pkt, ?_, fun k hk => ?_, fun a ha => ?_⟩
  · rw [exec_decLoad, Decoder.load_fits _ hfit, ← hbits]
    cases h1 : b1.getLsbD 7 with
    | false =>
      rw [Decoder.loaded_continuation h0 h1, eq_ofNat_of_toNat_eq hhigh]
      rfl
    | true =>
      rw [Decoder.loaded_normal h0 h1, eq_ofNat_of_toNat_eq hlow]
      rfl
  · have hread := Memory.read_writeAll_getElem s.dec.buf (slotAddrs_nodup 0 pkt.length) (by simpa using hk) hk
    rwa [slotAddrs_getElem, Nat.zero_add] at hread
  · exact Memory.read_writeAll_other _ _ (by simp [mem_slotAddrs, ha])

/-- A packet that is malformed or does not fit leaves an exhausted decoder (R142, R143). -/
theorem Decoder.load_malformed {p : Params} {pkt : List Byte} (d : Decoder)
    (h : pkt.length < 2 ∨ (∃ b0 rest, pkt = b0 :: rest ∧ hiBit b0 = false) ∨ p.blePktMax < pkt.length) :
    (d.load p pkt).ok = false ∧ (d.load p pkt).prevTs = false ∧ (d.load p pkt).ts = 0 ∧
      (d.load p pkt).pos = (d.load p pkt).len := by
  by_cases hlong : p.blePktMax < pkt.length
  · rw [Decoder.load_tooLong d hlong]
    exact ⟨rfl, rfl, rfl, rfl⟩
  · rw [Decoder.load_fits d (Nat.le_of_not_lt hlong)]
    obtain ⟨b0, b1, rest, rfl, h0, -⟩ | ⟨b0, b1, rest, rfl, h0, -⟩ | ⟨-, hlen, hpos, hok, hprev, hts⟩ :=
      Decoder.loaded_cases p pkt d
    · simp_all
    · simp_all
    · exact ⟨hok, hprev, hts, hpos.trans hlen.symm⟩

/-! ### DEC_NEXT and DEC_TS -/

@[simp] theorem State.withDec_self (s : State) : s.withDec s.dec = s := rfl

@[simp] theorem State.withDec_withDec (s : State) (d d' : Decoder) : (s.withDec d).withDec d' = s.withDec d' := rfl

theorem exec_decNext {s : State} {b : Option Byte} {d : Decoder} (h : s.dec.next = .next (b, d)) :
    exec .decNext s = .next ((s.withDec d).respond .cod (.nextByte b)) := by
  simp [exec, execDecNext, h]

theorem exec_decNext_of_exhausted {s : State} (h : s.dec.len ≤ s.dec.pos) :
    exec .decNext s = .next (s.respond .cod (.nextByte none)) :=
  exec_decNext (Decoder.next_of_exhausted h)

/-- DEC_NEXT depends on the decoder through what its loop answers only. -/
theorem exec_decNext_congr {s : State} {d : Decoder} (h : s.dec.next = d.next) :
    exec .decNext s = exec .decNext (s.withDec d) := by
  simp [exec, execDecNext, h]

/-- Settles O13: what the load leaves is exhausted (`Decoder.load_malformed`). -/
theorem loadDiscardsMalformed : Obligations.LoadDiscardsMalformed := by
  intro s pkt h
  obtain ⟨hok, hprev, hts, hpos⟩ := s.dec.load_malformed h
  refine ⟨s.dec.load s.params pkt, ?_, hok, hprev, hts, hpos, fun hlong => ?_, fun t ht => ?_⟩
  · rw [exec_decLoad, hok]
    rfl
  · rw [Decoder.load_tooLong _ hlong]
    exact ⟨rfl, rfl⟩
  · exact exec_decNext_of_exhausted (ht ▸ hpos.ge)

/-- Settles O14: the arms of the loop (`Decoder.next_of_byte`), the replaced low bits as a number. -/
theorem nextByteCases : Obligations.NextByteCases := by
  intro s
  refine ⟨exec_decNext_of_exhausted, fun b hlt hb => ⟨fun hhi => ?data, fun hhi hp => ?status, fun hhi hp => ?timestamp⟩⟩
  case data => exact exec_decNext (Decoder.next_of_data hlt hb hhi)
  case status => exact exec_decNext (Decoder.next_of_status hlt hb hhi hp)
  case timestamp =>
    rw [← eq_ofNat_of_toNat_eq (tsReplaceLow_toNat s.dec.ts b)]
    exact exec_decNext_congr (Decoder.next_of_timestamp hlt hb hhi hp)

/-- Where the packet is stored DEC_NEXT answers: a byte and a cursor further on, or the end (R145, R147). -/
theorem Decoder.next_answers {d : Decoder} (h : d.buf.written d.len) :
    ∃ b d', d.next = .next (b, d') ∧ (b ≠ none → d.pos < d'.pos) ∧ (b = none → d'.len ≤ d'.pos) := by
  induction hn : d.len - d.pos generalizing d with
  | zero => exact ⟨none, d, Decoder.next_of_exhausted (by omega), by simp, fun _ => by omega⟩
  | succ n ih =>
    have hlt : d.pos < d.len := by omega
    obtain ⟨b, hb⟩ := Option.isSome_iff_exists.mp (h _ hlt)
    cases hhi : hiBit b with
    | false => exact ⟨_, _, Decoder.next_of_data hlt hb hhi, by simp, by simp⟩
    | true =>
      cases hp : d.prevTs with
      | true => exact ⟨_, _, Decoder.next_of_status hlt hb hhi hp, by simp, by simp⟩
      | false =>
        have hnext := Decoder.next_of_timestamp hlt hb hhi hp
        obtain ⟨c, d', hd, hsome, hnone⟩ :=
          ih (d := { d with pos := d.pos + 1, prevTs := true, ts := tsReplaceLow d.ts b }) h (by simp only; omega)
        exact ⟨c, d', hnext.trans hd, fun hc => (Nat.lt_succ_self _).trans (hsome hc), hnone⟩

/-- Settles O15: DEC_NEXT answers (`Decoder.next_answers`), and what it leaves alone is `Decoder.nextWithin_keeps`. -/
theorem nextNeverMovesBack : Obligations.NextNeverMovesBack := by
  intro s h
  obtain ⟨b, d, hd, hsome, hnone⟩ := Decoder.next_answers h
  obtain ⟨hbuf, hlen, hok, hpos, hwithin⟩ := Decoder.nextWithin_keeps hd
  refine ⟨b, d, exec_decNext hd, hbuf, hlen, hok, hpos, fun hs => hlen ▸ hwithin hs, hsome, fun hb t ht => ?_⟩
  exact exec_decNext_of_exhausted (ht ▸ hnone hb)

/-- Settles O17: 14 bits fit the field of two bytes. -/
theorem timestampIsPureRead : Obligations.TimestampIsPureRead := by
  intro s
  have hlt : s.dec.ts.toNat < 65536 := s.dec.ts.isLt.trans (by decide)
  exact ⟨rfl, fieldBytes_two hlt⟩

end Sys2Proof.Machine
end

section
/-! The encoder (R160 to R162). A packet is its header and the bytes with a timestamp byte before every status, the first one
included: where the first byte is a status, that timestamp byte is the timestamp-low byte. -/

namespace Sys2Proof.Machine

/-! ### The packet -/

theorem encodeBody_data {b : Byte} (h : hiBit b = false) (tl : Byte) (f : Bool) (rest : List Byte) :
    encodeBody tl f (b :: rest) = b :: encodeBody tl f rest := by simp [encodeBody, h]

theorem encodeBody_status {b : Byte} (h : hiBit b = true) (tl : Byte) (rest : List Byte) :
    encodeBody tl false (b :: rest) = tl :: b :: encodeBody tl false rest := by simp [encodeBody, h]

theorem encodeBody_stamped {b : Byte} (h : hiBit b = true) (tl : Byte) (rest : List Byte) :
    encodeBody tl true (b :: rest) = b :: encodeBody tl false rest := by simp [encodeBody, h]

/-- A timestamp byte comes on top for every byte with the high bit set. -/
theorem length_encodeBody (tl : Byte) (bytes : List Byte) :
    (encodeBody tl false bytes).length = bytes.length + bytes.countP hiBit := by
  induction bytes with
  | nil => rfl
  | cons b rest ih =>
    cases h : hiBit b with
    | false =>
      rw [encodeBody_data h, List.length_cons, ih, List.countP_cons_of_neg (by simp [h]), List.length_cons]
      omega
    | true =>
      rw [encodeBody_status h, List.length_cons, List.length_cons, ih, List.countP_cons_of_pos h, List.length_cons]
      omega

theorem encodeBody_ne_nil {tl : Byte} {bytes : List Byte} (h : bytes ≠ []) : encodeBody tl false bytes ≠ [] := by
  have hpos := List.length_pos_of_ne_nil h
  exact List.ne_nil_of_length_pos (by rw [length_encodeBody]; omega)

/-- The timestamp-low byte is the timestamp byte before a first status (R97, R160). -/
theorem encodePacket_eq (sh : TsShift) (ts : Timestamp) {bytes : List Byte} (hne : bytes ≠ []) :
    encodePacket sh ts bytes = headerByte sh ts :: encodeBody (timestampByte ts) false bytes := by
  obtain ⟨b, rest, rfl⟩ := List.exists_cons_of_ne_nil hne
  cases h : hiBit b with
  | false => simp [encodePacket, h]
  | true => simp [encodePacket, h, encodeBody_stamped h, encodeBody_status h]

/-- R161 (b). -/
theorem length_encodePacket (sh : TsShift) (ts : Timestamp) {bytes : List Byte} (hne : bytes ≠ []) :
    (encodePacket sh ts bytes).length = 1 + bytes.length + bytes.countP hiBit := by
  rw [encodePacket_eq sh ts hne, List.length_cons, length_encodeBody]
  omega

theorem exec_bleEnc (ts : Timestamp) (bytes : List Byte) (s : State) :
    exec (.bleEnc ts bytes) s = .next (s.respond .cod (.encoded (encodeAnswer s.params ts bytes))) := rfl

theorem encodeAnswer_of_fits {p : Params} (ts : Timestamp) {bytes : List Byte} (hne : bytes ≠ [])
    (hfit : (encodePacket p.tsHiShift ts bytes).length ≤ p.blePktMax) :
    encodeAnswer p ts bytes = some (encodePacket p.tsHiShift ts bytes) := by
  simp [encodeAnswer, hne, Nat.not_lt.mpr hfit]

/-- Settles O21: nothing to encode, or a packet that is too long by `length_encodePacket`. -/
theorem encodeDeclines : Obligations.EncodeDeclines := by
  intro s ts bytes h
  have hnone : encodeAnswer s.params ts bytes = none := by
    by_cases hne : bytes = []
    · simp [encodeAnswer, hne]
    · have hlong := h.resolve_left hne
      rw [← length_encodePacket s.params.tsHiShift ts hne] at hlong
      simp [encodeAnswer, hne, hlong]
  rw [exec_bleEnc, hnone]

/-! ### The roles of its bytes -/

theorem timestampLow_notMem_rolesFrom (f : Bool) (bytes : List Byte) : .timestampLow ∉ rolesFrom f bytes := by
  induction bytes generalizing f with
  | nil => simp [rolesFrom]
  | cons b rest ih =>
    simp only [rolesFrom]
    split
    · simp [ih]
    · split <;> simp [ih]

/-- Whatever these roles make a timestamp, the timestamp-low byte included, is `tl` and stands directly before a status. -/
def StampsStatuses (tl : Byte) (bytes : List Byte) (rs : List Role) : Prop :=
  ∀ k : Nat, rs[k]? = some .timestampLow ∨ rs[k]? = some .timestamp → bytes[k]? = some tl ∧ rs[k + 1]? = some .status

section
variable {tl : Byte} {bytes : List Byte} {rs : List Role} (h : StampsStatuses tl bytes rs) (b : Byte)
include h

theorem StampsStatuses.cons {r : Role} (hr : r ≠ .timestampLow ∧ r ≠ .timestamp) :
    StampsStatuses tl (b :: bytes) (r :: rs) := by
  rintro (_ | k) hk
  · simp [hr] at hk
  · simpa using h k (by simpa using hk)

theorem StampsStatuses.stamp (r : Role) : StampsStatuses tl (tl :: b :: bytes) (r :: .status :: rs) := by
  rintro (_ | k) hk
  · simp
  · exact h.cons b (r := .status) (by simp) k hk

end

section
variable {hdr tl b : Byte} (hh : hiBit hdr = true) (ht : hiBit tl = true) (rest : List Byte)

include ht in
theorem stampsStatuses_encodeBody (bytes : List Byte) :
    StampsStatuses tl (encodeBody tl false bytes) (rolesFrom false (encodeBody tl false bytes)) := by
  induction bytes with
  | nil => simp [StampsStatuses, encodeBody, rolesFrom]
  | cons b rest ih =>
    cases hb : hiBit b with
    | false => simpa [encodeBody_data hb, rolesFrom, hb] using ih.cons b (r := .data) (by simp)
    | true => simpa [encodeBody_status hb, rolesFrom, ht, hb] using ih.stamp b .timestamp

include hh in
theorem roles_encoded_data (hb : hiBit b = false) : roles (hdr :: encodeBody tl false (b :: rest)) =
    .header :: .data :: rolesFrom false (encodeBody tl false rest) := by
  simp [encodeBody_data hb, roles, rolesFrom, hh, hb]

include hh ht

theorem roles_encoded_status (hb : hiBit b = true) : roles (hdr :: encodeBody tl false (b :: rest)) =
    .header :: .timestampLow :: .status :: rolesFrom false (encodeBody tl false rest) := by
  simp [encodeBody_status hb, roles, rolesFrom, hh, ht, hb]

theorem stampsStatuses_encoded : StampsStatuses tl (hdr :: encodeBody tl false (b :: rest))
    (roles (hdr :: encodeBody tl false (b :: rest))) := by
  have hrest := stampsStatuses_encodeBody ht rest
  cases hb : hiBit b with
  | false =>
    rw [roles_encoded_data hh rest hb, encodeBody_data hb]
    exact (hrest.cons b (by simp)).cons hdr (by simp)
  | true =>
    rw [roles_encoded_status hh ht rest hb, encodeBody_status hb]
    exact (hrest.stamp b .timestampLow).cons hdr (by simp)

theorem timestampLow_mem_roles_encoded :
    .timestampLow ∈ roles (hdr :: encodeBody tl false (b :: rest)) ↔ hiBit b = true := by
  cases hb : hiBit b with
  | false => simp [roles_encoded_data hh rest hb, timestampLow_notMem_rolesFrom]
  | true => simp [roles_encoded_status hh ht rest hb]

end

/-! ### Decoding it -/

/-- The decoder with the header read and nothing else: byte 1 is next, and no timestamp byte has come yet. -/
def Decoder.behindHeader (sh : TsShift) (header : Byte) (d : Decoder) : Decoder :=
  { d with pos := 1, prevTs := false, ts := tsFromHeader sh header }

theorem Decoder.Left.pos_lt {d : Decoder} {b : Byte} {rest : List Byte} (h : d.Left (b :: rest)) : d.pos < d.len := by
  simp [h.len_eq]

section
variable {p : Params} {d : Decoder} {b0 : Byte} {body : List Byte} (h0 : hiBit b0 = true) (hne : body ≠ [])
include h0 hne

theorem Decoder.loaded_wellFormed :
    (d.loaded p (b0 :: body)).ok = true ∧ (d.loaded p (b0 :: body)).len = body.length + 1 := by
  obtain ⟨b1, rest, rfl⟩ := List.exists_cons_of_ne_nil hne
  cases h1 : hiBit b1 with
  | false => rw [Decoder.loaded_continuation h0 h1]; exact ⟨rfl, rfl⟩
  | true => rw [Decoder.loaded_normal h0 h1]; exact ⟨rfl, rfl⟩

theorem Decoder.behindHeader_left : ((d.loaded p (b0 :: body)).behindHeader p.tsHiShift b0).Left body where
  len_eq := by
    obtain ⟨-, hlen⟩ := Decoder.loaded_wellFormed (p := p) (d := d) h0 hne
    simp [Decoder.behindHeader, hlen, Nat.add_comm]
  stored := by
    have hall := Memory.bytesAt_writeAll d.buf (slotAddrs_nodup 0 (b0 :: body).length) (slotAddrs_length 0 _)
    have hbody := Memory.bytesAt_drop hall 1
    rw [slotAddrs_drop] at hbody
    simpa [Decoder.behindHeader, Decoder.loaded_store] using hbody

/-- After a load DEC_NEXT answers as from behind the header: the timestamp-low byte that the load has consumed is what the loop
would consume first (R97, R145). -/
theorem Decoder.next_loaded :
    (d.loaded p (b0 :: body)).next = ((d.loaded p (b0 :: body)).behindHeader p.tsHiShift b0).next := by
  have hleft := Decoder.behindHeader_left (p := p) (d := d) h0 hne
  obtain ⟨b1, rest, rfl⟩ := List.exists_cons_of_ne_nil hne
  cases h1 : hiBit b1 with
  | false => rw [Decoder.loaded_continuation h0 h1, Decoder.behindHeader]
  | true =>
    rw [Decoder.next_of_timestamp hleft.pos_lt hleft.head h1 rfl, Decoder.loaded_normal h0 h1]
    simp [Decoder.behindHeader, tsReplaceLow_tsFromHeader]

end

section
variable {tl : Byte} (ht : hiBit tl = true) {bytes : List Byte}
include ht

/-- An encoded body gives its bytes back, one DEC_NEXT for each: a timestamp byte is consumed together with its status. -/
theorem Decoder.Left.drain_encodeBody {d : Decoder} (h : d.Left (encodeBody tl false bytes)) (hp : d.prevTs = false) :
    ∃ d', d.drain (bytes.length + 1) = some (bytes, d') ∧
      d'.ts = if bytes.any hiBit then tsReplaceLow d.ts tl else d.ts := by
  induction bytes generalizing d with
  | nil =>
    have hend : d.len = d.pos := h.len_eq
    exact ⟨d, Decoder.drain_of_none (Decoder.next_of_exhausted hend.le) 0, rfl⟩
  | cons b rest ih =>
    cases hb : hiBit b with
    | false =>
      rw [encodeBody_data hb] at h
      obtain ⟨d', hd, hts⟩ := ih (h.tail d.prevTs d.ts) hp
      have hnext := Decoder.next_of_data h.pos_lt h.head hb
      exact ⟨d', Decoder.drain_of_some hnext hd, by simpa [hb] using hts⟩
    | true =>
      rw [encodeBody_status hb] at h
      have hstatus := h.tail true (tsReplaceLow d.ts tl)
      obtain ⟨d', hd, hts⟩ := ih (hstatus.tail false (tsReplaceLow d.ts tl)) rfl
      have hnext := (Decoder.next_of_timestamp h.pos_lt h.head ht hp).trans
        (Decoder.next_of_status hstatus.pos_lt hstatus.head hb rfl)
      exact ⟨d', Decoder.drain_of_some hnext hd, by simpa [hb, tsReplaceLow_tsReplaceLow] using hts⟩

/-- An encoded packet is well-formed, and what is drained after its load are the encoded bytes (R161 (a)). -/
theorem Decoder.loaded_encoded {p : Params} {hdr : Byte} (d : Decoder) (hh : hiBit hdr = true) (hne : bytes ≠ []) :
    (d.loaded p (hdr :: encodeBody tl false bytes)).ok = true ∧
    ∃ d', (d.loaded p (hdr :: encodeBody tl false bytes)).drain (bytes.length + 1) = some (bytes, d') ∧
      d'.ts = if bytes.any hiBit then tsReplaceLow (tsFromHeader p.tsHiShift hdr) tl else tsFromHeader p.tsHiShift hdr := by
  have hbody : encodeBody tl false bytes ≠ [] := encodeBody_ne_nil hne
  obtain ⟨hok, -⟩ := Decoder.loaded_wellFormed (p := p) (d := d) hh hbody
  obtain ⟨d', hdrain, hts⟩ := (Decoder.behindHeader_left (p := p) (d := d) hh hbody).drain_encodeBody ht rfl
  exact ⟨hok, d', (Decoder.drain_congr (Decoder.next_loaded hh hbody) _).trans hdrain, hts⟩

end

/-- Settles O20: the packet's form (`encodePacket_eq`), its roles (`stampsStatuses_encoded`), the round trip
(`Decoder.loaded_encoded`) and the bits that are carried (`tsReplaceLow_headerByte`). -/
theorem encodeRoundTrip : Obligations.EncodeRoundTrip := by
  intro s ts bytes hne hfit
  have hh := hiBit_headerByte s.params.tsHiShift ts
  have ht := hiBit_timestampByte ts
  have hlen := length_encodePacket s.params.tsHiShift ts hne
  rw [← hlen] at hfit
  have hanswer := encodeAnswer_of_fits ts hne hfit
  rw [encodePacket_eq _ _ hne] at hlen hfit hanswer
  obtain ⟨hok, d, hdrain, hts⟩ := Decoder.loaded_encoded (p := s.params) ht s.dec hh hne
  rw [← Decoder.load_fits s.dec hfit] at hok hdrain
  obtain ⟨b, rest, rfl⟩ := List.exists_cons_of_ne_nil hne
  have hstamps := stampsStatuses_encoded hh ht (b := b) rest
  refine ⟨_, _, d, by rw [exec_bleEnc, hanswer], hlen, ?header, ?stamps, ?first, ?placed, exec_decLoad _ s, hok, hdrain,
    fun hany => ?carried, fun hany => ?high⟩
  case header => rw [List.head?_cons, ← eq_ofNat_of_toNat_eq (headerByte_toNat _ _)]
  case stamps =>
    intro k c hc hk
    obtain ⟨htl, -⟩ := hstamps k hk
    obtain rfl : c = timestampByte ts := Option.some.inj (hc.symm.trans htl)
    exact eq_ofNat_of_toNat_eq (timestampByte_toNat ts)
  case first =>
    rw [timestampLow_mem_roles_encoded hh ht]
    simp [hiBit]
  case placed => exact fun k hk => (hstamps k (.inr hk)).2
  case carried => rw [hts, if_pos hany, tsReplaceLow_headerByte]
  case high => rw [hts, if_neg (by simp [hany]), tsFromHeader_headerByte]

end Sys2Proof.Machine
end

section
/-! The transmit engine's operations as equations, one per arm of its rules (R172, R174, R183, R186, R188), and the obligations
that state those arms. -/

namespace Sys2Proof.Machine

/-! ### Bytes of a slot -/

theorem Memory.bytesAt_append {m : Memory} {xs ys : List Nat} {as bs : List Byte} (hx : m.bytesAt xs = some as)
    (hy : m.bytesAt ys = some bs) : m.bytesAt (xs ++ ys) = some (as ++ bs) := by
  rw [Memory.bytesAt_eq_some] at hx hy ⊢
  simp [hx, hy]

/-- A write behind an access leaves what the access reads. -/
theorem Memory.bytesAt_writeAll_behind (m : Memory) (a n : Nat) (bs : List Byte) :
    (writeAll m (slotAddrs a n) bs).bytesAt (slotAddrs 0 a) = m.bytesAt (slotAddrs 0 a) :=
  Memory.bytesAt_congr fun x hx => Memory.read_writeAll_other _ _ fun hx' => by
    have := mem_slotAddrs.mp hx
    have := mem_slotAddrs.mp hx'
    omega

@[simp] theorem Message.bytes_length (m : Message) : m.bytes.length = msgBytes := rfl

/-- A Message is stored behind the bytes that a slot holds (R174). -/
theorem TxSlot.appended_bytesAt {sl : TxSlot} {old : List Byte} (h : sl.buf.bytesAt (slotAddrs 0 sl.fillSize) = some old)
    (m : Message) : (sl.appended m).buf.bytesAt (slotAddrs 0 (sl.fillSize + msgBytes)) = some (old ++ m.bytes) := by
  rw [slotAddrs_append, Nat.zero_add]
  exact Memory.bytesAt_append ((Memory.bytesAt_writeAll_behind ..).trans h)
    (Memory.bytesAt_writeAll _ (slotAddrs_nodup _ _) (by simp))

/-- The `i`th byte of a stored Message is at the `i`th offset behind what the slot held (R64 (d)). -/
theorem TxSlot.appended_read (sl : TxSlot) (m : Message) {i : Nat} (hi : i < m.bytes.length) :
    (sl.appended m).buf.read (sl.fillSize + i) = some m.bytes[i] := by
  have h := Memory.read_writeAll_getElem sl.buf (slotAddrs_nodup sl.fillSize msgBytes) (by simpa using hi) hi
  rwa [slotAddrs_getElem] at h

theorem TxSlot.appended_read_other (sl : TxSlot) (m : Message) {a : Nat}
    (h : a < sl.fillSize ∨ sl.fillSize + msgBytes ≤ a) : (sl.appended m).buf.read a = sl.buf.read a :=
  Memory.read_writeAll_other _ _ fun ha => by have := mem_slotAddrs.mp ha; omega

/-! ### A flush -/

@[simp] theorem Transmit.setSlot_setSlot (t : Transmit) (i : TxIx) (a b : TxSlot) :
    (t.setSlot i a).setSlot i b = t.setSlot i b := by cases i <;> rfl

@[simp] theorem Transmit.cancelEvents_setSlot (t : Transmit) (i : TxIx) (sl : TxSlot) :
    (t.setSlot i sl).cancelEvents = t.cancelEvents := by cases i <;> rfl

/-- The timer and the active index are apart from the slots. -/
theorem Transmit.setStatus_switched (t : Transmit) (i a : TxIx) (b : Bool) (st : SlotStatus) :
    Transmit.setStatus { t with timer := b, active := a } i st =
      { t.setSlot i { t.slot i with st := st } with timer := b, active := a } := by cases i <;> rfl

/-- `tx_flush` of a slot that holds `data` (R172): the slot waits while the other is InFlight, else it is started. -/
theorem Transmit.flush_eq {ctx : Ctx} {i : TxIx} {t : Transmit} {data : List Byte}
    (hd : (t.slot i).buf.bytesAt (slotAddrs 0 (t.slot i).size) = some data) :
    t.flush ctx i = .next
      ({ t.setSlot i { t.slot i with st := if decide ((t.slot i.other).st = .inFlight) then .pending else .inFlight } with
          timer := false, active := i.other },
        t.cancelEvents ++
          if decide ((t.slot i.other).st = .inFlight) then [] else [.txStart ctx i (t.slot i).size data]) := by
  unfold Transmit.flush
  by_cases h : (t.slot i.other).st = .inFlight
  · simp [h, Transmit.setStatus_switched]
  · have hstart := Transmit.start_eq_next (ctx := ctx) (i := i) (t := { t with timer := false, active := i.other })
      |>.mpr ⟨data, by simpa using hd, rfl⟩
    simp [h, hstart, Transmit.setStatus_switched]

@[simp] theorem Transmit.setSlot_withTimer (t : Transmit) (i : TxIx) (b : Bool) (sl : TxSlot) :
    Transmit.setSlot { t with timer := b } i sl = { t.setSlot i sl with timer := b } := by cases i <;> rfl

/-! ### TX_SEND_NOW, TX_TIMEOUT, TX_COMPLETE -/

theorem Transmit.sendNow_of_filling {t : Transmit} (p : Params) (h : (t.slot t.active).st = .filling) :
    t.sendNow p = t.flush .ordinary t.active := if_pos h

theorem Transmit.sendNow_of_empty {p : Params} {t : Transmit} (h : (t.slot t.active).st = .free)
    (hp : p.txSendEmpty = true) :
    t.sendNow p = (t.setSlot t.active { t.slot t.active with st := .filling, size := 0 }).flush .ordinary t.active := by
  simp [Transmit.sendNow, h, hp]

theorem Transmit.sendNow_of_nothing {p : Params} {t : Transmit} (h : (t.slot t.active).st ≠ .filling)
    (hp : (t.slot t.active).st = .free → p.txSendEmpty = false) : t.sendNow p = .next (t, []) := by
  unfold Transmit.sendNow
  rw [if_neg h, if_neg fun ⟨hf, he⟩ => by simp [hp hf] at he]

theorem exec_txSendNow {s : State} {x : Transmit × List Event} (hw : s.io.write = none)
    (hx : s.tx.sendNow s.params = .next x) : exec .txSendNow s = .next (s.withTx x) := by
  simp [exec, execTxSendNow, asForeground_of_none hw, hx]

theorem exec_txTimeout {s : State} {x : Transmit × List Event} (hx : s.tx.timeout = .next x) :
    exec .txTimeout s = .next (s.withTx x) := by
  simp [exec, execTxTimeout, hx]

theorem exec_txComplete {s : State} {ok : Bool} {x : Transmit × List Event} (hx : s.tx.complete ok = .next x) :
    exec (.txComplete ok) s = .next (s.withTx x) := by
  simp [exec, execTxComplete, hx]

theorem State.withTx_nothing (s : State) : s.withTx (s.tx, []) = s := State.emit_nil s

/-- Settles O26: the arms of R183, the flush by `Transmit.flush_eq`. -/
theorem sendNowFlushes : Obligations.SendNowFlushes := by
  intro s data hw i sl waits cancel
  have nothing (h : sl.st ≠ .filling) (hp : sl.st = .free → s.params.txSendEmpty = false) :
      exec .txSendNow s = .next s :=
    (exec_txSendNow hw (Transmit.sendNow_of_nothing h hp)).trans (congrArg _ s.withTx_nothing)
  refine ⟨fun hf hd => ?_, fun hf hp => ?_, fun hf hp => ?_, fun hb => ?_⟩
  · exact exec_txSendNow hw ((Transmit.sendNow_of_filling _ hf).trans (Transmit.flush_eq hd))
  · have hempty := (Transmit.sendNow_of_empty hf hp).trans
      (Transmit.flush_eq (data := []) (by simp [slotAddrs, Memory.bytesAt]))
    rw [Transmit.setSlot_slot, Transmit.setSlot_slot_other, Transmit.setSlot_setSlot, Transmit.cancelEvents_setSlot]
      at hempty
    exact exec_txSendNow hw hempty
  · exact nothing (by simp [hf]) fun _ => hp
  · obtain hb | hb := hb <;> exact nothing (by simp [hb]) (by simp [hb])

/-- Settles O29: a stale expiry does nothing, a live one is a flush from the timer's context (R186). -/
theorem timeoutFlushes : Obligations.TimeoutFlushes := by
  intro s data i sl waits
  refine ⟨fun ht => ?_, fun ht hd => ?_⟩
  · exact (exec_txTimeout (if_pos ht)).trans (congrArg _ s.withTx_nothing)
  · have hlive : s.tx.timeout = Transmit.flush .timer i { s.tx with timer := false } := if_neg (by simp [ht])
    rw [Transmit.flush_eq (data := data) (by simpa using hd), Transmit.setSlot_withTimer] at hlive
    simp only [Transmit.slot_with_timer] at hlive
    exact exec_txTimeout hlive

/-- The slot that a completion answers, where only slot `i` is InFlight (R39 (a)). -/
theorem Transmit.inFlightSlot_eq {t : Transmit} {i : TxIx} (hi : (t.slot i).st = .inFlight)
    (ho : (t.slot i.other).st ≠ .inFlight) : t.inFlightSlot = some i := by
  cases i with
  | zero => exact if_pos hi
  | one => exact (if_neg ho).trans (if_pos hi)

theorem Transmit.complete_of_none {t : Transmit} (ok : Bool) (h : ∀ i, (t.slot i).st ≠ .inFlight) :
    t.complete ok = .refused .strayTxCompletion := by
  have hnone : t.inFlightSlot = none := (if_neg (h .zero)).trans (if_neg (h .one))
  simp [Transmit.complete, hnone]

/-- A completion with nothing waiting frees the InFlight slot (R188). -/
theorem Transmit.complete_of_idle {t : Transmit} {i : TxIx} (ok : Bool) (hi : t.inFlightSlot = some i)
    (ho : (t.slot i.other).st ≠ .pending) : t.complete ok = .next (t.freed ok i, []) := by
  simp [Transmit.complete, hi, ho]

/-- A completion with a slot waiting frees the InFlight slot and starts the Pending one (R188). -/
theorem Transmit.complete_of_pending {t : Transmit} {i : TxIx} {data : List Byte} (ok : Bool) (hi : t.inFlightSlot = some i)
    (ho : (t.slot i.other).st = .pending)
    (hd : (t.slot i.other).buf.bytesAt (slotAddrs 0 (t.slot i.other).size) = some data) :
    t.complete ok = .next ((t.freed ok i).setStatus i.other .inFlight,
      [.txStart .interrupt i.other (t.slot i.other).size data]) := by
  have hstart := Transmit.start_eq_next (ctx := .interrupt) (i := i.other) (t := t.freed ok i)
    |>.mpr ⟨data, by simpa using hd, rfl⟩
  simpa [Transmit.complete, hi, ho] using hstart

/-- The engine once a transfer is over, with the counter's sum written out modulo 2^32 (R244). -/
theorem Transmit.freed_eq (ok : Bool) (i : TxIx) (t : Transmit) :
    t.freed ok i = { t.setSlot i { t.slot i with size := 0, st := .free } with
      err := if ok then t.err else BitVec.ofNat 32 (t.err.toNat + 1) } := by
  have hsum : t.err + 1 = BitVec.ofNat 32 (t.err.toNat + 1) := by simp [BitVec.ofNat_add]
  rw [Transmit.freed, hsum]

/-- Settles O30: the three arms of a completion (`Transmit.complete_of_none`, `_of_idle`, `_of_pending`). -/
theorem completionFreesAndStarts : Obligations.CompletionFreesAndStarts := by
  intro s ok
  refine ⟨fun h => ?_, fun i hi ho => ?_⟩
  · simp [exec, execTxComplete, Transmit.complete_of_none ok h]
  · intro err' freed
    have hslot := Transmit.inFlightSlot_eq hi ho
    have hfreed : s.tx.freed ok i = freed := Transmit.freed_eq ok i s.tx
    refine ⟨fun hnp => ?_, fun data hp hd => ?_⟩
    · rw [exec_txComplete (Transmit.complete_of_idle ok hslot hnp), hfreed]
      exact congrArg _ (State.emit_nil _)
    · rw [exec_txComplete (Transmit.complete_of_pending ok hslot hp hd), Transmit.setStatus, Transmit.freed_slot_other, hfreed]
      rfl

/-! ### A write -/

theorem Transmit.append_of_busy {t : Transmit} (p : Params) (m : Message) (h : (t.slot t.active).st.busy = true) :
    t.append p m = .next none := if_pos h

/-- A Message that does not fill its slot (R174, R175): the first one arms the timer. -/
theorem Transmit.append_of_fits {p : Params} {t : Transmit} (m : Message) (hb : (t.slot t.active).st.busy = false)
    (hfit : (t.slot t.active).fillSize + msgBytes < p.pktBytes) :
    t.append p m = .next (some
      ({ t.setSlot t.active ((t.slot t.active).appended m) with
          timer := if (t.slot t.active).fillSize = 0 then true else t.timer },
        if (t.slot t.active).fillSize = 0 then [.timerArm] else [])) := by
  unfold Transmit.append
  rw [if_neg (by simp [hb]), if_neg (Nat.not_lt.mpr hfit.le), if_neg hfit.ne]
  by_cases hz : (t.slot t.active).fillSize = 0
  · simp [hz]
  · rw [if_neg hz, if_neg hz, if_neg hz, ← Transmit.setSlot_timer t t.active]

/-- A Message that fills its slot (R172, R174): the slot leaves Filling with all its bytes. -/
theorem Transmit.append_of_fills {p : Params} {t : Transmit} {old : List Byte} (m : Message)
    (hb : (t.slot t.active).st.busy = false) (hfill : (t.slot t.active).fillSize + msgBytes = p.pktBytes)
    (hold : (t.slot t.active).buf.bytesAt (slotAddrs 0 (t.slot t.active).fillSize) = some old) :
    t.append p m = .next (some
      ({ t.setSlot t.active ⟨((t.slot t.active).appended m).buf, p.pktBytes,
            if decide ((t.slot t.active.other).st = .inFlight) then .pending else .inFlight⟩ with
          timer := false, active := t.active.other },
        t.cancelEvents ++ if decide ((t.slot t.active.other).st = .inFlight) then []
          else [.txStart .ordinary t.active p.pktBytes (old ++ m.bytes)])) := by
  have hflush := Transmit.flush_eq (ctx := .ordinary) (i := t.active) (data := old ++ m.bytes)
    (t := t.setSlot t.active ((t.slot t.active).appended m))
    (by rw [Transmit.setSlot_slot]; exact TxSlot.appended_bytesAt hold m)
  have hsize : ((t.slot t.active).appended m).size = p.pktBytes := hfill
  unfold Transmit.append
  rw [if_neg (by simp [hb]), if_neg hfill.not_gt, if_pos hfill, hflush]
  simp [hsize]

theorem exec_txWrite {s : State} (msgs : List Message) (hw : s.io.write = none) (hc : s.io.caller = .ordinary) :
    exec (.txWrite msgs) s = writeStep ⟨true, msgs, 0⟩ s :=
  (asForeground_of_none hw _).trans (if_pos hc)

theorem exec_txWriteNb {s : State} (msgs : List Message) (hw : s.io.write = none) :
    exec (.txWriteNb msgs) s = writeStep ⟨false, msgs, 0⟩ s := asForeground_of_none hw _

theorem continueOperation_of_writing {s : State} {w : WriteProgress} (hw : s.io.write = some w) :
    continueOperation .txForeground s = writeStep w s := by
  cases hf : s.io.fetch <;> simp [continueOperation, hf, hw]

/-- A step of a write whose Message is accepted. -/
theorem writeStep_of_accepted {s : State} {m : Message} {x : Transmit × List Event}
    (hx : s.tx.append s.params m = .next (some x)) (blocking : Bool) (ms : List Message) (n : Nat) :
    writeStep ⟨blocking, m :: ms, n⟩ s = .next (acceptedOne ⟨blocking, ms, n + 1⟩ (s.withTx x)) := by
  simp [writeStep, hx]

/-- A step of a write whose Message is turned away (R177, R180). -/
theorem writeStep_of_blocked {s : State} (hb : (s.tx.slot s.tx.active).st.busy = true) (blocking : Bool) (m : Message)
    (ms : List Message) (n : Nat) :
    writeStep ⟨blocking, m :: ms, n⟩ s = .next
      (if blocking then s.withWrite (some ⟨blocking, m :: ms, n⟩) else finishWrite ⟨blocking, m :: ms, n⟩ s) := by
  cases blocking <;> simp [writeStep, Transmit.append_of_busy _ _ hb]

/-- In its first step or any later one, a write whose Message is accepted ends in the same way, `after` (R75, R176, R180). -/
theorem write_of_accepted {s : State} {m : Message} {ms : List Message} {x : Transmit × List Event}
    {after : Bool → Nat → State} (hx : s.tx.append s.params m = .next (some x))
    (hafter : ∀ blocking n, acceptedOne ⟨blocking, ms, n⟩ (s.withTx x) = after blocking n) :
    (s.io.write = none → s.io.caller = .ordinary → exec (.txWrite (m :: ms)) s = .next (after true 1)) ∧
    (s.io.write = none → exec (.txWriteNb (m :: ms)) s = .next (after false 1)) ∧
    (∀ blocking n, s.io.write = some ⟨blocking, m :: ms, n⟩ →
      continueOperation .txForeground s = .next (after blocking (n + 1))) := by
  have hstep (blocking : Bool) (n : Nat) : writeStep ⟨blocking, m :: ms, n⟩ s = .next (after blocking (n + 1)) := by
    rw [writeStep_of_accepted hx, hafter]
  exact ⟨fun hw hc => (exec_txWrite _ hw hc).trans (hstep true 0), fun hw => (exec_txWriteNb _ hw).trans (hstep false 0),
    fun blocking n hw => (continueOperation_of_writing hw).trans (hstep blocking n)⟩

/-- Settles O22: the accepted Message by `Transmit.append_of_fits`, its bytes by `TxSlot.appended_read`. -/
theorem writeAddsMessage : Obligations.WriteAddsMessage := by
  intro s m ms i sl f hopen hfit
  have hx := Transmit.append_of_fits m (SlotStatus.busy_eq_false.mpr hopen) hfit
  refine ⟨(sl.appended m).buf, ?_⟩
  intro c ended after
  obtain ⟨hwrite, hwriteNb, hlater⟩ := write_of_accepted (ms := ms) (after := after) hx fun blocking n => by
    cases ms <;> cases blocking <;> rfl
  have hread (j : Nat) (hj : j < 4) : (sl.appended m).buf.read (f + j) = some (m.bytes[j]'hj) := sl.appended_read m hj
  exact ⟨hwrite, hwriteNb, hlater, hread 0 (by decide), hread 1 (by decide), hread 2 (by decide), hread 3 (by decide),
    fun a => sl.appended_read_other m⟩

/-- Settles O23: the accepted Message by `Transmit.append_of_fills`, its bytes by `TxSlot.appended_bytesAt`. -/
theorem writeThatFillsFlushes : Obligations.WriteThatFillsFlushes := by
  intro s m ms old i sl f hopen hfill hold
  have hx := Transmit.append_of_fills m (SlotStatus.busy_eq_false.mpr hopen) hfill hold
  refine ⟨(sl.appended m).buf, ?_⟩
  intro waits c ended after
  obtain ⟨hwrite, hwriteNb, hlater⟩ := write_of_accepted (ms := ms) (after := after) hx fun blocking n => by
    cases ms <;> cases blocking <;> rfl
  refine ⟨hwrite, hwriteNb, hlater, ?_, fun a ha => sl.appended_read_other m (.inr (hfill.trans_le ha))⟩
  rw [← hfill]
  exact TxSlot.appended_bytesAt hold m

/-- Settles O24: the blocked step of a write (`writeStep_of_blocked`), and the step of one with nothing left. -/
theorem busyEngineBlocks : Obligations.BusyEngineBlocks := by
  intro s hw
  have hidle : s.withWrite none = s := State.withWrite_self hw
  refine ⟨fun hst m ms => ?_, fun hc => ?_, ?_⟩
  · have hb : (s.tx.slot s.tx.active).st.busy = true := by obtain hst | hst := hst <;> rw [hst] <;> rfl
    refine ⟨fun hc => ?_, ?_, fun n => ?_⟩
    · exact (exec_txWrite _ hw hc).trans (writeStep_of_blocked hb true m ms 0)
    · rw [exec_txWriteNb _ hw, writeStep_of_blocked hb]
      simp [finishWrite, hidle]
    · intro h g
      refine ⟨(continueOperation_of_writing rfl).trans (writeStep_of_blocked (s := h) hb true m ms n), ?_⟩
      rw [continueOperation_of_writing (s := g) rfl, writeStep_of_blocked (s := g) hb]
      exact congrArg (fun u : State => Host.Outcome.next (u.respond .txf (.accepted n))) hidle
  · rw [exec_txWrite _ hw hc]
    exact congrArg _ hidle
  · rw [exec_txWriteNb _ hw]
    exact congrArg (fun u : State => Host.Outcome.next (u.respond .txf (.accepted 0))) hidle

/-! ### Pure reads -/

theorem SlotStatus.busy_eq_true {st : SlotStatus} : st.busy = true ↔ st = .pending ∨ st = .inFlight := by
  cases st <;> simp [SlotStatus.busy]

theorem Transmit.isDone_iff {t : Transmit} :
    t.isDone = true ↔ ∀ i, (t.slot i).st ≠ .pending ∧ (t.slot i).st ≠ .inFlight := by
  have hslot (i : TxIx) : (t.slot i).st.busy = false ↔ (t.slot i).st ≠ .pending ∧ (t.slot i).st ≠ .inFlight := by
    rw [← not_or, ← SlotStatus.busy_eq_true, Bool.not_eq_true]
  simp only [← hslot]
  constructor
  · intro h
    obtain ⟨h0, h1⟩ : t.slot0.st.busy = false ∧ t.slot1.st.busy = false := by simpa [Transmit.isDone] using h
    exact TxIx.forall_of_other (i := .zero) h0 h1
  · intro h
    have h0 : t.slot0.st.busy = false := h .zero
    have h1 : t.slot1.st.busy = false := h .one
    simp [Transmit.isDone, h0, h1]

/-- Settles O27: the answer is `Transmit.isDone`, read as R185 (`Transmit.isDone_iff`). -/
theorem isDoneIffNothingQueued : Obligations.IsDoneIffNothingQueued :=
  fun s hw => ⟨s.tx.isDone, asForeground_of_none hw _, Transmit.isDone_iff⟩

/-- Settles O28: both operations answer the counter and nothing else. -/
theorem errorCountsArePureReads : Obligations.ErrorCountsArePureReads :=
  fun _ => ⟨fun hw => asForeground_of_none hw _, rfl⟩

end Sys2Proof.Machine
end

section
/-! What can become of the transmit engine in one step, said once. A sender's step (an operation of the foreground, or the flush
timer's expiry) appends a Message, flushes, or does nothing; the other step is a completion. What R170, R178 and R191 say of every
step is read off these. -/

namespace Sys2Proof.Machine

/-! ### What has been started -/

theorem startedBytes_cons (o : Output) (rest : List Output) :
    startedBytes (o :: rest) = startedBytes [o] ++ startedBytes rest := by
  obtain ⟨p, r⟩ | ⟨_ | _ | _ | _⟩ := o <;> simp [startedBytes]

@[simp] theorem startedBytes_append (xs ys : List Output) : startedBytes (xs ++ ys) = startedBytes xs ++ startedBytes ys := by
  induction xs with
  | nil => rfl
  | cons o xs ih => rw [List.cons_append, startedBytes_cons, ih, startedBytes_cons o xs, List.append_assoc]

/-- The bytes of the transfers that a step's events start. -/
def startedBy (es : List Event) : List Byte := startedBytes (es.map Output.event)

@[simp] theorem startedBy_nil : startedBy [] = [] := rfl

@[simp] theorem startedBy_rxStart (ctx : Ctx) (i : Nat) : startedBy [.rxStart ctx i] = [] := rfl

@[simp] theorem startedBy_txStart (ctx : Ctx) (i : TxIx) (n : Nat) (data : List Byte) :
    startedBy [.txStart ctx i n data] = data := by simp [startedBy, startedBytes]

@[simp] theorem startedBy_append (es fs : List Event) : startedBy (es ++ fs) = startedBy es ++ startedBy fs := by
  simp [startedBy]

@[simp] theorem startedBy_cancelEvents (t : Transmit) : startedBy t.cancelEvents = [] := by
  unfold Transmit.cancelEvents
  split <;> rfl

/-- From `s` to `t` the transmit engine has become that of `x`, and the transfers started since are those of `x`'s events. -/
structure State.TakesTx (s t : State) (x : Transmit × List Event) : Prop where
  tx : t.tx = x.1
  started : startedBytes t.io.outbox = startedBytes s.io.outbox ++ startedBy x.2

theorem State.takesTx_withTx (s : State) (x : Transmit × List Event) : s.TakesTx (s.withTx x) x :=
  ⟨rfl, by simp [startedBy]⟩

/-- From `s` to `t` the transmit engine has stayed as it was, and no transfer has been started. -/
abbrev State.LeavesTx (s t : State) : Prop := s.TakesTx t (s.tx, [])

theorem State.leavesTx_of_eq {s t : State} (ht : t.tx = s.tx) (ho : t.io.outbox = s.io.outbox) : s.LeavesTx t :=
  ⟨ht, by simp [ho]⟩

theorem State.leavesTx_refl (s : State) : s.LeavesTx s := State.leavesTx_of_eq rfl rfl

theorem State.leavesTx_withRb (s : State) (r : Ring) : s.LeavesTx (s.withRb r) := State.leavesTx_of_eq rfl rfl

theorem State.leavesTx_withDec (s : State) (d : Decoder) : s.LeavesTx (s.withDec d) := State.leavesTx_of_eq rfl rfl

theorem State.TakesTx.respond {s t : State} {x : Transmit × List Event} (h : s.TakesTx t x) (p : Port) (r : Response) :
    s.TakesTx (t.respond p r) x := ⟨h.tx, by simp [h.started, startedBytes]⟩

theorem State.TakesTx.withWrite {s t : State} {x : Transmit × List Event} (h : s.TakesTx t x) (w : Option WriteProgress) :
    s.TakesTx (t.withWrite w) x := ⟨h.tx, h.started⟩

theorem State.TakesTx.finishWrite {s t : State} {x : Transmit × List Event} (h : s.TakesTx t x) (w : WriteProgress) :
    s.TakesTx (finishWrite w t) x := by
  unfold Machine.finishWrite
  split
  · exact h.withWrite none
  · exact (h.withWrite none).respond _ _

theorem State.TakesTx.acceptedOne {s t : State} {x : Transmit × List Event} (h : s.TakesTx t x) (w : WriteProgress) :
    s.TakesTx (acceptedOne w t) x := by
  unfold Machine.acceptedOne
  split
  · exact h.finishWrite w
  · exact h.withWrite (some w)

/-! ### The operations of the other units -/

/-- What the receive engine sends starts no transmission (R110). -/
theorem State.leavesTx_withRx (s : State) {x : Receive × List Event} (h : startedBy x.2 = []) :
    s.LeavesTx (s.withRx x) :=
  ⟨rfl, by rw [State.withRx_outbox, startedBytes_append]; exact congrArg _ h⟩

theorem Receive.begin_startedBy (p : Params) (r : Receive) : startedBy (r.begin p).2 = [] := by
  unfold Receive.begin
  split <;> simp

theorem Receive.read_startedBy {p : Params} {r : Receive} {x : Option Message × (Receive × List Event)}
    (h : r.read p = .next x) : startedBy x.2.2 = [] := by
  obtain ⟨-, rfl⟩ | ⟨-, sl, m, -, -, ⟨-, rfl⟩ | ⟨-, rfl⟩⟩ := Receive.read_cases h
  · rfl
  · unfold Receive.drained
    split <;> simp
  · rfl

theorem Receive.complete_startedBy {p : Params} {ok : Bool} {data : List Byte} {r : Receive} {x : Receive × List Event}
    (h : r.complete p ok data = .next x) : startedBy x.2 = [] := by
  obtain ⟨-, -, ⟨-, rfl⟩ | ⟨-, -, rfl⟩ | ⟨-, -, sl, -, ⟨-, rfl⟩ | ⟨-, rfl⟩⟩⟩ := Receive.complete_cases h
  all_goals simp

theorem execRbPush_leavesTx (view : List Byte) (s : State) : Ensures s.LeavesTx (execRbPush view s) := by
  unfold execRbPush
  split
  · exact ensures_next.mpr (s.leavesTx_refl.respond _ _)
  · exact ensures_next.mpr ((s.leavesTx_withRb _).respond _ _)

theorem execRsmFetch_leavesTx (s : State) : Ensures s.LeavesTx (execRsmFetch s) := by
  refine ensures_asConsumer fun _ => ensures_andThen fun x _ => ?_
  cases x.tag with
  | none => exact ensures_next.mpr (s.leavesTx_refl.respond _ _)
  | packet => exact ensures_next.mpr (State.leavesTx_of_eq rfl rfl)
  | continuation => simp

/-- An operation of another unit than the transmit engine leaves it alone and starts no transmission (R60, R226). -/
theorem exec_leavesTx {i : Instr} (hr : i ≠ .reset) (hf : i.port ≠ .txf) (hb : i.port ≠ .txb) (s : State) :
    Ensures s.LeavesTx (exec i s) := by
  cases i with
  | rbPush view => exact execRbPush_leavesTx view s
  | rbPop => exact ensures_asConsumer fun _ => ensures_andThen fun _ _ => ensures_next.mpr ((s.leavesTx_withRb _).respond _ _)
  | decLoad pkt => exact ensures_next.mpr ((s.leavesTx_withDec _).respond _ _)
  | decNext => exact ensures_andThen fun _ _ => ensures_next.mpr ((s.leavesTx_withDec _).respond _ _)
  | decTs => exact ensures_next.mpr (s.leavesTx_refl.respond _ _)
  | rsmFetch => exact execRsmFetch_leavesTx s
  | bleEnc ts bytes => exact ensures_next.mpr (s.leavesTx_refl.respond _ _)
  | rxBegin => exact ensures_next.mpr (s.leavesTx_withRx (Receive.begin_startedBy _ _))
  | rxRead =>
    exact ensures_andThen fun _ hx => ensures_next.mpr ((s.leavesTx_withRx (Receive.read_startedBy hx)).respond _ _)
  | rxErrcnt => exact ensures_next.mpr (s.leavesTx_refl.respond _ _)
  | rxComplete ok data =>
    exact ensures_andThen fun _ hx => ensures_next.mpr (s.leavesTx_withRx (Receive.complete_startedBy hx))
  | reset => exact absurd rfl hr
  | txWrite | txWriteNb | txSendNow | txIsDone | txErrcnt => exact absurd rfl hf
  | txTimeout | txComplete => exact absurd rfl hb

/-! ### A sender's step -/

/-- What a sender can make of the engine, with the bytes that are accepted. -/
inductive Transmit.SenderStep (p : Params) (t : Transmit) : List Byte → Transmit × List Event → Prop
  | nothing : SenderStep p t [] (t, [])
  | append {m : Message} {x : Transmit × List Event} (h : t.append p m = .next (some x)) : SenderStep p t m.bytes x
  | sendNow {x : Transmit × List Event} (h : t.sendNow p = .next x) : SenderStep p t [] x
  | timeout {x : Transmit × List Event} (h : t.timeout = .next x) : SenderStep p t [] x

/-- From `s` to `t` the transmit engine has taken a sender's step that accepts the bytes `added`. -/
def State.SenderStep (s : State) (added : List Byte) (t : State) : Prop :=
  ∃ x, s.tx.SenderStep s.params added x ∧ s.TakesTx t x

theorem State.TakesTx.senderStep_nothing {s t : State} (h : s.LeavesTx t) : s.SenderStep [] t := ⟨_, .nothing, h⟩

/-- The bytes of the Message that a write with `msgs` left has accepted next (R174). -/
def Transmit.takenNext (msgs : List Message) (t : Transmit) : List Byte :=
  if (t.slot t.active).st.busy then [] else msgs.head?.elim [] Message.bytes

theorem Transmit.not_busy_of_append {p : Params} {m : Message} {t : Transmit} {x : Transmit × List Event}
    (h : t.append p m = .next (some x)) : (t.slot t.active).st.busy = false := by
  obtain ⟨-, hn⟩ | ⟨hb, -⟩ := Transmit.append_cases h
  · cases hn
  · exact hb

theorem Transmit.busy_of_append {p : Params} {m : Message} {t : Transmit} (h : t.append p m = .next none) :
    (t.slot t.active).st.busy = true := by
  obtain ⟨hb, -⟩ | ⟨-, -, ⟨-, x, -, hn⟩ | ⟨-, -, hn⟩ | ⟨-, -, hn⟩⟩ := Transmit.append_cases h
  · exact hb
  all_goals cases hn

/-- A step of a write is a sender's step, with its next Message unless the engine is busy. -/
theorem writeStep_senderStep (w : WriteProgress) (s : State) :
    Ensures (s.SenderStep (s.tx.takenNext w.rest)) (writeStep w s) := by
  intro t ht
  obtain ⟨hr, rfl⟩ | ⟨m, ms, hr, ⟨x, hx, rfl⟩ | ⟨hx, ht⟩⟩ := writeStep_cases ht
  · have htaken : s.tx.takenNext w.rest = [] := by simp [Transmit.takenNext, hr]
    exact htaken ▸ (s.leavesTx_refl.finishWrite w).senderStep_nothing
  · have htaken : s.tx.takenNext w.rest = m.bytes := by simp [Transmit.takenNext, Transmit.not_busy_of_append hx, hr]
    exact htaken ▸ ⟨x, .append hx, (s.takesTx_withTx x).acceptedOne _⟩
  · have htaken : s.tx.takenNext w.rest = [] := if_pos (Transmit.busy_of_append hx)
    rw [htaken]
    obtain ⟨-, rfl⟩ | ⟨-, rfl⟩ := ht
    · exact (s.leavesTx_refl.withWrite (some w)).senderStep_nothing
    · exact (s.leavesTx_refl.finishWrite w).senderStep_nothing

theorem acceptedBytes_txWrite (msgs : List Message) (t : Transmit) : acceptedBytes (.txWrite msgs) t = t.takenNext msgs := by
  cases msgs <;> rfl

theorem acceptedBytes_txWriteNb (msgs : List Message) (t : Transmit) :
    acceptedBytes (.txWriteNb msgs) t = t.takenNext msgs := by
  cases msgs <;> rfl

theorem acceptedBytes_eq_nil {i : Instr} (hw : ∀ msgs, i ≠ .txWrite msgs) (hnb : ∀ msgs, i ≠ .txWriteNb msgs)
    (t : Transmit) : acceptedBytes i t = [] := by
  cases i with
  | txWrite msgs => exact absurd rfl (hw msgs)
  | txWriteNb msgs => exact absurd rfl (hnb msgs)
  | _ => exact ite_self _

/-- Every operation but RESET and TX_COMPLETE is a sender's step, most of them one that does nothing. -/
theorem exec_senderStep {i : Instr} (hr : i ≠ .reset) (hc : ∀ ok, i ≠ .txComplete ok) (s : State) :
    Ensures (s.SenderStep (acceptedBytes i s.tx)) (exec i s) := by
  have hnil := acceptedBytes_eq_nil (i := i) (t := s.tx)
  cases i with
  | txWrite msgs =>
    rw [acceptedBytes_txWrite]
    refine ensures_asForeground fun _ => ?_
    split
    · exact writeStep_senderStep ⟨true, msgs, 0⟩ s
    · simp
  | txWriteNb msgs =>
    rw [acceptedBytes_txWriteNb]
    exact ensures_asForeground fun _ => writeStep_senderStep ⟨false, msgs, 0⟩ s
  | txComplete ok => exact absurd rfl (hc ok)
  | txSendNow =>
    rw [hnil nofun nofun]
    exact ensures_asForeground fun _ => ensures_andThen fun x hx =>
      ensures_next.mpr ⟨x, .sendNow hx, s.takesTx_withTx x⟩
  | txTimeout =>
    rw [hnil nofun nofun]
    exact ensures_andThen fun x hx => ensures_next.mpr ⟨x, .timeout hx, s.takesTx_withTx x⟩
  | txIsDone | txErrcnt =>
    rw [hnil nofun nofun]
    exact ensures_asForeground fun _ =>
      ensures_next.mpr (s.leavesTx_refl.respond _ _).senderStep_nothing
  | reset => exact absurd rfl hr
  | _ =>
    rw [hnil nofun nofun]
    exact fun t ht => (exec_leavesTx hr nofun nofun s t ht).senderStep_nothing

theorem exec_txComplete_takesTx (ok : Bool) (s : State) :
    Ensures (fun t => ∃ x, s.tx.complete ok = .next x ∧ s.TakesTx t x) (exec (.txComplete ok) s) :=
  ensures_andThen fun x hx => ensures_next.mpr ⟨x, hx, s.takesTx_withTx x⟩

/-- A later step of an operation in progress takes the engine where a sender's step takes it. -/
theorem continueOperation_tx {a : Agent} {s t : State} (h : continueOperation a s = .next t) :
    ∃ added x, s.tx.SenderStep s.params added x ∧ t.tx = x.1 := by
  obtain ⟨-, f, -, hf⟩ | ⟨-, w, -, hw⟩ | rfl := continueOperation_cases h
  · refine ⟨_, _, .nothing, (continueFetch_changesOnly f s t hf).tx ?_⟩
    split <;> decide
  · obtain ⟨x, hx, ht⟩ := writeStep_senderStep w s t hw
    exact ⟨_, x, hx, ht.tx⟩
  · exact ⟨_, _, .nothing, rfl⟩

/-! ### The slot state machine -/

/-- The moves of one slot in one step (R170). -/
def SlotStatus.Moves (a b : SlotStatus) : Prop :=
  (a = .pending → b = .pending ∨ b = .inFlight) ∧ (a = .inFlight → b = .inFlight ∨ b = .free) ∧ (a = .filling → b ≠ .free)

theorem SlotStatus.Moves.refl (a : SlotStatus) : a.Moves a := ⟨.inl, .inl, fun h => by simp [h]⟩

/-- A slot that takes Messages may become anything but Free. -/
theorem SlotStatus.Moves.of_not_busy {a b : SlotStatus} (ha : a.busy = false) (hb : b ≠ .free) : a.Moves b := by
  obtain rfl | rfl := SlotStatus.busy_eq_false.mp ha <;> simp [SlotStatus.Moves, hb]

/-- Both slots of the engine move as R170 allows. -/
def Transmit.Moves (t u : Transmit) : Prop := ∀ i, (t.slot i).st.Moves (u.slot i).st

/-- A flush of a slot that takes Messages, whatever has been put into it before. -/
theorem Transmit.Moves.flush {ctx : Ctx} {t u : Transmit} {i : TxIx} {x : Transmit × List Event}
    (hb : (t.slot i).st.busy = false) (ho : u.slot i.other = t.slot i.other) (hx : u.flush ctx i = .next x) : t.Moves x.1 := by
  obtain ⟨-, rfl⟩ | ⟨-, data, -, rfl⟩ := Transmit.flush_cases hx
  · exact TxIx.forall_of_other (.of_not_busy hb (by simp)) (by simpa [ho] using .refl _)
  · exact TxIx.forall_of_other (.of_not_busy hb (by simp)) (by simpa [ho] using .refl _)

theorem Transmit.Moves.append {p : Params} {m : Message} {t : Transmit} {x : Transmit × List Event}
    (hx : t.append p m = .next (some x)) : t.Moves x.1 := by
  obtain ⟨-, hn⟩ | ⟨hb, -, hx⟩ := Transmit.append_cases hx
  · cases hn
  have hadded : t.Moves (t.setSlot t.active ((t.slot t.active).appended m)) :=
    TxIx.forall_of_other (.of_not_busy hb (by simp [TxSlot.appended])) (by simpa using .refl _)
  obtain ⟨-, y, hy, hxy⟩ | ⟨-, -, hx⟩ | ⟨-, -, hx⟩ := hx
  · obtain rfl : x = y := Option.some.inj hxy
    exact .flush hb (Transmit.setSlot_slot_other ..) hy
  · obtain rfl := Option.some.inj hx
    exact fun i => by rw [Transmit.slot_with_timer]; exact hadded i
  · obtain rfl := Option.some.inj hx
    exact hadded

/-- A sender's step moves the slots along R170. -/
theorem Transmit.SenderStep.moves {p : Params} {t : Transmit} {added : List Byte} {x : Transmit × List Event} (h : t.Sound p)
    (hx : t.SenderStep p added x) : t.Moves x.1 := by
  cases hx with
  | nothing => exact fun i => .refl _
  | append hx => exact .append hx
  | sendNow hx =>
    obtain ⟨hf, hx⟩ | ⟨hf, -, hx⟩ | ⟨-, -, rfl⟩ := Transmit.sendNow_cases hx
    · exact .flush (SlotStatus.busy_eq_false.mpr (.inr hf)) rfl hx
    · exact .flush (SlotStatus.busy_eq_false.mpr (.inl hf)) (Transmit.setSlot_slot_other ..) hx
    · exact fun i => .refl _
  | timeout hx =>
    obtain ⟨-, rfl⟩ | ⟨ht, hx⟩ := Transmit.timeout_cases hx
    · exact fun i => .refl _
    · exact .flush (SlotStatus.busy_eq_false.mpr (.inr (h.timer_filling ht))) (Transmit.slot_with_timer ..) hx

/-- A completion moves the slots along R170. -/
theorem Transmit.Moves.complete {ok : Bool} {t : Transmit} {x : Transmit × List Event} (hx : t.complete ok = .next x) :
    t.Moves x.1 := by
  obtain ⟨i, hi, hx⟩ := Transmit.complete_cases hx
  have hi := Transmit.inFlightSlot_some hi
  obtain ⟨hp, data, -, rfl⟩ | ⟨-, rfl⟩ := hx
  · exact TxIx.forall_of_other (i := i) (by simp [hi, SlotStatus.Moves]) (by simp [hp, SlotStatus.Moves])
  · exact TxIx.forall_of_other (i := i) (by simp [hi, SlotStatus.Moves]) (by simpa using .refl _)

/-- Settles O31: a sender's step and a completion both move the slots along R170. -/
theorem slotTransitions : Obligations.SlotTransitions := by
  intro s t hs h
  have hmoves : s.tx.Moves t.tx := by
    obtain ⟨i, hr, hi⟩ | ⟨a, ha⟩ := h
    · by_cases hc : ∃ ok, i = .txComplete ok
      · obtain ⟨ok, rfl⟩ := hc
        obtain ⟨x, hx, ht⟩ := exec_txComplete_takesTx ok s t hi
        exact ht.tx ▸ Transmit.Moves.complete hx
      · obtain ⟨x, hx, ht⟩ := exec_senderStep hr (fun ok e => hc ⟨ok, e⟩) s t hi
        exact ht.tx ▸ hx.moves hs
    · obtain ⟨added, x, hx, ht⟩ := continueOperation_tx ha
      exact ht ▸ hx.moves hs
  exact hmoves

/-! ### A hold -/

/-- While both slots are busy a sender can do nothing (R177, R178, R183, R186). -/
theorem Transmit.SenderStep.eq_of_busy {p : Params} {t : Transmit} {added : List Byte} {x : Transmit × List Event}
    (h : t.Sound p) (hb : (t.slot t.active).st.busy = true) (hx : t.SenderStep p added x) : x.1 = t := by
  obtain ⟨hact, -⟩ := h.active_open hb
  cases hx with
  | nothing => rfl
  | append hx => simp [Transmit.not_busy_of_append hx] at hb
  | sendNow hx =>
    obtain ⟨hf, -⟩ | ⟨hf, -⟩ | ⟨-, -, rfl⟩ := Transmit.sendNow_cases hx
    · simp [hact] at hf
    · simp [hact] at hf
    · rfl
  | timeout hx =>
    obtain ⟨-, rfl⟩ | ⟨ht, -⟩ := Transmit.timeout_cases hx
    · rfl
    · simpa [hact] using h.timer_filling ht

theorem State.idle_eq_false_of_inFlight {s : State} {i : TxIx} (h : (s.tx.slot i).st = .inFlight) : s.idle = false := by
  cases i <;> simp_all [State.idle, Transmit.slot]

/-- RESET is refused while a transfer is outstanding (R251). -/
theorem execReset_ne_next_of_inFlight {s t : State} {i : TxIx} (hl : s.io.live = true) (h : (s.tx.slot i).st = .inFlight) :
    execReset s ≠ .next t := by
  simp only [execReset, hl, State.idle_eq_false_of_inFlight h]
  split <;> simp

theorem TxSlot.Sound.bytesAt {p : Params} {sl : TxSlot} (h : sl.Sound p) {n : Nat} (hn : n ≤ sl.size) :
    ∃ data, sl.buf.bytesAt (slotAddrs 0 n) = some data ∧ data.length = n := by
  obtain ⟨data, hd, hl⟩ := Memory.bytesAt_isSome (m := sl.buf) (addrs := slotAddrs 0 n) fun a ha =>
    h.written a (by have := mem_slotAddrs.mp ha; omega)
  exact ⟨data, hd, by simpa using hl⟩

/-- Settles O32: no sender's step changes a busy engine, RESET is refused, and a completion frees the active slot. -/
theorem onlyCompletionLiftsHold : Obligations.OnlyCompletionLiftsHold := by
  intro s hl hs hb
  obtain ⟨hact, hoth⟩ := hs.active_open hb
  refine ⟨fun i t hc hi => ?_, fun a t ha => ?_, fun ok => ?_⟩
  · by_cases hr : i = .reset
    · subst hr
      exact absurd hi (execReset_ne_next_of_inFlight hl hact)
    · obtain ⟨x, hx, ht⟩ := exec_senderStep hr hc s t hi
      exact ht.tx.trans (hx.eq_of_busy hs hb)
  · obtain ⟨added, x, hx, ht⟩ := continueOperation_tx ha
    exact ht.trans (hx.eq_of_busy hs hb)
  · obtain ⟨data, hd, -⟩ := (hs.slot_sound s.tx.active.other).bytesAt le_rfl
    have hslot := Transmit.inFlightSlot_eq hact (by simp [hoth])
    exact ⟨_, exec_txComplete (Transmit.complete_of_pending ok hslot hoth hd), by simp, by simp⟩

/-! ### The stream -/

theorem TxSlot.heldIn_of_ne {sl : TxSlot} {st : SlotStatus} (h : sl.st ≠ st) : sl.heldIn st = [] := if_neg h

theorem TxSlot.heldIn_of_bytesAt {sl : TxSlot} {st : SlotStatus} {data : List Byte} (h : sl.st = st)
    (hd : sl.buf.bytesAt (slotAddrs 0 sl.size) = some data) : sl.heldIn st = data := by
  simp [TxSlot.heldIn, h, hd]

/-- A slot that waits holds what it held while it was filled. -/
theorem TxSlot.heldIn_withStatus {sl : TxSlot} {st : SlotStatus} (h : sl.st = st) (st' : SlotStatus) :
    ({ sl with st := st' } : TxSlot).heldIn st' = sl.heldIn st := by simp [TxSlot.heldIn, h]

/-- In the state pairs of R39 the backlog is what the other slot holds as Pending, then what the active slot `i` holds as
Filling. -/
theorem Transmit.backlog_eq {t : Transmit} {i : TxIx} (h : Transmit.StatusPair (t.slot i).st (t.slot i.other).st) :
    t.backlog = (t.slot i.other).heldIn .pending ++ (t.slot i).heldIn .filling := by
  have hact : (t.slot i).heldIn .pending = [] :=
    TxSlot.heldIn_of_ne (by obtain ⟨ha | ha, -⟩ | ⟨ha, -⟩ := h <;> simp [ha])
  have hoth : (t.slot i.other).heldIn .filling = [] :=
    TxSlot.heldIn_of_ne (by obtain ⟨-, ho | ho⟩ | ⟨-, ho⟩ := h <;> simp [ho])
  cases i with
  | zero =>
    change t.slot0.heldIn .pending = [] at hact
    change t.slot1.heldIn .filling = [] at hoth
    simp [Transmit.backlog, hact, hoth, Transmit.slot, TxIx.other]
  | one =>
    change t.slot1.heldIn .pending = [] at hact
    change t.slot0.heldIn .filling = [] at hoth
    simp [Transmit.backlog, hact, hoth, Transmit.slot, TxIx.other]

/-- The backlog where the active slot takes Messages. -/
theorem Transmit.backlog_of_open {t : Transmit} {i : TxIx} (ha : (t.slot i).st.busy = false)
    (ho : (t.slot i.other).st = .free ∨ (t.slot i.other).st = .inFlight) : t.backlog = (t.slot i).heldIn .filling := by
  rw [Transmit.backlog_eq (.inl ⟨SlotStatus.busy_eq_false.mp ha, ho⟩),
    TxSlot.heldIn_of_ne (by obtain ho | ho := ho <;> simp [ho]), List.nil_append]

/-- A flush hands on what the Filling slot holds: to the backend, or to the backlog of a Pending slot (R172). -/
theorem Transmit.flush_stream {ctx : Ctx} {t : Transmit} {x : Transmit × List Event}
    (ha : (t.slot t.active).st = .filling)
    (ho : (t.slot t.active.other).st = .free ∨ (t.slot t.active.other).st = .inFlight)
    (hx : t.flush ctx t.active = .next x) : startedBy x.2 ++ x.1.backlog = t.backlog := by
  rw [Transmit.backlog_of_open (t := t) (SlotStatus.busy_eq_false.mpr (.inr ha)) ho]
  obtain ⟨hs, rfl⟩ | ⟨hs, data, hd, rfl⟩ := Transmit.flush_cases hx
  · rw [Transmit.backlog_eq (i := t.active.other) (.inr (by simp [hs])), TxSlot.heldIn_of_ne (st := .filling) (by simp [hs])]
    simpa using TxSlot.heldIn_withStatus ha .pending
  · have hfree := ho.resolve_right hs
    rw [Transmit.backlog_of_open (i := t.active.other) (by simp [hfree, SlotStatus.busy]) (by simp),
      TxSlot.heldIn_of_ne (by simp [hfree])]
    simpa using (TxSlot.heldIn_of_bytesAt ha hd).symm

/-- The backlog once an active slot that takes Messages has become the Filling one `sl`. -/
theorem Transmit.backlog_setSlot {t : Transmit} {sl : TxSlot} (hsl : sl.st = .filling)
    (ho : (t.slot t.active.other).st = .free ∨ (t.slot t.active.other).st = .inFlight) :
    (t.setSlot t.active sl).backlog = sl.heldIn .filling := by
  rw [Transmit.backlog_of_open (i := t.active) (by simp [hsl, SlotStatus.busy]) (by simpa using ho), Transmit.setSlot_slot]

/-- The same of a flush of the active slot that has become `sl`. -/
theorem Transmit.flush_setSlot_stream {ctx : Ctx} {t : Transmit} {sl : TxSlot} {x : Transmit × List Event}
    (hsl : sl.st = .filling) (ho : (t.slot t.active.other).st = .free ∨ (t.slot t.active.other).st = .inFlight)
    (hx : (t.setSlot t.active sl).flush ctx t.active = .next x) :
    startedBy x.2 ++ x.1.backlog = (t.setSlot t.active sl).backlog :=
  Transmit.flush_stream (ctx := ctx) (by simpa using hsl) (by simpa using ho) (by simpa using hx)

/-- An appended Message is held behind the others. -/
theorem TxSlot.Sound.heldIn_appended {p : Params} {sl : TxSlot} (h : sl.Sound p) (hb : sl.st.busy = false) (m : Message) :
    (sl.appended m).heldIn .filling = sl.heldIn .filling ++ m.bytes := by
  obtain ⟨old, hold, hlen⟩ := h.bytesAt sl.fillSize_le
  rw [TxSlot.heldIn_of_bytesAt (st := .filling) rfl (TxSlot.appended_bytesAt hold m)]
  congr 1
  obtain hf | hf := SlotStatus.busy_eq_false.mp hb
  · have hzero : sl.fillSize = 0 := if_pos hf
    rw [TxSlot.heldIn_of_ne (by simp [hf]), List.eq_nil_of_length_eq_zero (hlen.trans hzero)]
  · have hsize : sl.fillSize = sl.size := if_neg (by simp [hf])
    exact (TxSlot.heldIn_of_bytesAt hf (hsize ▸ hold)).symm

/-- An accepted Message goes to the end of the stream (R174, R191). -/
theorem Transmit.Sound.append_stream {p : Params} {m : Message} {t : Transmit} {x : Transmit × List Event} (h : t.Sound p)
    (hx : t.append p m = .next (some x)) : startedBy x.2 ++ x.1.backlog = t.backlog ++ m.bytes := by
  obtain ⟨-, hn⟩ | ⟨hb, -, hx⟩ := Transmit.append_cases hx
  · cases hn
  have ho := h.other_of_not_busy hb
  have hadded : (t.setSlot t.active ((t.slot t.active).appended m)).backlog = t.backlog ++ m.bytes := by
    rw [Transmit.backlog_setSlot rfl ho, (h.slot_sound _).heldIn_appended hb, Transmit.backlog_of_open hb ho]
  obtain ⟨-, y, hy, hxy⟩ | ⟨-, -, hx⟩ | ⟨-, -, hx⟩ := hx
  · obtain rfl : x = y := Option.some.inj hxy
    exact (Transmit.flush_setSlot_stream rfl ho hy).trans hadded
  · obtain rfl := Option.some.inj hx
    exact hadded
  · obtain rfl := Option.some.inj hx
    exact hadded

/-- TX_SEND_NOW adds no byte: it flushes what is held, or an empty slot (R183). -/
theorem Transmit.Sound.sendNow_stream {p : Params} {t : Transmit} {x : Transmit × List Event} (h : t.Sound p)
    (hx : t.sendNow p = .next x) : startedBy x.2 ++ x.1.backlog = t.backlog := by
  obtain ⟨hf, hx⟩ | ⟨hf, -, hx⟩ | ⟨-, -, rfl⟩ := Transmit.sendNow_cases hx
  · exact Transmit.flush_stream hf (h.other_of_not_busy (SlotStatus.busy_eq_false.mpr (.inr hf))) hx
  · have hb : (t.slot t.active).st.busy = false := SlotStatus.busy_eq_false.mpr (.inl hf)
    have ho := h.other_of_not_busy hb
    rw [Transmit.flush_setSlot_stream rfl ho hx, Transmit.backlog_setSlot rfl ho, Transmit.backlog_of_open hb ho,
      TxSlot.heldIn_of_ne (by simp [hf] : (t.slot t.active).st ≠ .filling)]
    simp [TxSlot.heldIn, slotAddrs, Memory.bytesAt]
  · rfl

theorem Transmit.Sound.timeout_stream {p : Params} {t : Transmit} {x : Transmit × List Event} (h : t.Sound p)
    (hx : t.timeout = .next x) : startedBy x.2 ++ x.1.backlog = t.backlog := by
  obtain ⟨-, rfl⟩ | ⟨ht, hx⟩ := Transmit.timeout_cases hx
  · rfl
  · have hf := h.timer_filling ht
    have ho := h.other_of_not_busy (SlotStatus.busy_eq_false.mpr (.inr hf))
    exact Transmit.flush_stream (t := { t with timer := false }) (by simpa using hf) (by simpa using ho) hx

/-- A completion hands the Pending slot's bytes to the backend and takes none away: the slot freed was lent (R188). -/
theorem Transmit.Sound.complete_stream {p : Params} {ok : Bool} {t : Transmit} {x : Transmit × List Event} (h : t.Sound p)
    (hx : t.complete ok = .next x) : startedBy x.2 ++ x.1.backlog = t.backlog := by
  obtain ⟨i, hi, hx⟩ := Transmit.complete_cases hx
  have hi := Transmit.inFlightSlot_some hi
  have hpair := h.statusPair
  obtain rfl | rfl := TxIx.eq_or_other t.active i
  · have hp : (t.slot t.active.other).st = .pending := by simpa [hi, Transmit.StatusPair] using hpair
    obtain ⟨-, data, hd, rfl⟩ | ⟨hnp, -⟩ := hx
    · rw [Transmit.backlog_eq hpair, TxSlot.heldIn_of_bytesAt hp hd, TxSlot.heldIn_of_ne (by simp [hi]),
        Transmit.backlog_of_open (i := t.active) (by simp [SlotStatus.busy]) (by simp), TxSlot.heldIn_of_ne (by simp)]
      simp
    · exact absurd hp hnp
  · have hopen : (t.slot t.active).st.busy = false := by
      rw [SlotStatus.busy_eq_false]
      simpa [hi, Transmit.StatusPair] using hpair
    rw [TxIx.other_other] at hx
    obtain ⟨hp, -⟩ | ⟨-, rfl⟩ := hx
    · simp [hp, SlotStatus.busy] at hopen
    · rw [Transmit.backlog_of_open hopen (.inr hi), Transmit.backlog_of_open (i := t.active) (by simpa using hopen) (by simp)]
      simp

/-- A sender's step adds to the stream, at its end, the bytes accepted (R191). -/
theorem Transmit.SenderStep.stream {p : Params} {t : Transmit} {added : List Byte} {x : Transmit × List Event} (h : t.Sound p)
    (hx : t.SenderStep p added x) : startedBy x.2 ++ x.1.backlog = t.backlog ++ added := by
  cases hx with
  | nothing => simp
  | append hx => exact h.append_stream hx
  | sendNow hx => rw [h.sendNow_stream hx, List.append_nil]
  | timeout hx => rw [h.timeout_stream hx, List.append_nil]

/-- What the engine's step adds, the stream of the state gains. -/
theorem State.TakesTx.txStream {s t : State} {x : Transmit × List Event} {added : List Byte} (h : s.TakesTx t x)
    (hx : startedBy x.2 ++ x.1.backlog = s.tx.backlog ++ added) : t.txStream = s.txStream ++ added := by
  rw [State.txStream, State.txStream, h.started, h.tx, List.append_assoc, hx, List.append_assoc]

theorem State.SenderStep.txStream {s t : State} {added : List Byte} (hs : s.tx.Sound s.params) (h : s.SenderStep added t) :
    t.txStream = s.txStream ++ added := by
  obtain ⟨x, hx, ht⟩ := h
  exact ht.txStream (hx.stream hs)

/-- Settles O33: a sender's step adds what it accepts (`Transmit.SenderStep.stream`), a completion nothing. -/
theorem transmitKeepsOrder : Obligations.TransmitKeepsOrder := by
  intro s t _ hs
  refine ⟨fun i hr hi => ?_, fun m w hm hw => ?_⟩
  · by_cases hc : ∃ ok, i = .txComplete ok
    · obtain ⟨ok, rfl⟩ := hc
      obtain ⟨x, hx, ht⟩ := exec_txComplete_takesTx ok s t hi
      rw [acceptedBytes_eq_nil (i := .txComplete ok) nofun nofun]
      exact ht.txStream (by rw [hs.complete_stream hx, List.append_nil])
    · exact (exec_senderStep hr (fun ok e => hc ⟨ok, e⟩) s t hi).txStream hs
  · have htaken := (writeStep_senderStep w s t hw).txStream hs
    rwa [Transmit.takenNext, hm] at htaken

end Sys2Proof.Machine
end

section
/-! A write run to its end with nothing between its steps (R176, R177, R180): each Message that is accepted takes one of the places
the engine has room for, so that a write accepts as many as there are. -/

namespace Sys2Proof.Machine

/-! ### Room -/

theorem Transmit.room_of_busy {t : Transmit} (p : Params) (h : (t.slot t.active).st.busy = true) : t.room p = 0 := if_pos h

theorem Transmit.room_of_open {t : Transmit} (p : Params) (h : (t.slot t.active).st.busy = false) :
    t.room p = p.msgsPerPkt - (t.slot t.active).fillSize / msgBytes +
      if (t.slot t.active.other).st = .free then p.msgsPerPkt else 0 := if_neg (by simp [h])

theorem TxSlot.fillSize_of_free {sl : TxSlot} (h : sl.st = .free) : sl.fillSize = 0 := if_pos h

theorem TxSlot.Sound.fillSize_mod {p : Params} {sl : TxSlot} (h : sl.Sound p) : sl.fillSize % msgBytes = 0 := by
  unfold TxSlot.fillSize
  split
  · rfl
  · exact h.size_mult

@[simp] theorem TxSlot.fillSize_appended (sl : TxSlot) (m : Message) : (sl.appended m).fillSize = sl.fillSize + msgBytes := rfl

/-- The engine after a flush of its active slot has room for the other slot's Messages, if that slot is Free. -/
theorem Transmit.flush_room {p : Params} {ctx : Ctx} {t : Transmit} {x : Transmit × List Event}
    (ho : (t.slot t.active.other).st = .free ∨ (t.slot t.active.other).st = .inFlight)
    (hx : t.flush ctx t.active = .next x) :
    x.1.room p = if (t.slot t.active.other).st = .free then p.msgsPerPkt else 0 := by
  obtain ⟨hs, rfl⟩ | ⟨hs, data, -, rfl⟩ := Transmit.flush_cases hx
  · rw [Transmit.room_of_busy p (by simp [hs, SlotStatus.busy])]
    simp [hs]
  · have hfree := ho.resolve_right hs
    rw [Transmit.room_of_open p (by simp [hfree, SlotStatus.busy])]
    simp [hfree, TxSlot.fillSize_of_free]

/-- The room left where a Message does not fill the active slot. -/
theorem Transmit.room_setSlot_appended (p : Params) (m : Message) (t : Transmit) :
    (t.setSlot t.active ((t.slot t.active).appended m)).room p =
      p.msgsPerPkt - ((t.slot t.active).fillSize + msgBytes) / msgBytes +
        if (t.slot t.active.other).st = .free then p.msgsPerPkt else 0 := by
  rw [Transmit.room_of_open p (by simp [TxSlot.appended, SlotStatus.busy])]
  simp

/-- A Message that is accepted takes one place (R174). -/
theorem Transmit.Sound.append_room {p : Params} {m : Message} {t : Transmit} {x : Transmit × List Event} (h : t.Sound p)
    (hp : p.wf = true) (hx : t.append p m = .next (some x)) : t.room p = x.1.room p + 1 := by
  obtain ⟨-, hn⟩ | ⟨hb, hle, hx⟩ := Transmit.append_cases hx
  · cases hn
  obtain ⟨-, -, -, hpkt, -⟩ := Params.wf_iff.mp hp
  have hfill := (h.slot_sound t.active).fillSize_mod
  have hroom := Transmit.room_setSlot_appended p m t
  have ho := h.other_of_not_busy hb
  have hfits (hne : (t.slot t.active).fillSize + msgBytes ≠ p.pktBytes) :
      t.room p = (t.setSlot t.active ((t.slot t.active).appended m)).room p + 1 := by
    rw [hroom, Transmit.room_of_open p hb]
    simp only [Params.msgsPerPkt, msgBytes] at *
    omega
  obtain ⟨he, y, hy, hxy⟩ | ⟨hne, -, hx⟩ | ⟨hne, -, hx⟩ := hx
  · obtain rfl : x = y := Option.some.inj hxy
    have hflush := Transmit.flush_room (p := p) (ctx := .ordinary)
      (t := t.setSlot t.active ((t.slot t.active).appended m)) (by simpa using ho) (by simpa using hy)
    rw [Transmit.setSlot_active, Transmit.setSlot_slot_other] at hflush
    rw [hflush, Transmit.room_of_open p hb]
    simp only [Params.msgsPerPkt, msgBytes] at *
    omega
  · obtain rfl := Option.some.inj hx
    exact hfits hne
  · obtain rfl := Option.some.inj hx
    exact hfits hne

/-- A sound engine that is not busy accepts the next Message. -/
theorem Transmit.Sound.append_accepts {p : Params} {t : Transmit} (h : t.Sound p) (hp : p.wf = true) (m : Message)
    (hb : (t.slot t.active).st.busy = false) : ∃ x, t.append p m = .next (some x) := by
  obtain ⟨-, -, -, hpkt, hpos, -⟩ := Params.wf_iff.mp hp
  have ha := h.slot_sound t.active
  have hmod := ha.fillSize_mod
  have hlt : (t.slot t.active).fillSize < p.pktBytes := by
    obtain hf | hf := SlotStatus.busy_eq_false.mp hb
    · rwa [TxSlot.fillSize_of_free hf]
    · exact TxSlot.fillSize_le _ |>.trans_lt (h.filling_active _ hf).2.2
  have hle : (t.slot t.active).fillSize + msgBytes ≤ p.pktBytes := by
    simp only [msgBytes] at *
    omega
  obtain hfit | hfill := hle.lt_or_eq
  · exact ⟨_, Transmit.append_of_fits m hb hfit⟩
  · obtain ⟨old, hold, -⟩ := ha.bytesAt (TxSlot.fillSize_le _)
    exact ⟨_, Transmit.append_of_fills m hb hfill hold⟩

/-! ### Turns of the foreground -/

theorem nextCommand_congr {s t : State} (h : t.io.inbox = s.io.inbox) (a : Agent) : t.nextCommand a = s.nextCommand a := by
  simp [State.nextCommand, h]

@[simp] theorem finishWrite_write (w : WriteProgress) (s : State) : (finishWrite w s).io.write = none := by
  unfold finishWrite
  split <;> rfl

@[simp] theorem finishWrite_inbox (w : WriteProgress) (s : State) : (finishWrite w s).io.inbox = s.io.inbox := by
  unfold finishWrite
  split <;> rfl

theorem finishWrite_answers {w : WriteProgress} (h : w.blocking = false) (s : State) :
    (finishWrite w s).io.outbox = s.io.outbox ++ [.response .txf (.accepted w.accepted)] := by
  simp [finishWrite, h]

/-- A foreground inside no write and with nothing to issue lets its turns pass (log 25). -/
theorem turnsOf_of_idle {s : State} (hw : s.io.write = none) (hc : s.nextCommand .txForeground = none) (n : Nat) :
    turnsOf .txForeground n s = .next s := by
  have hturn : actAs .txForeground s = .next s := actAs_of_no_command (by simp [State.inside, hw]) hc
  induction n with
  | zero => rfl
  | succ n ih => rw [turnsOf, hturn, andThen_next, ih]

theorem acceptedOne_withWrite (w : WriteProgress) (v : Option WriteProgress) (s : State) :
    acceptedOne w (s.withWrite v) = acceptedOne w s := by
  unfold acceptedOne
  split <;> rfl

/-- The step of a write does not read how the write is held (log 9). -/
theorem writeStep_withWrite (w : WriteProgress) (v : Option WriteProgress) (s : State) :
    writeStep w (s.withWrite v) = writeStep w s := by
  unfold writeStep
  split
  · rfl
  · refine congrArg (andThen _) (funext fun r => ?_)
    cases r with
    | some x => exact congrArg Host.Outcome.next (acceptedOne_withWrite _ v (s.withTx x))
    | none => rfl

/-- After an accepted Message the foreground's turns are the rest of the write. -/
theorem turnsOf_acceptedOne {w : WriteProgress} {s : State} (hl : s.io.live = true)
    (hc : s.nextCommand .txForeground = none) :
    turnsOf .txForeground (w.rest.length + 1) (acceptedOne w s) =
      andThen (writeStep w s) (turnsOf .txForeground w.rest.length) := by
  cases hr : w.rest with
  | nil =>
    have hfinish : acceptedOne w s = finishWrite w s := by simp [acceptedOne, hr]
    have hstep : writeStep w s = .next (finishWrite w s) := by simp [writeStep, hr]
    rw [hfinish, hstep, turnsOf_of_idle (by simp) ((nextCommand_congr (by simp) _).trans hc)]
    rfl
  | cons m ms =>
    have hgo : acceptedOne w s = s.withWrite (some w) := by simp [acceptedOne, hr]
    have hturn : actAs .txForeground (s.withWrite (some w)) = writeStep w s := by
      rw [actAs_of_inside (by simp [State.inside, hl]), continueOperation_of_writing rfl, writeStep_withWrite]
    rw [hgo, turnsOf, hturn]

/-! ### The run -/

/-- From `s` to `u` the write `w` has been run to its end: it has had accepted what fits, and nothing else has changed. -/
structure WriteRun (w : WriteProgress) (s u : State) : Prop where
  ended : u.io.write = none
  answered : w.blocking = false → u.io.outbox.getLast? =
    some (.response .txf (.accepted (w.accepted + min w.rest.length (s.tx.room s.params))))
  stream : u.txStream = s.txStream ++ (w.rest.take (s.tx.room s.params)).flatMap Message.bytes
  params : u.params = s.params
  changes : ChangesOnly [.tx] s u

/-- A write that ends at once, with nothing accepted. -/
theorem writeRun_finishWrite {w : WriteProgress} {s : State} (h : w.rest = [] ∨ s.tx.room s.params = 0) :
    WriteRun w s (finishWrite w s) where
  ended := finishWrite_write w s
  answered hb := by rw [finishWrite_answers hb]; obtain h | h := h <;> simp [h]
  stream := by
    rw [(s.leavesTx_refl.finishWrite w).txStream (added := []) (by simp)]
    obtain h | h := h <;> simp [h]
  params := (finishWrite_keeps w s).1
  changes := (ChangesOnly.refl _ s).finishWrite w

/-- A write whose first Message is accepted, from the run of the rest. -/
theorem WriteRun.cons {blocking : Bool} {m : Message} {ms : List Message} {n : Nat} {s u : State} {x : Transmit × List Event}
    (hs : s.tx.Sound s.params) (hp : s.params.wf = true) (hx : s.tx.append s.params m = .next (some x))
    (h : WriteRun ⟨blocking, ms, n + 1⟩ (s.withTx x) u) : WriteRun ⟨blocking, m :: ms, n⟩ s u := by
  have hroom : s.tx.room s.params = (s.withTx x).tx.room (s.withTx x).params + 1 := hs.append_room hp hx
  have hstream := (s.takesTx_withTx x).txStream (hs.append_stream hx)
  refine ⟨h.ended, fun hb => (h.answered hb).trans ?_, ?_, h.params, ?_⟩
  · rw [hroom, List.length_cons, Nat.add_min_add_right, Nat.add_right_comm, Nat.add_assoc]
  · rw [h.stream, hstream, hroom, List.take_succ_cons, List.flatMap_cons, List.append_assoc]
  · have hc := h.changes
    exact ⟨hc.rb, hc.dec, hc.rsm, fun hn => absurd (by simp) hn, hc.rx⟩

/-- A TX_WRITE_NB, and a TX_WRITE of no more Messages than fit, run to its end. -/
theorem writeRun (blocking : Bool) (ms : List Message) (n : Nat) {s : State} (hp : s.params.wf = true)
    (hs : s.tx.Sound s.params) (hl : s.io.live = true) (hc : s.nextCommand .txForeground = none)
    (hfit : blocking = true → ms.length ≤ s.tx.room s.params) :
    ∃ u, andThen (writeStep ⟨blocking, ms, n⟩ s) (turnsOf .txForeground ms.length) = .next u ∧
      WriteRun ⟨blocking, ms, n⟩ s u := by
  induction ms generalizing n s with
  | nil => exact ⟨_, rfl, writeRun_finishWrite (.inl rfl)⟩
  | cons m ms ih =>
    cases hb : (s.tx.slot s.tx.active).st.busy with
    | true =>
      have hroom := Transmit.room_of_busy s.params hb
      have hnb : blocking = false := by
        cases blocking
        · rfl
        · simp [hroom] at hfit
      subst hnb
      refine ⟨_, ?_, writeRun_finishWrite (.inr hroom)⟩
      rw [writeStep_of_blocked hb]
      exact turnsOf_of_idle (by simp) ((nextCommand_congr (by simp) _).trans hc) _
    | false =>
      obtain ⟨x, hx⟩ := hs.append_accepts hp m hb
      have hroom := hs.append_room hp hx
      obtain ⟨u, hu, hrun⟩ := ih (n + 1) (s := s.withTx x) hp (hs.append hx) hl hc fun hbl => by
        have := hfit hbl
        rw [List.length_cons, hroom] at this
        exact Nat.le_of_succ_le_succ this
      refine ⟨u, ?_, hrun.cons hs hp hx⟩
      rw [writeStep_of_accepted hx, andThen_next, ← hu]
      exact turnsOf_acceptedOne (w := ⟨blocking, ms, n + 1⟩) hl hc

/-- Settles O25: both writes by `writeRun`; of no more Messages than fit all are taken. -/
theorem writeAcceptsWhatFits : Obligations.WriteAcceptsWhatFits := by
  intro s msgs hp hs hl hw hc
  refine ⟨?_, fun hctx hfit => ?_⟩
  · obtain ⟨u, hu, hrun⟩ := writeRun false msgs 0 hp hs hl hc nofun
    obtain ⟨t, ht, htu⟩ := andThen_eq_next.mp hu
    have hc := hrun.changes
    exact ⟨t, u, (exec_txWriteNb _ hw).trans ht, htu, hrun.ended, by simpa using hrun.answered rfl, hrun.stream, hrun.params,
      hc.rb (by decide), hc.dec (by decide), hc.rsm (by decide), hc.rx (by decide)⟩
  · obtain ⟨u, hu, hrun⟩ := writeRun true msgs 0 hp hs hl hc fun _ => hfit
    obtain ⟨t, ht, htu⟩ := andThen_eq_next.mp hu
    have hc := hrun.changes
    have hstream := hrun.stream
    rw [List.take_of_length_le hfit] at hstream
    exact ⟨t, u, (exec_txWrite _ hw hctx).trans ht, htu, hrun.ended, hstream, hrun.params,
      hc.rb (by decide), hc.dec (by decide), hc.rsm (by decide), hc.rx (by decide)⟩

end Sys2Proof.Machine
end

section
/-! The receive engine's operations as equations, one per arm of R201, R205 and R208, and the obligations they settle. -/

namespace Sys2Proof.Machine

theorem State.withRx_nothing (s : State) : s.withRx (s.rx, []) = s := State.emit_nil s

/-! ### RX_BEGIN -/

theorem Receive.begin_of_engaged {p : Params} {r : Receive} (h : r.busy = true ∨ r.avail = p.rxNslots) :
    r.begin p = (r, []) := if_pos h

theorem Receive.begin_of_idle {p : Params} {r : Receive} (hb : r.busy = false) (ha : r.avail ≠ p.rxNslots) :
    r.begin p = Receive.start .ordinary r.widx { r with busy := true } := if_neg (by simp [hb, ha])

/-- Settles O36: the two arms of RX_BEGIN (`Receive.begin_of_engaged`, `_of_idle`). -/
theorem beginStartsReception : Obligations.BeginStartsReception := by
  intro s
  refine ⟨fun h => ?_, fun hb ha => ?_⟩
  · rw [exec, execRxBegin, Receive.begin_of_engaged h, State.withRx_nothing]
  · rw [exec, execRxBegin, Receive.begin_of_idle hb ha]
    rfl

/-! ### RX_READ -/

theorem exec_rxRead_eq_next {s t : State} : exec .rxRead s = .next t ↔
    ∃ x, s.rx.read s.params = .next x ∧ (s.withRx x.2).respond .rxf (.message x.1) = t := by
  simp only [exec, execRxRead, andThen_eq_next, Host.Outcome.next.injEq]

theorem Receive.read_of_empty {r : Receive} (p : Params) (h : r.avail = 0) : r.read p = .next (none, (r, [])) := if_pos h

theorem Receive.read_of_message {p : Params} {r : Receive} {sl : RxSlot} {m : Message} (ha : r.avail ≠ 0)
    (hsl : r.slots[r.ridx]? = some sl) (hm : readMessage (.rx r.ridx) sl.buf sl.off = .next m) :
    r.read p = .next (some m,
      if sl.off + msgBytes = sl.size then r.drained p r.ridx sl
      else ({ r with slots := r.slots.set r.ridx { sl with off := sl.off + msgBytes } }, [])) := by
  simp only [Receive.read, ha, hsl, hm, andThen_next, if_false]
  split <;> rfl

/-- Settles O37: "nothing available" by `Receive.read_of_empty`, a Message by `Receive.read_of_message`; a drained slot is lent where
the engine was idle. -/
theorem readTakesNextMessage : Obligations.ReadTakesNextMessage := by
  intro s
  refine ⟨fun ha => ?_, fun sl m ha hsl h0 h1 h2 h3 => ?_⟩
  · exact exec_rxRead_eq_next.mpr ⟨_, Receive.read_of_empty _ ha, by rw [State.withRx_nothing]⟩
  · intro kept drained lent
    have hread := Receive.read_of_message (p := s.params) ha hsl (readMessage_eq_next.mpr ⟨h0, h1, h2, h3⟩)
    refine ⟨fun hne => ?_, fun he hb => ?_, fun he hb => ?_⟩
    · rw [if_neg hne] at hread
      exact exec_rxRead_eq_next.mpr ⟨_, hread, congrArg (State.respond · _ _) (State.emit_nil _)⟩
    · have hdrained : s.rx.drained s.params s.rx.ridx sl = (drained, []) := if_pos hb
      rw [if_pos he, hdrained] at hread
      exact exec_rxRead_eq_next.mpr ⟨_, hread, congrArg (State.respond · _ _) (State.emit_nil _)⟩
    · have hdrained : s.rx.drained s.params s.rx.ridx sl = (lent, [.rxStart .ordinary s.rx.widx]) := if_neg (by simp [hb])
      rw [if_pos he, hdrained] at hread
      exact exec_rxRead_eq_next.mpr ⟨_, hread, rfl⟩

/-! ### RX_COMPLETE -/

theorem exec_rxComplete_eq_next {ok : Bool} {data : List Byte} {s t : State} :
    exec (.rxComplete ok data) s = .next t ↔ ∃ x, s.rx.complete s.params ok data = .next x ∧ s.withRx x = t := by
  simp only [exec, execRxComplete, andThen_eq_next, Host.Outcome.next.injEq]

theorem exec_rxComplete_of_refused {ok : Bool} {data : List Byte} {s : State} {c : Refusal}
    (h : s.rx.complete s.params ok data = .refused c) : exec (.rxComplete ok data) s = .refused c := by
  rw [exec, execRxComplete, h, andThen_refused]

theorem wholeMessageBytes_eq_zero {n : Nat} : wholeMessageBytes n = 0 ↔ n < msgBytes := by
  simp only [wholeMessageBytes, msgBytes]; omega

section

variable {p : Params} {r : Receive} {data : List Byte}

theorem Receive.complete_of_idle (ok : Bool) (hb : r.busy = false) : r.complete p ok data = .refused .strayRxCompletion :=
  if_pos hb

variable (hb : r.busy = true)
include hb

theorem Receive.complete_of_tooLong (ok : Bool) (hlong : p.pktBytes < data.length) :
    r.complete p ok data = .refused .receiveTooLong := by
  simp [Receive.complete, hb, hlong]

variable (hfit : data.length ≤ p.pktBytes)
include hfit

theorem Receive.complete_of_failed :
    r.complete p false data = .next (Receive.start .interrupt r.widx { r with err := r.err + 1 }) := by
  simp [Receive.complete, hb, Nat.not_lt.mpr hfit]

theorem Receive.complete_of_noMessage (hshort : data.length < msgBytes) :
    r.complete p true data = .next (r.start .interrupt r.widx) := by
  simp [Receive.complete, hb, Nat.not_lt.mpr hfit, wholeMessageBytes_eq_zero.mpr hshort]

theorem Receive.complete_of_packet {sl : RxSlot} (hmsg : msgBytes ≤ data.length) (hsl : r.slots[r.widx]? = some sl) :
    r.complete p true data = .next (
      if r.avail + 1 < p.rxNslots then (r.stored p data sl).start .interrupt ((r.widx + 1) % p.rxNslots)
      else ({ r.stored p data sl with busy := false }, [])) := by
  have hw : wholeMessageBytes data.length ≠ 0 := fun hw => Nat.not_lt.mpr hmsg (wholeMessageBytes_eq_zero.mp hw)
  simp only [Receive.complete, hb, Nat.not_lt.mpr hfit, hw, hsl, if_false, Bool.true_eq_false]
  exact (apply_ite Host.Outcome.next _ _ _).symm

end

/-- The bytes of a packet are at the first offsets of the slot that holds it (R208). -/
theorem RxSlot.filled_read (sl : RxSlot) {data : List Byte} {k : Nat} (hk : k < data.length) :
    (sl.filled data).buf.read k = some data[k] := by
  have hread := Memory.read_writeAll_getElem sl.buf (slotAddrs_nodup 0 data.length) (by simpa using hk) hk
  rwa [slotAddrs_getElem, Nat.zero_add] at hread

theorem RxSlot.filled_read_behind (sl : RxSlot) {data : List Byte} {a : Nat} (ha : data.length ≤ a) :
    (sl.filled data).buf.read a = sl.buf.read a :=
  Memory.read_writeAll_other _ _ fun hmem => by have := mem_slotAddrs.mp hmem; omega

/-- Settles O38: the arms of `Receive.complete`, with the counter's sum written out modulo 2^32 (R244). -/
theorem completionStoresPacket : Obligations.CompletionStoresPacket := by
  intro s ok data clear again w
  refine ⟨fun hb => exec_rxComplete_of_refused (Receive.complete_of_idle ok hb),
    fun hb hlong => exec_rxComplete_of_refused (Receive.complete_of_tooLong hb ok hlong),
    fun hb hfit => ⟨?_, ?_, ?_⟩⟩
  · rintro rfl
    have hsum : BitVec.ofNat 32 (s.rx.err.toNat + 1) = s.rx.err + 1 := by simp [BitVec.ofNat_add]
    rw [hsum]
    exact exec_rxComplete_eq_next.mpr ⟨_, Receive.complete_of_failed hb hfit, rfl⟩
  · rintro rfl hshort
    exact exec_rxComplete_eq_next.mpr ⟨_, Receive.complete_of_noMessage hb hfit hshort, rfl⟩
  · rintro sl rfl hmsg hsl
    have hstored := Receive.complete_of_packet hb hfit hmsg hsl
    refine ⟨(sl.filled data).buf, fun k hk => sl.filled_read hk, fun a ha => sl.filled_read_behind ha,
      fun hlt => ?_, fun hfull => ?_⟩
    · rw [if_pos hlt] at hstored
      exact exec_rxComplete_eq_next.mpr ⟨_, hstored, rfl⟩
    · rw [if_neg (Nat.not_lt.mpr hfull)] at hstored
      exact exec_rxComplete_eq_next.mpr ⟨_, hstored, State.emit_nil _⟩

end Sys2Proof.Machine
end

section
/-! What has been received and not yet read, as a queue of slots (R203, R214): a completion adds the slot at the write index, a read
takes one Message of the slot at the read index, and nothing else but RESET touches an available slot. -/

namespace Sys2Proof.Machine

/-! ### The operations that touch the receive engine -/

/-- Everything an operation but RESET can do to the receive engine (R60, R226): one of its three operations, or nothing. -/
theorem exec_rx_cases {i : Instr} {s t : State} (hreset : i ≠ .reset) (ht : exec i s = .next t) :
    t.rx = s.rx ∨ (i = .rxBegin ∧ t.rx = (s.rx.begin s.params).1) ∨
    (i = .rxRead ∧ ∃ x, s.rx.read s.params = .next x ∧ t.rx = x.2.1) ∨
    ∃ ok data, i = .rxComplete ok data ∧ ∃ x, s.rx.complete s.params ok data = .next x ∧ t.rx = x.1 := by
  cases i with
  | rxBegin =>
    obtain rfl := Host.Outcome.next.inj ht
    exact .inr (.inl ⟨rfl, rfl⟩)
  | rxRead =>
    obtain ⟨x, hx, rfl⟩ := exec_rxRead_eq_next.mp ht
    exact .inr (.inr (.inl ⟨rfl, x, hx, rfl⟩))
  | rxComplete ok data =>
    obtain ⟨x, hx, rfl⟩ := exec_rxComplete_eq_next.mp ht
    exact .inr (.inr (.inr ⟨ok, data, rfl, x, hx, rfl⟩))
  | reset => exact absurd rfl hreset
  | _ => exact .inl ((exec_changesOnly _ s t ht).rx (by simp [writtenParts]))

/-! ### The unread bytes of the slots -/

/-- The unread bytes of slot `i`. -/
def unreadIn (slots : List RxSlot) (i : Nat) : List Byte :=
  match slots[i]? with
  | some sl => sl.unread
  | none => []

/-- The unread bytes of `n` slots from slot `i` on, the indices modulo RX_NSLOTS (R44). -/
def unreadFrom (p : Params) (slots : List RxSlot) (i n : Nat) : List Byte :=
  (List.range n).flatMap fun j => unreadIn slots ((i + j) % p.rxNslots)

theorem Receive.stream_eq (p : Params) (r : Receive) : r.stream p = unreadFrom p r.slots r.ridx r.avail := rfl

theorem unreadIn_of_getElem? {slots : List RxSlot} {i : Nat} {sl : RxSlot} (h : slots[i]? = some sl) :
    unreadIn slots i = sl.unread := by simp [unreadIn, h]

theorem unreadIn_set_self {slots : List RxSlot} {i : Nat} {old : RxSlot} (h : slots[i]? = some old) (sl : RxSlot) :
    unreadIn (slots.set i sl) i = sl.unread :=
  unreadIn_of_getElem? (by simp [List.getElem?_set_self', h])

theorem unreadIn_set_ne {slots : List RxSlot} {i j : Nat} (h : j ≠ i) (sl : RxSlot) :
    unreadIn (slots.set i sl) j = unreadIn slots j := by
  simp [unreadIn, List.getElem?_set_ne h.symm]

theorem unreadFrom_succ_last (p : Params) (slots : List RxSlot) (i n : Nat) :
    unreadFrom p slots i (n + 1) = unreadFrom p slots i n ++ unreadIn slots ((i + n) % p.rxNslots) := by
  simp [unreadFrom, List.range_succ]

theorem unreadFrom_succ_front (p : Params) (slots : List RxSlot) (i n : Nat) :
    unreadFrom p slots i (n + 1) = unreadIn slots (i % p.rxNslots) ++ unreadFrom p slots (i + 1) n := by
  simp [unreadFrom, List.range_succ_eq_map, List.flatMap_map, Nat.add_assoc, Nat.add_comm 1]

theorem unreadFrom_mod (p : Params) (slots : List RxSlot) (i n : Nat) :
    unreadFrom p slots (i % p.rxNslots) n = unreadFrom p slots i n := by
  simp [unreadFrom]

theorem unreadFrom_congr {p : Params} {slots slots' : List RxSlot} {i n : Nat}
    (h : ∀ j < n, unreadIn slots ((i + j) % p.rxNslots) = unreadIn slots' ((i + j) % p.rxNslots)) :
    unreadFrom p slots i n = unreadFrom p slots' i n :=
  List.flatMap_congr fun j hj => h j (List.mem_range.mp hj)

/-! ### The unread bytes of one slot -/

theorem slotAddrs_take (a : Nat) {k n : Nat} (h : k ≤ n) : (slotAddrs a n).take k = slotAddrs a k :=
  List.ext_getElem (by simp [h]) fun i _ _ => by simp

/-- A filled slot holds the whole Messages of its packet (R208, R209). -/
theorem RxSlot.filled_unread (sl : RxSlot) (data : List Byte) :
    (sl.filled data).unread = data.take (data.length - data.length % msgBytes) := by
  have hdata := Memory.bytesAt_take (Memory.bytesAt_writeAll sl.buf (slotAddrs_nodup 0 data.length) (slotAddrs_length _ _))
    (wholeMessageBytes data.length)
  rw [slotAddrs_take (k := wholeMessageBytes data.length) _ (Nat.sub_le _ _)] at hdata
  exact congrArg (Option.getD · []) hdata

theorem RxSlot.unread_of_drained {sl : RxSlot} (h : sl.off = sl.size) : sl.unread = [] := by
  simp [RxSlot.unread, h, slotAddrs, Memory.bytesAt]

theorem Memory.bytesAt_of_readMessage {sp : Space} {m : Memory} {a : Nat} {x : Message}
    (h : readMessage sp m a = .next x) : m.bytesAt (slotAddrs a msgBytes) = some x.bytes := by
  obtain ⟨h0, h1, h2, h3⟩ := readMessage_eq_next.mp h
  simp [slotAddrs, List.range'_succ, Memory.bytesAt_eq_some, Message.bytes, h0, h1, h2, h3]

/-- The Message at the marker is the first of the unread bytes; the rest is unread once the marker has moved on (R205). -/
theorem RxSlot.Available.unread_eq {sl : RxSlot} {sp : Space} {m : Message} (h : sl.Available)
    (hm : readMessage sp sl.buf sl.off = .next m) :
    sl.unread = m.bytes ++ ({ sl with off := sl.off + msgBytes } : RxSlot).unread := by
  obtain ⟨hlt, hsize, hoff, hwritten⟩ := h
  have hsplit : sl.size - sl.off = msgBytes + (sl.size - (sl.off + msgBytes)) := by simp only [msgBytes] at *; omega
  obtain ⟨rest, hrest, -⟩ :=
    Memory.bytesAt_isSome (m := sl.buf) (addrs := slotAddrs (sl.off + msgBytes) (sl.size - (sl.off + msgBytes)))
      fun a ha => hwritten a (by have := mem_slotAddrs.mp ha; omega)
  have hall := Memory.bytesAt_append (Memory.bytesAt_of_readMessage hm) hrest
  rw [← slotAddrs_append, ← hsplit] at hall
  simp [RxSlot.unread, hall, hrest]

/-! ### The stream -/

/-- Lending a slot that is not available leaves the stream (R70). -/
theorem Receive.start_stream {p : Params} (ctx : Ctx) {i : Nat} {r : Receive} (hi : ¬ r.available p i) :
    (r.start ctx i).1.stream p = r.stream p :=
  unreadFrom_congr fun j hj => by
    have hne : (r.ridx + j) % p.rxNslots ≠ i := fun e => hi ⟨j, hj, e.symm⟩
    simp [unreadIn, Receive.start_slots, hne]

theorem Receive.Sound.begin_stream {p : Params} {r : Receive} (h : r.Sound p) : (r.begin p).1.stream p = r.stream p := by
  unfold Receive.begin
  split
  · rfl
  · next hn =>
    have ha : r.avail < p.rxNslots := Nat.lt_of_le_of_ne h.avail_le (not_or.mp hn).2
    exact Receive.start_stream (r := { r with busy := true }) _ (h.widx_not_available ha)

/-- A packet that is stored goes to the end of the stream (R203, R214). -/
theorem Receive.Sound.stored_stream {p : Params} {data : List Byte} {sl : RxSlot} {r : Receive} (h : r.Sound p)
    (ha : r.avail < p.rxNslots) (hsl : r.slots[r.widx]? = some sl) :
    (r.stored p data sl).stream p = r.stream p ++ data.take (data.length - data.length % msgBytes) := by
  have hold : unreadFrom p (r.slots.set r.widx (sl.filled data)) r.ridx r.avail = r.stream p :=
    unreadFrom_congr fun j hj => unreadIn_set_ne (fun e => h.widx_not_available ha ⟨j, hj, e.symm⟩) _
  rw [Receive.stream_eq, Receive.stored, unreadFrom_succ_last, hold, ← h.widx_eq, unreadIn_set_self hsl, RxSlot.filled_unread]

/-- What becomes of the slot at the read index leaves the slots behind it. -/
theorem Receive.Sound.unreadFrom_behind_set {p : Params} {r : Receive} (h : r.Sound p) (sl : RxSlot) :
    unreadFrom p (r.slots.set r.ridx sl) (r.ridx + 1) (r.avail - 1) = unreadFrom p r.slots (r.ridx + 1) (r.avail - 1) := by
  have havail := h.avail_le
  refine unreadFrom_congr fun j hj => unreadIn_set_ne (fun e => ?_) sl
  have hzero : (r.ridx + (1 + j)) % p.rxNslots = (r.ridx + 0) % p.rxNslots := by
    rw [← Nat.add_assoc, e, Nat.add_zero, Nat.mod_eq_of_lt h.ridx_lt]
  have := ringOffset_injective (by omega) (by omega) hzero
  omega

section

variable {p : Params} {r : Receive} {sl : RxSlot} (h : r.Sound p) (ha : r.avail ≠ 0) (hsl : r.slots[r.ridx]? = some sl)
include h ha hsl

/-- The stream begins with the slot at the read index (R203). -/
theorem Receive.Sound.stream_front : r.stream p = sl.unread ++ unreadFrom p r.slots (r.ridx + 1) (r.avail - 1) := by
  rw [Receive.stream_eq, ← Nat.sub_add_cancel (Nat.one_le_iff_ne_zero.mpr ha), unreadFrom_succ_front,
    Nat.mod_eq_of_lt h.ridx_lt, unreadIn_of_getElem? hsl, Nat.add_sub_cancel]

/-- Once its slot is drained, the engine holds what is behind it, whether or not reception restarts (R205, R207). -/
theorem Receive.Sound.drained_stream : r.stream p = sl.unread ++ (r.drained p r.ridx sl).1.stream p := by
  have hlt : (r.released p sl).avail < p.rxNslots := by have := h.avail_le; simp only [Receive.released]; omega
  have hreleased : (r.released p sl).stream p = unreadFrom p r.slots (r.ridx + 1) (r.avail - 1) := by
    rw [Receive.stream_eq, Receive.released, unreadFrom_mod, h.unreadFrom_behind_set]
  rw [h.stream_front ha hsl, Receive.drained_eq, ← hreleased]
  split
  · rfl
  · exact congrArg _ (Receive.start_stream (r := { r.released p sl with busy := true }) _
      ((h.released ha hsl).widx_not_available hlt)).symm

/-- A marker that moves on takes its slot's bytes before it from the stream (R205). -/
theorem Receive.Sound.advanced_stream (hne : sl.off + msgBytes ≠ sl.size) :
    Receive.stream p { r with slots := r.slots.set r.ridx { sl with off := sl.off + msgBytes } } =
      ({ sl with off := sl.off + msgBytes } : RxSlot).unread ++ unreadFrom p r.slots (r.ridx + 1) (r.avail - 1) := by
  have hfront := (h.advanced ha hsl hne).stream_front ha (sl := { sl with off := sl.off + msgBytes })
    (by simp [List.getElem?_set_self', hsl])
  rw [hfront, h.unreadFrom_behind_set]

end

/-- A read that answers a Message takes it from the front of the stream (R203, R205, R214). -/
theorem Receive.Sound.read_stream {p : Params} {r : Receive} {x : Option Message × (Receive × List Event)} (h : r.Sound p)
    (ha : r.avail ≠ 0) (hx : r.read p = .next x) :
    ∃ m, x.1 = some m ∧ r.stream p = m.bytes ++ x.2.1.stream p := by
  obtain ⟨hz, -⟩ | ⟨-, sl, m, hsl, hm, hx⟩ := Receive.read_cases hx
  · exact absurd hz ha
  · have hunread := ((h.slot hsl).available (h.ridx_available ha)).1.unread_eq hm
    obtain ⟨he, rfl⟩ | ⟨hne, rfl⟩ := hx
    · rw [RxSlot.unread_of_drained (sl := { sl with off := sl.off + msgBytes }) he, List.append_nil] at hunread
      exact ⟨m, rfl, by rw [h.drained_stream ha hsl, hunread]⟩
    · exact ⟨m, rfl, by rw [h.advanced_stream ha hsl hne, h.stream_front ha hsl, hunread, List.append_assoc]⟩

/-- A completion adds the whole Messages of its packet to the end of the stream, a failed one nothing (R208, R209, R214). -/
theorem Receive.Sound.complete_stream {p : Params} {ok : Bool} {data : List Byte} {r : Receive} {x : Receive × List Event}
    (h : r.Sound p) (hx : r.complete p ok data = .next x) :
    x.1.stream p = r.stream p ++ if ok then data.take (data.length - data.length % msgBytes) else [] := by
  obtain ⟨hb, hfit, hx⟩ := Receive.complete_cases hx
  have ha := h.busy_free hb
  have hlent := h.widx_not_available ha
  obtain ⟨rfl, rfl⟩ | ⟨rfl, hw, rfl⟩ | ⟨rfl, hw, sl, hsl, hx⟩ := hx
  · exact (Receive.start_stream (r := { r with err := r.err + 1 }) _ hlent).trans (List.append_nil _).symm
  · have hnone : data.length - data.length % msgBytes = 0 := hw
    simpa [hnone] using Receive.start_stream _ hlent
  · obtain ⟨hlt, rfl⟩ | ⟨-, rfl⟩ := hx
    · have hs := h.stored ha hsl hfit hw r.busy fun _ => hlt
      exact (Receive.start_stream _ (hs.widx_not_available hlt)).trans (h.stored_stream ha hsl)
    · exact h.stored_stream ha hsl

/-- Settles O39: reads at the front by `Receive.Sound.read_stream`, completions at the end by `Receive.Sound.complete_stream`;
lending a slot leaves the stream. -/
theorem receiveIsFifo : Obligations.ReceiveIsFifo := by
  intro s t _ hs
  refine ⟨fun ht => ?_, fun ok data ht => ?_, fun i hread hcomplete hreset ht => ?_⟩
  · obtain ⟨x, hx, rfl⟩ := exec_rxRead_eq_next.mp ht
    refine ⟨fun ha => ?_, fun ha => ?_⟩
    · rw [Receive.read_of_empty _ ha] at hx
      obtain rfl := Host.Outcome.next.inj hx
      exact ⟨by simp [Receive.stream, ha], by rw [State.withRx_nothing]⟩
    · obtain ⟨m, hm, hstream⟩ := hs.read_stream ha hx
      exact ⟨m, by simp [hm], hstream⟩
  · obtain ⟨x, hx, rfl⟩ := exec_rxComplete_eq_next.mp ht
    exact hs.complete_stream hx
  · obtain he | ⟨-, he⟩ | ⟨hi, -⟩ | ⟨ok, data, hi, -⟩ := exec_rx_cases hreset ht
    · rw [he]
    · rw [he, hs.begin_stream]
    · exact absurd hi hread
    · exact absurd hi (hcomplete ok data)

/-! ### Reception stays outstanding -/

/-- A receive is outstanding, or no slot is free (R213). -/
def Receive.Engaged (p : Params) (r : Receive) : Prop := r.busy = true ∨ r.avail = p.rxNslots

theorem Receive.Engaged.begin {p : Params} {r : Receive} (h : r.Engaged p) : (r.begin p).1.Engaged p := by
  rwa [Receive.begin_of_engaged h]

/-- A drained slot is lent at once where no receive was outstanding (R207). -/
theorem Receive.drained_busy (p : Params) (i : Nat) (sl : RxSlot) (r : Receive) : (r.drained p i sl).1.busy = true := by
  unfold Receive.drained
  split
  · next hb => exact hb
  · rfl

theorem Receive.Engaged.read {p : Params} {r : Receive} {x : Option Message × (Receive × List Event)} (h : r.Engaged p)
    (hx : r.read p = .next x) : x.2.1.Engaged p := by
  obtain ⟨-, rfl⟩ | ⟨-, sl, m, -, -, ⟨-, rfl⟩ | ⟨-, rfl⟩⟩ := Receive.read_cases hx
  · exact h
  · exact .inl (r.drained_busy p r.ridx sl)
  · exact h

/-- Only the completion that fills the last slot leaves the engine idle (R208). -/
theorem Receive.Sound.complete_engaged {p : Params} {ok : Bool} {data : List Byte} {r : Receive} {x : Receive × List Event}
    (h : r.Sound p) (hx : r.complete p ok data = .next x) : x.1.Engaged p := by
  obtain ⟨hb, -, ⟨-, rfl⟩ | ⟨-, -, rfl⟩ | ⟨-, -, sl, -, ⟨-, rfl⟩ | ⟨hfull, rfl⟩⟩⟩ := Receive.complete_cases hx
  · exact .inl hb
  · exact .inl hb
  · exact .inl hb
  · exact .inr (Nat.le_antisymm (h.busy_free hb) hfull)

/-- Settles O40: each operation of the engine keeps `Receive.Engaged`, and no other but RESET changes the engine. -/
theorem receptionStaysOutstanding : Obligations.ReceptionStaysOutstanding := by
  intro i s t hs hreset h ht
  obtain he | ⟨-, he⟩ | ⟨-, x, hx, he⟩ | ⟨ok, data, -, x, hx, he⟩ := exec_rx_cases hreset ht
  · rwa [he]
  · rw [he]
    exact Receive.Engaged.begin h
  · rw [he]
    exact Receive.Engaged.read h hx
  · rw [he]
    exact hs.complete_engaged hx

end Sys2Proof.Machine
end

section
/-! A timeout and a completion in either order (R234): a live expiry as an equation (R186), then the two runs. -/

namespace Sys2Proof.Machine

/-- A live expiry flushes the active slot, which holds `data`, and cancels no timer (R186). -/
theorem Transmit.timeout_of_live {t : Transmit} {data : List Byte} (ht : t.timer = true)
    (hd : (t.slot t.active).buf.bytesAt (slotAddrs 0 (t.slot t.active).size) = some data) :
    t.timeout = .next
      (Transmit.setStatus { t with timer := false, active := t.active.other } t.active
          (if (t.slot t.active.other).st = .inFlight then .pending else .inFlight),
        if (t.slot t.active.other).st = .inFlight then [] else [.txStart .timer t.active (t.slot t.active).size data]) := by
  have hflush := Transmit.flush_eq (ctx := .timer) (i := t.active) (t := { t with timer := false }) (data := data)
    (by simpa using hd)
  simpa [Transmit.timeout, ht, Transmit.cancelEvents, Transmit.setStatus_switched] using hflush

/-- The engine after a live expiry while the other slot is InFlight: the active slot waits (R172, R186). -/
def Transmit.expired (t : Transmit) : Transmit :=
  Transmit.setStatus { t with timer := false, active := t.active.other } t.active .pending

/-- The engine after a live expiry and a completion: the other slot is freed, the active one is started. -/
def Transmit.expiredAndCompleted (ok : Bool) (t : Transmit) : Transmit :=
  Transmit.setStatus { t.freed ok t.active.other with timer := false, active := t.active.other } t.active .inFlight

/-- A slot that has waited for the completion is started as one that has not: field by field, for either active slot. -/
theorem Transmit.expiredAndCompleted_of_waited (ok : Bool) (t : Transmit) :
    (t.expired.freed ok t.active.other).setStatus t.active .inFlight = t.expiredAndCompleted ok := by
  obtain ⟨slot0, slot1, active, timer, err⟩ := t
  cases active <;> rfl

section
variable {t : Transmit} {data : List Byte} (ok : Bool) (ht : t.timer = true)
  (ho : (t.slot t.active.other).st = .inFlight)
  (hd : (t.slot t.active).buf.bytesAt (slotAddrs 0 (t.slot t.active).size) = some data)
include ht ho hd

/-- The expiry first: the active slot waits, and the completion starts it (R172, R188). -/
theorem Transmit.timeout_then_complete : t.timeout = .next (t.expired, []) ∧ t.expired.complete ok =
    .next (t.expiredAndCompleted ok, [.txStart .interrupt t.active (t.slot t.active).size data]) := by
  have htimeout := Transmit.timeout_of_live ht hd
  rw [if_pos ho, if_pos ho] at htimeout
  have hslot : t.expired.inFlightSlot = some t.active.other :=
    Transmit.inFlightSlot_eq (by simpa [Transmit.expired] using ho) (by simp [Transmit.expired])
  have hcomplete := Transmit.complete_of_pending (data := data) ok hslot (by simp [Transmit.expired])
    (by simpa [Transmit.expired] using hd)
  rw [TxIx.other_other, Transmit.expiredAndCompleted_of_waited] at hcomplete
  exact ⟨htimeout, by simpa [Transmit.expired] using hcomplete⟩

/-- The completion first: nothing waits, and the expiry starts the active slot (R172, R188). -/
theorem Transmit.complete_then_timeout (ha : (t.slot t.active).st = .filling) :
    t.complete ok = .next (t.freed ok t.active.other, []) ∧ (t.freed ok t.active.other).timeout =
      .next (t.expiredAndCompleted ok, [.txStart .timer t.active (t.slot t.active).size data]) := by
  have hslot := Transmit.inFlightSlot_eq ho (by simp [ha])
  have htimeout := Transmit.timeout_of_live (t := t.freed ok t.active.other) (data := data) (by simpa using ht)
    (by simpa using hd)
  exact ⟨Transmit.complete_of_idle ok hslot (by simp [ha]), by simpa [Transmit.expiredAndCompleted] using htimeout⟩

end

/-- Settles O34: the two orders (`Transmit.timeout_then_complete`, `Transmit.complete_then_timeout`) end in one engine and start
one transfer with the same bytes. -/
theorem timeoutAndCompletionCommute : Obligations.TimeoutAndCompletionCommute := by
  intro s ok h ht ho
  obtain ⟨data, hd, -⟩ := (h.slot_sound s.tx.active).bytesAt le_rfl
  obtain ⟨ha, hb⟩ := Transmit.timeout_then_complete ok ht ho hd
  obtain ⟨hc, hd⟩ := Transmit.complete_then_timeout ok ht ho hd (h.timer_filling ht)
  refine ⟨_, _, _, _, exec_txTimeout ha, exec_txComplete (s := s.withTx (_, [])) hb, exec_txComplete hc,
    exec_txTimeout (s := s.withTx (_, [])) hd, rfl, ?_⟩
  simp [startedBytes]

end Sys2Proof.Machine
end

section
/-! No step stops (R220, R252, R254): each unit's operations read only bytes its invariant says are written, so what they answer
is a next state or a refusal of R243, which the command interface turns into one. -/

namespace Sys2Proof.Machine

/-! ### What the command interface takes -/

/-- A next state, or a refusal that is answered 0xEE (R111, R243). -/
def Settles {α : Type} (o : Answer α) : Prop := (∃ a, o = .next a) ∨ ∃ r, o = .refused r ∧ r.answered = true

@[simp] theorem settles_next {α : Type} (a : α) : Settles (.next a) := .inl ⟨a, rfl⟩

@[simp] theorem settles_refused {α : Type} {r : Refusal} : Settles (.refused r : Answer α) ↔ r.answered = true := by
  simp [Settles]

theorem settles_andThen {α β : Type} {o : Answer α} {f : α → Answer β} (ho : Settles o)
    (hf : ∀ a, o = .next a → Settles (f a)) : Settles (andThen o f) := by
  obtain ⟨a, rfl⟩ | ⟨r, rfl, hr⟩ := ho
  · exact hf a rfl
  · exact settles_refused.mpr hr

/-- What a unit answers, its operation answers. -/
theorem settles_andThen_next {α β : Type} {o : Answer α} (ho : Settles o) (f : α → β) :
    Settles (andThen o fun a => .next (f a)) := settles_andThen ho fun _ _ => settles_next _

theorem settles_asConsumer {s : State} {k : Answer State} (hk : s.io.fetch = none → Settles k) : Settles (asConsumer s k) := by
  by_cases hf : s.io.fetch = none
  · rw [asConsumer_of_none hf]
    exact hk hf
  · rw [asConsumer_of_fetching hf]
    exact settles_refused.mpr rfl

theorem settles_asForeground {s : State} {k : Answer State} (hk : s.io.write = none → Settles k) :
    Settles (asForeground s k) := by
  by_cases hw : s.io.write = none
  · rw [asForeground_of_none hw]
    exact hk hw
  · rw [asForeground_of_writing hw]
    exact settles_refused.mpr rfl

theorem Settles.settle_answers {o : Answer State} (h : Settles o) (p : Port) (s : State) : ∃ t, settle p s o = .next t := by
  obtain ⟨t, rfl⟩ | ⟨r, rfl, hr⟩ := h
  · exact ⟨t, rfl⟩
  · exact ⟨s.refuse p r, settle_eq_next.mpr (.inr ⟨r, rfl, hr, rfl⟩)⟩

/-! ### The ring and the reassembler -/

theorem Ring.Sound.pop_answers {p : Params} {r : Ring} (h : r.Sound p) (hp : p.wf = true) : ∃ x, r.pop p = .next x := by
  obtain ⟨views, hv⟩ := Option.isSome_iff_exists.mp h.records_some
  cases views with
  | nil => exact ⟨_, Ring.pop_empty hv⟩
  | cons v rest => exact ⟨_, h.pop_eq hp hv⟩

theorem execRsmFetch_settles {s : State} (h : s.Sound) : Settles (execRsmFetch s) := by
  refine settles_asConsumer fun _ => settles_andThen (.inl (h.rb_sound.pop_answers h.params_wf)) fun x _ => ?_
  cases x.tag with
  | none | packet => exact settles_next _
  | continuation => exact settles_refused.mpr rfl

/-- Where the joined record is not too long, all of it is staged (R153 (a)). -/
theorem loadJoined_answers {s : State} {f : FetchProgress} (h : s.FetchSound) (hf : s.io.fetch = some f) :
    ∃ d, loadJoined f s = .next d := by
  unfold loadJoined
  split
  · exact ⟨_, rfl⟩
  · next hfit =>
    have hstaged := h.staged f hf
    rw [Nat.min_eq_left (Nat.le_of_not_lt hfit)] at hstaged
    obtain ⟨pkt, hpkt, -⟩ := Memory.bytesAt_isSome (m := s.rsmBuf) (addrs := slotAddrs 0 f.len) fun a ha =>
      hstaged a (by have := mem_slotAddrs.mp ha; omega)
    exact ⟨_, by rw [readAll_eq_next.mpr hpkt, andThen_next]⟩

/-- A later step of a RSM_FETCH is never refused: the Continuation it pops is due (R131). -/
theorem continueFetch_answers {s : State} {f : FetchProgress} (h : s.Sound) (hf : s.io.fetch = some f) :
    ∃ t, continueFetch f s = .next t := by
  unfold continueFetch
  split
  · next hmore =>
    obtain ⟨x, hx, htag⟩ := h.rb_sound.pop_continuation (h.fetch_sound.due f hf hmore)
    exact ⟨_, by simp only [fetchContinuation, hx, htag, andThen_next]; rfl⟩
  · obtain ⟨d, hd⟩ := loadJoined_answers h.fetch_sound hf
    exact ⟨_, by rw [fetchLoad, hd, andThen_next]⟩

/-! ### The transmit engine -/

/-- A flush of a sound slot reads bytes that have been written (R252). -/
theorem Transmit.flush_answers {p : Params} {t : Transmit} {i : TxIx} (h : (t.slot i).Sound p) (ctx : Ctx) :
    ∃ x, t.flush ctx i = .next x := by
  obtain ⟨data, hd, -⟩ := h.bytesAt le_rfl
  exact ⟨_, Transmit.flush_eq hd⟩

theorem Transmit.Sound.append_answers {p : Params} {t : Transmit} (h : t.Sound p) (hp : p.wf = true) (m : Message) :
    ∃ r, t.append p m = .next r := by
  cases hb : (t.slot t.active).st.busy with
  | true => exact ⟨none, Transmit.append_of_busy p m hb⟩
  | false =>
    obtain ⟨x, hx⟩ := h.append_accepts hp m hb
    exact ⟨some x, hx⟩

theorem Transmit.Sound.sendNow_answers {p : Params} {t : Transmit} (h : t.Sound p) : ∃ x, t.sendNow p = .next x := by
  have ha := h.slot_sound t.active
  simp only [Transmit.sendNow]
  split
  · exact Transmit.flush_answers ha .ordinary
  · split
    · exact Transmit.flush_answers (p := p) (by rw [Transmit.setSlot_slot]; exact ha.emptied .filling) .ordinary
    · exact ⟨_, rfl⟩

theorem Transmit.Sound.timeout_answers {p : Params} {t : Transmit} (h : t.Sound p) : ∃ x, t.timeout = .next x := by
  cases ht : t.timer with
  | false => exact ⟨_, if_pos ht⟩
  | true =>
    obtain ⟨data, hd, -⟩ := (h.slot_sound t.active).bytesAt le_rfl
    exact ⟨_, Transmit.timeout_of_live ht hd⟩

/-- A completion is answered, or refused because no transfer is outstanding (R189 (b)). -/
theorem Transmit.Sound.complete_settles {p : Params} {t : Transmit} (h : t.Sound p) (ok : Bool) : Settles (t.complete ok) := by
  cases hi : t.inFlightSlot with
  | none => simp [Transmit.complete, hi, Refusal.answered]
  | some i =>
    by_cases hp : (t.slot i.other).st = .pending
    · obtain ⟨data, hd, -⟩ := (h.slot_sound i.other).bytesAt le_rfl
      rw [Transmit.complete_of_pending ok hi hp hd]
      exact settles_next _
    · rw [Transmit.complete_of_idle ok hi hp]
      exact settles_next _

theorem writeStep_answers {s : State} (h : s.Sound) (w : WriteProgress) : ∃ t, writeStep w s = .next t := by
  unfold writeStep
  split
  · exact ⟨_, rfl⟩
  · next m ms _ =>
    obtain ⟨r, hr⟩ := h.tx_sound.append_answers h.params_wf m
    rw [hr, andThen_next]
    cases r with
    | some x => exact ⟨_, rfl⟩
    | none => exact ⟨_, (apply_ite Host.Outcome.next _ _ _).symm⟩

theorem execTxWrite_settles {s : State} (h : s.Sound) (msgs : List Message) : Settles (execTxWrite msgs s) := by
  refine settles_asForeground fun _ => ?_
  split
  · exact .inl (writeStep_answers h _)
  · exact settles_refused.mpr rfl

/-! ### The receive engine -/

theorem Receive.Sound.slot_exists {p : Params} {r : Receive} (h : r.Sound p) {i : Nat} (hi : i < p.rxNslots) :
    ∃ sl, r.slots[i]? = some sl := ⟨_, List.getElem?_eq_getElem (h.slots_length ▸ hi)⟩

/-- There is a whole Message at the marker of an available slot (R205). -/
theorem RxSlot.Available.readMessage_answers {sl : RxSlot} (h : sl.Available) (sp : Space) :
    ∃ m, readMessage sp sl.buf sl.off = .next m := by
  obtain ⟨hlt, hsize, hoff, hwritten⟩ := h
  have hbyte (k : Nat) (hk : k < msgBytes) : ∃ b, sl.buf.read (sl.off + k) = some b :=
    Option.isSome_iff_exists.mp (hwritten _ (by simp only [msgBytes] at *; omega))
  obtain ⟨b0, h0⟩ := hbyte 0 (by decide)
  obtain ⟨b1, h1⟩ := hbyte 1 (by decide)
  obtain ⟨b2, h2⟩ := hbyte 2 (by decide)
  obtain ⟨b3, h3⟩ := hbyte 3 (by decide)
  exact ⟨⟨b0, b1, b2, b3⟩, readMessage_eq_next.mpr ⟨h0, h1, h2, h3⟩⟩

theorem Receive.Sound.read_answers {p : Params} {r : Receive} (h : r.Sound p) : ∃ x, r.read p = .next x := by
  by_cases ha : r.avail = 0
  · exact ⟨_, Receive.read_of_empty p ha⟩
  · obtain ⟨sl, hsl⟩ := h.slot_exists h.ridx_lt
    obtain ⟨m, hm⟩ := ((h.slot hsl).available (h.ridx_available ha)).1.readMessage_answers (.rx r.ridx)
    exact ⟨_, Receive.read_of_message ha hsl hm⟩

/-- A completion is answered, or refused for one of R210's two reasons. -/
theorem Receive.Sound.complete_settles {p : Params} {r : Receive} (h : r.Sound p) (ok : Bool) (data : List Byte) :
    Settles (r.complete p ok data) := by
  cases hb : r.busy with
  | false =>
    rw [Receive.complete_of_idle ok hb]
    exact settles_refused.mpr rfl
  | true =>
    by_cases hlong : p.pktBytes < data.length
    · rw [Receive.complete_of_tooLong hb ok hlong]
      exact settles_refused.mpr rfl
    · have hfit := Nat.le_of_not_lt hlong
      cases ok with
      | false =>
        rw [Receive.complete_of_failed hb hfit]
        exact settles_next _
      | true =>
        by_cases hshort : data.length < msgBytes
        · rw [Receive.complete_of_noMessage hb hfit hshort]
          exact settles_next _
        · obtain ⟨sl, hsl⟩ := h.slot_exists (h.widx_eq ▸ Nat.mod_lt _ (Nat.zero_lt_of_lt h.ridx_lt))
          rw [Receive.complete_of_packet hb hfit (Nat.le_of_not_lt hshort) hsl]
          exact settles_next _

/-! ### Every operation, every turn -/

/-- RESET is answered, or refused for one of R251's and R253's reasons, also before the first one. -/
theorem execReset_settles (s : State) : Settles (execReset s) := by
  unfold execReset
  split
  · exact settles_refused.mpr rfl
  · split
    · exact settles_refused.mpr rfl
    · exact settles_next _

theorem execRbPush_settles (view : List Byte) (s : State) : Settles (execRbPush view s) := by
  unfold execRbPush
  split <;> exact settles_next _

theorem exec_settles {s : State} (h : s.Sound) (i : Instr) : Settles (exec i s) := by
  cases i with
  | rbPush view => exact execRbPush_settles view s
  | rbPop => exact settles_asConsumer fun _ => settles_andThen_next (.inl (h.rb_sound.pop_answers h.params_wf)) _
  | decLoad | decTs | bleEnc | rxBegin | rxErrcnt => exact settles_next _
  | decNext =>
    obtain ⟨b, d, hd, -⟩ := Decoder.next_answers h.dec_sound.written
    exact settles_andThen_next (.inl ⟨_, hd⟩) _
  | rsmFetch => exact execRsmFetch_settles h
  | txWrite msgs => exact execTxWrite_settles h msgs
  | txWriteNb msgs => exact settles_asForeground fun _ => .inl (writeStep_answers h _)
  | txSendNow => exact settles_asForeground fun _ => settles_andThen_next (.inl h.tx_sound.sendNow_answers) _
  | txIsDone | txErrcnt => exact settles_asForeground fun _ => settles_next _
  | txTimeout => exact settles_andThen_next (.inl h.tx_sound.timeout_answers) _
  | txComplete ok => exact settles_andThen_next (h.tx_sound.complete_settles ok) _
  | rxRead => exact settles_andThen_next (.inl h.rx_sound.read_answers) _
  | rxComplete ok data => exact settles_andThen_next (h.rx_sound.complete_settles ok data) _
  | reset => exact execReset_settles s

/-- A later step does not pass the command interface, and needs no answer of it: it is never refused. -/
theorem continueOperation_answers {s : State} (h : s.Sound) (a : Agent) : ∃ t, continueOperation a s = .next t := by
  unfold continueOperation
  split
  · next hf => exact continueFetch_answers h hf
  · exact writeStep_answers h _
  · exact ⟨s, rfl⟩

/-- A word is answered 0xEE or its operation is executed, before the first RESET no other than RESET (R250). -/
theorem serve_answers {s : State} (h : s.Inv) (p : Port) (word : List Byte) : ∃ t, serve p word s = .next t := by
  cases hd : decode word with
  | error e => exact ⟨_, serve_of_badWord hd⟩
  | ok i =>
    by_cases hp : i.port = p
    · by_cases hi : i = .reset
      · rw [serve_of_decode hd hp (.inr hi), hi]
        exact (execReset_settles s).settle_answers p s
      · cases hl : s.io.live with
        | false => exact ⟨_, serve_of_notConstructed hd hp hl hi⟩
        | true =>
          rw [serve_of_decode hd hp (.inl hl)]
          exact (exec_settles (h hl) i).settle_answers p s
    · exact ⟨_, serve_of_wrongPort hd hp⟩

theorem actAs_answers {s : State} (h : s.Inv) (a : Agent) : ∃ t, actAs a s = .next t := by
  cases hin : s.inside a with
  | true =>
    rw [actAs_of_inside hin]
    exact continueOperation_answers (h (State.live_of_inside hin)) a
  | false =>
    cases hc : s.nextCommand a with
    | none => exact ⟨_, actAs_of_no_command hin hc⟩
    | some c =>
      rw [actAs_of_command hin hc]
      exact serve_answers (s := s.issuing a c) (h.withInterface rfl rfl) a.port c.word

/-- Settles O51: every kind of turn has a next state (`actAs_answers`), by the progress of each unit's operations. -/
theorem stepNeverStops : Obligations.StepNeverStops := by
  intro s h
  cases hturn : s.io.turns with
  | nil => exact ⟨_, step_of_no_turn hturn⟩
  | cons a rest =>
    rw [step_of_turn hturn]
    exact actAs_answers (h.withInterface (io := { s.io with turns := rest }) rfl rfl) a

end Sys2Proof.Machine
end

section
/-! RESET (R250, R251, R49): when it may be issued, and its answer in each of the three cases of its definition. -/

namespace Sys2Proof.Machine

/-- What R251 asks of a block that is live: no operation in progress, no transfer outstanding, the timer not armed. -/
theorem State.idle_iff {s : State} :
    s.idle = true ↔ s.io.fetch = none ∧ s.io.write = none ∧ (∀ i, (s.tx.slot i).st ≠ .inFlight) ∧ s.rx.busy = false ∧
      s.tx.timer = false := by
  have hslots : (∀ i, (s.tx.slot i).st ≠ .inFlight) ↔ s.tx.slot0.st ≠ .inFlight ∧ s.tx.slot1.st ≠ .inFlight :=
    ⟨fun h => ⟨h .zero, h .one⟩, fun ⟨h0, h1⟩ i => i.casesOn h0 h1⟩
  simp [State.idle, hslots, and_assoc]

/-- Each of the conditions for which R251 forbids RESET makes the block not idle. -/
theorem State.idle_eq_false_iff {s : State} :
    s.idle = false ↔ s.io.fetch ≠ none ∨ s.io.write ≠ none ∨ (∃ i, (s.tx.slot i).st = .inFlight) ∨ s.rx.busy = true ∨
      s.tx.timer = true := by
  rw [← Bool.not_eq_true, State.idle_iff]
  simp only [not_and_or, not_forall, not_not, ne_eq, Bool.not_eq_false]

theorem exec_reset_of_badParameters {s : State} (hp : s.params.wf = false) : exec .reset s = .refused .badParameters :=
  if_pos hp

theorem exec_reset_of_notIdle {s : State} (hp : s.params.wf = true) (hl : s.io.live = true) (hi : s.idle = false) :
    exec .reset s = .refused .resetNotIdle :=
  (if_neg (by simp [hp])).trans (if_pos ⟨hl, hi⟩)

theorem exec_reset_of_legal {s : State} (hp : s.params.wf = true) (h : s.io.live = false ∨ s.idle = true) :
    exec .reset s = .next s.constructed := by
  have hlegal : ¬ (s.io.live = true ∧ s.idle = false) := by
    rintro ⟨hl, hi⟩
    simp [hl, hi] at h
  exact (if_neg (by simp [hp])).trans (if_neg hlegal)

/-- Settles O41: a legal RESET answers `State.constructed`, whose fields are the values of the statement. -/
theorem resetGivesResetValues : Obligations.ResetGivesResetValues :=
  fun _ hp h => exec_reset_of_legal hp (h.imp_right State.idle_iff.mpr)

/-- Settles O42: illegal parameters are looked at first, then whether a live block is idle. -/
theorem resetRefusedUnlessIdle : Obligations.ResetRefusedUnlessIdle :=
  fun _ => ⟨exec_reset_of_badParameters, fun hp hl h => exec_reset_of_notIdle hp hl (State.idle_eq_false_iff.mpr h)⟩

end Sys2Proof.Machine
end

section
/-! The two readings of a malformed packet that fits the store (R141, R221, log 12). -/

namespace Sys2Proof.Machine

/-- A malformed packet is stored all the same, and the cursor stands at the length of the chosen reading (R142, R221). -/
theorem Decoder.loaded_malformed (p : Params) {pkt : List Byte} (d : Decoder)
    (h : pkt.length < 2 ∨ ∃ b0 rest, pkt = b0 :: rest ∧ hiBit b0 = false) : d.loaded p pkt =
    { buf := writeAll d.buf (slotAddrs 0 pkt.length) pkt, len := p.malformedLength pkt.length,
      pos := p.malformedLength pkt.length, ok := false, prevTs := false, ts := 0 } := by
  match pkt with
  | [] => rfl
  | [_] => rfl
  | b0 :: _ :: _ =>
    have h0 : hiBit b0 = false := by simpa using h
    exact if_pos h0

/-- Settles O52: `Params.malformedLength` is the choice between the two readings, and the packet is written from address 0 on. -/
theorem malformedLengthReadings : Obligations.MalformedLengthReadings := by
  intro s pkt hfit hmal
  refine ⟨writeAll s.dec.buf (slotAddrs 0 pkt.length) pkt, ?answer, fun k hk => ?stored, fun a ha => ?others⟩
  case answer =>
    rw [exec_decLoad, Decoder.load_fits _ hfit, Decoder.loaded_malformed _ _ hmal]
    rfl
  case stored =>
    have hread := Memory.read_writeAll_getElem s.dec.buf (slotAddrs_nodup 0 pkt.length) (by simpa using hk) hk
    rwa [slotAddrs_getElem, Nat.zero_add] at hread
  case others => exact Memory.read_writeAll_other _ _ (by simp [mem_slotAddrs, ha])

end Sys2Proof.Machine
end
